-- ==== Sys2Proof/Word.lean ====
section
/-! DEFINITION. The value types of the OMK core (00_scope.md R6, R8): bytes and 32-bit words. -/

namespace Sys2Proof

/-- An 8-bit unsigned value (00_scope.md R6, R8). -/
abbrev Byte := BitVec 8

/-- A 32-bit unsigned value: a register, a command word, a hash word (00_scope.md R6, R8). -/
abbrev Word := BitVec 32

/-- A 32-byte digest, byte 0 first (00_scope.md R6, 10_state.md R38). -/
abbrev Digest := Vector Byte 32

end Sys2Proof
end

