-- ==== Sys2Proof/Syntax.lean ====
section
/-! DEFINITION. The commands (30_encoding.md R94) and the fields of the command word (30_encoding.md R90). -/

namespace Sys2Proof

/-- The commands, one constructor per row of 30_encoding.md R94. The flags are those of R92. -/
inductive Instr where
  /-- NOP (45_control.md R240). -/
  | nop
  /-- RESET (45_control.md R241). -/
  | reset
  /-- OPEN with its flags STRIDED and UNLOCK (`unwrap`) (40_bitio.md R124). -/
  | openIo (strided unwrap : Bool)
  /-- SEEK (40_bitio.md R125). -/
  | seek
  /-- WRBIT (40_bitio.md R126). -/
  | wrbit
  /-- RDBIT (40_bitio.md R127). -/
  | rdbit
  /-- ENCB (43_codec.md R218). -/
  | encb
  /-- DECB (43_codec.md R219). -/
  | decb
  /-- ENCU (43_codec.md R220). -/
  | encu
  /-- DECU (43_codec.md R221). -/
  | decu
  /-- ENCBUF (43_codec.md R222). -/
  | encbuf
  /-- DECBUF (43_codec.md R223). -/
  | decbuf
  /-- GETOUT with its flags TRIMZ and LOCK (`wrap`) (40_bitio.md R128). -/
  | getout (trimz wrap : Bool)
  /-- HASH (41_hash.md R164). -/
  | hash
  /-- LOCK (42_framing.md R193). -/
  | lock
  /-- UNLOCK (42_framing.md R194). -/
  | unlock
  deriving DecidableEq, Repr

/-- The fields of a command word, format CMD32 (30_encoding.md R90). -/
structure CmdFields where
  /-- OPC, bits 7:0. -/
  opc : BitVec 8
  /-- F0, bit 8. -/
  f0 : Bool
  /-- F1, bit 9. -/
  f1 : Bool
  /-- FRES, bits 15:10, reserved. -/
  fres : BitVec 6
  /-- RES, bits 31:16, reserved. -/
  res : BitVec 16
  deriving DecidableEq, Repr

/-- Why a word is no command (30_encoding.md R96). -/
inductive Illegal where
  /-- A nonzero bit in 31:16. -/
  | reservedHigh
  /-- A nonzero bit in 15:10. -/
  | reservedFlags
  /-- An opcode that is not in the table. -/
  | unassignedOpcode
  /-- F0 set on a command without flags. -/
  | flag0NotAllowed
  /-- F1 set on a command without flags. -/
  | flag1NotAllowed
  deriving DecidableEq, Repr

end Sys2Proof
end

