-- ==== Sys2Proof/WellFormed.lean ====
section
/-! DEFINITION. Which command fields are legal (30_encoding.md R93, R96), and the fields of each command (R92, R94). -/

namespace Sys2Proof

/-- The opcodes of 30_encoding.md R94. -/
def assignedOpcodes : List (BitVec 8) :=
  [0x00, 0x01, 0x02, 0x03, 0x10, 0x11, 0x20, 0x21, 0x22, 0x23, 0x24, 0x25, 0x30, 0x40, 0x41, 0x42]

/-- The opcodes that take the flags F0 and F1: OPEN and GETOUT (30_encoding.md R92). -/
def flaggedOpcodes : List (BitVec 8) := [0x02, 0x30]

/-- RES must be 0 (30_encoding.md R93). -/
def CmdFields.resOk (f : CmdFields) : Bool := f.res == 0

/-- FRES must be 0 (30_encoding.md R93). -/
def CmdFields.fresOk (f : CmdFields) : Bool := f.fres == 0

/-- OPC selects a row of the table (30_encoding.md R91, R94). -/
def CmdFields.opcOk (f : CmdFields) : Bool := assignedOpcodes.contains f.opc

/-- F0 is 0 unless the command takes flags (30_encoding.md R93). -/
def CmdFields.flag0Ok (f : CmdFields) : Bool := !f.f0 || flaggedOpcodes.contains f.opc

/-- F1 is 0 unless the command takes flags (30_encoding.md R93). -/
def CmdFields.flag1Ok (f : CmdFields) : Bool := !f.f1 || flaggedOpcodes.contains f.opc

/-- The fields make a legal command word: every check of 30_encoding.md R93 and R96 passes. -/
def CmdFields.wf (f : CmdFields) : Bool := f.resOk && f.fresOk && f.opcOk && f.flag0Ok && f.flag1Ok

/-- The opcode of a command (30_encoding.md R94). -/
def Instr.opcode : Instr → BitVec 8
  | .nop => 0x00
  | .reset => 0x01
  | .openIo _ _ => 0x02
  | .seek => 0x03
  | .wrbit => 0x10
  | .rdbit => 0x11
  | .encb => 0x20
  | .decb => 0x21
  | .encu => 0x22
  | .decu => 0x23
  | .encbuf => 0x24
  | .decbuf => 0x25
  | .getout _ _ => 0x30
  | .hash => 0x40
  | .lock => 0x41
  | .unlock => 0x42

/-- The flags F0 and F1 of a command (30_encoding.md R92). -/
def Instr.flags : Instr → Bool × Bool
  | .openIo strided unwrap => (strided, unwrap)
  | .getout trimz wrap => (trimz, wrap)
  | .nop | .reset | .seek | .wrbit | .rdbit | .encb | .decb | .encu | .decu | .encbuf | .decbuf | .hash | .lock
  | .unlock => (false, false)

/-- The fields of a command's word. -/
def Instr.fields (i : Instr) : CmdFields :=
  { opc := i.opcode, f0 := i.flags.1, f1 := i.flags.2, fres := 0, res := 0 }

/-- A command is well formed when its fields are: true of every command, since `Instr` holds no reserved bit. -/
def Instr.wf (i : Instr) : Bool := i.fields.wf

end Sys2Proof
end

