-- ==== Sys2Proof/Decode.lean ====
section
/-! DEFINITION. Decoding a command word (30_encoding.md R90 to R96), and after it the encoder. -/

namespace Sys2Proof

/-- The fields of a command word (30_encoding.md R90). -/
def CmdFields.parse (w : Word) : CmdFields :=
  { opc := w.extractLsb' 0 8, f0 := w.getLsbD 8, f1 := w.getLsbD 9, fres := w.extractLsb' 10 6,
    res := w.extractLsb' 16 16 }

/-- The command an opcode and its flags name, if the opcode is assigned (30_encoding.md R91, R92, R94). -/
def selectCommand (opc : BitVec 8) (f0 f1 : Bool) : Option Instr :=
  match opc.toNat with
  | 0x00 => some .nop
  | 0x01 => some .reset
  | 0x02 => some (.openIo f0 f1)
  | 0x03 => some .seek
  | 0x10 => some .wrbit
  | 0x11 => some .rdbit
  | 0x20 => some .encb
  | 0x21 => some .decb
  | 0x22 => some .encu
  | 0x23 => some .decu
  | 0x24 => some .encbuf
  | 0x25 => some .decbuf
  | 0x30 => some (.getout f0 f1)
  | 0x40 => some .hash
  | 0x41 => some .lock
  | 0x42 => some .unlock
  | _ => none

/-- Decoding of the fields, rejecting by name (30_encoding.md R93, R96). -/
def decodeFields (f : CmdFields) : Except Illegal Instr :=
  if f.resOk = false then .error .reservedHigh
  else if f.fresOk = false then .error .reservedFlags
  else
    match selectCommand f.opc f.f0 f.f1 with
    | none => .error .unassignedOpcode
    | some i =>
      if f.flag0Ok = false then .error .flag0NotAllowed
      else if f.flag1Ok = false then .error .flag1NotAllowed
      else .ok i

/-- Decoding of a command word: a command, or the reason why the word is illegal (30_encoding.md R95, R96). -/
def decode (w : Word) : Except Illegal Instr := decodeFields (CmdFields.parse w)

/-- The instruction the decoder reads from a word of `nbits` bits, numbered as the opcode table numbers them; the bits above
`nbits` are 0, and a command has no bit above 31 (30_encoding.md R99). -/
def decodeTableWord (nbits w : Nat) : Option Instr :=
  let v := w % 2 ^ nbits
  if v < 2 ^ 32 then
    match decode (BitVec.ofNat 32 v) with
    | .ok i => some i
    | .error _ => none
  else none

/-- A flag as a field of one bit. -/
def flagBit (b : Bool) : BitVec 1 := if b then 1 else 0

/-- The word of given fields (30_encoding.md R90). -/
def CmdFields.pack (f : CmdFields) : Word := f.res ++ f.fres ++ flagBit f.f1 ++ flagBit f.f0 ++ f.opc

/-- The word of a command (30_encoding.md R90, R92, R94). -/
def encode (i : Instr) : Word := i.fields.pack

/-- A row of the opcode map (30_encoding.md R94). -/
structure OpcodeRow where
  /-- The row's bits that are fixed. -/
  mask : Word
  /-- The value of the fixed bits. -/
  pattern : Word
  /-- The command of a word that the row selects, STRIDED and TRIMZ being bit 8, UNLOCK and LOCK bit 9. -/
  command : Word → Instr

/-- The opcode map, in the order of 30_encoding.md R94. -/
def opcodeMap : List OpcodeRow :=
  [ ⟨0xFFFFFFFF, 0x00000000, fun _ => .nop⟩,
    ⟨0xFFFFFFFF, 0x00000001, fun _ => .reset⟩,
    ⟨0xFFFFFCFF, 0x00000002, fun w => .openIo (w.getLsbD 8) (w.getLsbD 9)⟩,
    ⟨0xFFFFFFFF, 0x00000003, fun _ => .seek⟩,
    ⟨0xFFFFFFFF, 0x00000010, fun _ => .wrbit⟩,
    ⟨0xFFFFFFFF, 0x00000011, fun _ => .rdbit⟩,
    ⟨0xFFFFFFFF, 0x00000020, fun _ => .encb⟩,
    ⟨0xFFFFFFFF, 0x00000021, fun _ => .decb⟩,
    ⟨0xFFFFFFFF, 0x00000022, fun _ => .encu⟩,
    ⟨0xFFFFFFFF, 0x00000023, fun _ => .decu⟩,
    ⟨0xFFFFFFFF, 0x00000024, fun _ => .encbuf⟩,
    ⟨0xFFFFFFFF, 0x00000025, fun _ => .decbuf⟩,
    ⟨0xFFFFFCFF, 0x00000030, fun w => .getout (w.getLsbD 8) (w.getLsbD 9)⟩,
    ⟨0xFFFFFFFF, 0x00000040, fun _ => .hash⟩,
    ⟨0xFFFFFFFF, 0x00000041, fun _ => .lock⟩,
    ⟨0xFFFFFFFF, 0x00000042, fun _ => .unlock⟩ ]

end Sys2Proof
end

