-- ==== Sys2Proof/Config.lean ====
section
/-! DEFINITION. What is fixed for one OMK block: the size parameters and base address, the identification constant, and
the free values of the memories' power-on contents. -/

namespace Sys2Proof

/-- The engine's byte memories (20_memory.md R60, R61): IN_MEM, BUF_MEM and OUT_MEM. -/
inductive Space where
  | inp
  | buf
  | out
  deriving DecidableEq, Repr

/-- The implementation parameters, named arguments of the model with no value fixed by the source (00_scope.md R5,
20_memory.md R62). Every statement over states holds for every value of them (log 1). -/
structure Params where
  /-- IN_MAX, the capacity of IN_MEM in bytes. -/
  inMax : Nat
  /-- BUF_MAX, the capacity of BUF_MEM in bytes. -/
  bufMax : Nat
  /-- OUT_MAX, the capacity of OUT_MEM in bytes. -/
  outMax : Nat
  /-- OUT_CAP0, the initial logical capacity of the output buffer in bytes. -/
  outCap0 : Nat
  /-- OMK_BASE, added to every address of the host address map. -/
  base : Word
  deriving DecidableEq, Repr

/-- The constraints of 00_scope.md R5. -/
abbrev Params.Legal (p : Params) : Prop :=
  p.inMax ≤ 2 ^ 27 ∧ (32 ≤ p.bufMax ∧ p.bufMax ≤ 2 ^ 27) ∧ (1 ≤ p.outMax ∧ p.outMax ≤ 2 ^ 27) ∧
    (1 ≤ p.outCap0 ∧ p.outCap0 ≤ p.outMax)

/-- The capacity of a memory in bytes (20_memory.md R61). -/
def Params.size (p : Params) : Space → Nat
  | .inp => p.inMax
  | .buf => p.bufMax
  | .out => p.outMax

/-- The reference configuration of 00_scope.md R5. The base address 0 is a DESIGN CHOICE (log 2). -/
def Params.reference : Params :=
  { inMax := 1024, bufMax := 1024, outMax := 1024, outCap0 := 4, base := 0 }

/-- The constant of the ID register (10_state.md R35): the bytes "OMK" and command-set revision 1. -/
def Config.idWord : Word := 0x4F4D4B01

/-- FREE VALUE (log 3): the byte a memory holds after the n-th power-on reset, until the host or a command writes it
(70_reset_and_hazards.md R292: "a model takes each byte as a free input (a draw) on which no rule may depend"). It has no
body, so nothing can be proved of its values. -/
opaque Config.powerOnByte (n : Nat) (sp : Space) (addr : Nat) : Byte

end Sys2Proof
end

