-- ==== Sys2Proof/Machine/State.lean ====
section
/-! DEFINITION. The state of the OMK core (10_state.md R20), its reset value (10_state.md R49), and the reasons a step of the
model stops. State is plain data. -/

namespace Sys2Proof.Machine

/-- A byte memory: the bytes written since the last power-on reset, addresses strictly rising. An address that is not listed
holds its power-on draw (`Config.powerOnByte`, log 3). -/
abbrev Memory := List Host.Cell

/-- One access of the host to the block (30_encoding.md R100). -/
inductive HostOp where
  /-- A 32-bit write `(address, word)`. -/
  | write32 (addr : Word) (value : Word)
  /-- A 32-bit read `(address)`. -/
  | read32 (addr : Word)
  /-- An 8-bit write `(address, byte)`. -/
  | write8 (addr : Word) (value : Byte)
  /-- An 8-bit read `(address)`. -/
  | read8 (addr : Word)
  deriving DecidableEq, Repr

/-- What the outside world does to the block, one step each: a host access, or power-on reset, asserted by the platform
(70_reset_and_hazards.md R290). -/
inductive Input where
  | access (op : HostOp)
  | powerOnReset
  deriving DecidableEq, Repr

/-- What a host read returns (70_reset_and_hazards.md R300). -/
inductive Reply where
  | word (value : Word)
  | byte (value : Byte)
  deriving DecidableEq, Repr

/-- The state of one OMK block (10_state.md R20), its parameters, and the model's own fields: the count of power-on resets,
the host operations still to come and the values the host's reads have returned. CMD has no storage (R24); ID and the constant
ROM are constants (R35, R42). -/
structure State where
  /-- The implementation parameters (00_scope.md R5); no step changes them (log 1). -/
  params : Params
  /-- STATUS (10_state.md R25). -/
  status : Word
  /-- FINFO (10_state.md R26). -/
  finfo : Word
  /-- ARG0 (10_state.md R22). -/
  arg0 : Word
  /-- ARG1 (10_state.md R22). -/
  arg1 : Word
  /-- RESULT (10_state.md R27). -/
  result : Word
  /-- IN_LEN (10_state.md R28). -/
  inLen : Word
  /-- BUF_LEN (10_state.md R29). -/
  bufLen : Word
  /-- MODE (10_state.md R30). -/
  mode : Word
  /-- RLEN (10_state.md R31). -/
  rlen : Word
  /-- RCUR (10_state.md R32). -/
  rcur : Word
  /-- WBITS (10_state.md R33). -/
  wbits : Word
  /-- WACC (10_state.md R34). -/
  wacc : Word
  /-- OUT_LEN (10_state.md R36). -/
  outLen : Word
  /-- OUT_CAP (10_state.md R37). -/
  outCap : Word
  /-- DIGEST (10_state.md R38). -/
  digest : Digest
  /-- IN_MEM (10_state.md R39). -/
  inMem : Memory
  /-- BUF_MEM (10_state.md R40). -/
  bufMem : Memory
  /-- OUT_MEM (10_state.md R41). -/
  outMem : Memory
  /-- The model's own: how many power-on resets came before this one; it selects the draws of `Config.powerOnByte`
  (70_reset_and_hazards.md R292, log 4). -/
  powerCycles : Nat
  /-- The model's own: the inputs still to come, oldest first (70_reset_and_hazards.md R301, log 5). -/
  pending : List Input
  /-- The model's own: what the host's reads have returned, oldest first (log 5). -/
  replies : List Reply
  deriving DecidableEq, Repr

/-- Why a step of the model stops with a fault. The block's own faults (60_exceptions.md R250) are next states, not these. -/
inductive Fault where
  /-- An engine access to an address outside its memory, which 20_memory.md R61 says does not happen. Raised by the engine's
  memory operations (`engineRead`, `engineWrite`, `memRead`, `memWrite`) in a state that breaks the bounds of 00_scope.md R5
  and 10_state.md R31, R36, which no run reaches. Safe (log 8). -/
  | outsideMemory (sp : Space) (addr : Nat)
  deriving DecidableEq, Repr

/-- Why a step of the model is refused. -/
inductive Refusal where
  /-- Raised by an arm of `exec` whose instruction has no meaning yet; no arm of this model does. Safe. -/
  | notModelled (mnemonic : String)
  /-- A host access to an address that is not in the map of 20_memory.md R62 (R63: "the model refuses it"). Raised by the
  host's accesses (`hostWrite32`, `hostRead32`, `hostWrite8`, `hostRead8`). Safe (log 10). -/
  | unmappedAddress (addr : Word)
  /-- A 32-bit host access inside a register but not at its address (20_memory.md R64: refused by R63). Raised by
  `hostWrite32` and `hostRead32`. Safe (log 10). -/
  | misalignedAccess (addr : Word)
  /-- A 32-bit host access to a byte location, or an 8-bit access to a 32-bit register (20_memory.md R63). Raised by the
  host's accesses. Safe (log 10). -/
  | wrongWidth (addr : Word)
  deriving DecidableEq, Repr

/-- The state after power-on reset of a block with given parameters (10_state.md R49; 70_reset_and_hazards.md R291, R292),
with nothing pending. -/
def State.resetWith (p : Params) : State :=
  { params := p
    status := 0, finfo := 0, arg0 := 0, arg1 := 0, result := 0, inLen := 0, bufLen := 0
    mode := 0, rlen := 0, rcur := 0
    wbits := 0, wacc := 0, outLen := 0, outCap := BitVec.ofNat 32 p.outCap0
    digest := Vector.replicate 32 0
    inMem := [], bufMem := [], outMem := []
    powerCycles := 0, pending := [], replies := [] }

/-- The state after power-on reset, in the reference configuration of 00_scope.md R5 (log 1). -/
def State.reset : State := State.resetWith Params.reference

end Sys2Proof.Machine
end

