-- ==== Sys2Proof/Machine/Flags.lean ====
section
/-! DEFINITION. The one flag register, STATUS (10_state.md R25), the fault codes it records (60_exceptions.md R250), and the
FAULT_IRQ output (R256). No other flag exists (10_state.md R47). -/

namespace Sys2Proof.Machine

/-- The block's fault causes (60_exceptions.md R250). -/
inductive FaultCode where
  /-- The CMD word selects no row of the opcode map. -/
  | illegalCommand
  /-- A wrapped length is below 32. -/
  | invalidFormat
  /-- Unlock's recomputed digest differs. -/
  | integrityError
  /-- ARG0 > ARG1 (ENCB), ARG0 > 0x7FFFFFFF (ENCU), ARG0 > 1 (WRBIT). -/
  | contractViolation
  /-- An unbounded code's value exceeds 2^31 - 1. -/
  | decodeOverflow
  /-- A length operand or result exceeds its memory's size. -/
  | capacityExceeded
  deriving DecidableEq, Repr

/-- The 4-bit code of a fault (60_exceptions.md R250). -/
def FaultCode.code : FaultCode → Word
  | .illegalCommand => 1
  | .invalidFormat => 2
  | .integrityError => 3
  | .contractViolation => 4
  | .decodeOverflow => 5
  | .capacityExceeded => 6

/-- STATUS after fault entry: FAULT = 1 and CODE (60_exceptions.md R251). -/
def FaultCode.status (c : FaultCode) : Word := 1 ||| (c.code <<< 4)

/-- The bits of STATUS that are not reserved: FAULT and CODE; the others read as 0 (10_state.md R25). -/
def statusMask : Word := 0xF1

/-- STATUS.FAULT (10_state.md R25). -/
def State.faultBit (s : State) : Bool := s.status.getLsbD 0

/-- STATUS.CODE (10_state.md R25). -/
def State.faultField (s : State) : Nat := (s.status.extractLsb' 4 4).toNat

/-- The engine is halted exactly while STATUS.FAULT = 1 (60_exceptions.md R252). -/
abbrev State.halted (s : State) : Prop := s.faultBit = true

/-- FAULT_IRQ, a level equal to STATUS.FAULT at every moment (60_exceptions.md R256, log 11). -/
def State.faultIrq (s : State) : Bool := s.faultBit

end Sys2Proof.Machine
end

