-- ==== Sys2Proof/Machine/Ops.lean ====
section
/-! DEFINITION. The named operations over memories and registers: byte memories (20_memory.md R60, R61), register updates,
how a command's work is sequenced and stops (00_scope.md R13), fault entry (60_exceptions.md R251), the reset action
(70_reset_and_hazards.md R291, R292) and the frame every command runs in (30_encoding.md R95). -/

namespace Sys2Proof.Machine

/-! ### Byte memories -/

/-- The byte listed at an address, if there is one. -/
def Memory.lookup : Memory → Nat → Option Byte
  | [], _ => none
  | (k, v) :: m, a => if k = a then some v else Memory.lookup m a

/-- The memory with a byte stored at an address, its addresses still rising. -/
def Memory.write : Memory → Nat → Byte → Memory
  | [], a, b => [(a, b)]
  | (k, v) :: m, a, b =>
    if a < k then (a, b) :: (k, v) :: m
    else if a = k then (a, b) :: m
    else (k, v) :: Memory.write m a b

/-- The memory with bytes stored from an address up. -/
def Memory.writeList : Memory → Nat → List Byte → Memory
  | m, _, [] => m
  | m, a, b :: bs => Memory.writeList (Memory.write m a b) (a + 1) bs

/-- The canonical form: addresses strictly rising. An entry is a written byte; an unlisted address holds no written byte, so
no entry equals what an unlisted address holds (log 3). -/
abbrev Memory.wf (m : Memory) : Prop := m.Pairwise fun x y => x.1 < y.1

/-- A memory of the state. The three are disjoint (20_memory.md R79). -/
def State.mem (s : State) : Space → Memory
  | .inp => s.inMem
  | .buf => s.bufMem
  | .out => s.outMem

/-- The state with one memory replaced. -/
def State.setMem (s : State) : Space → Memory → State
  | .inp, m => { s with inMem := m }
  | .buf, m => { s with bufMem := m }
  | .out, m => { s with outMem := m }

/-- The byte a memory holds at an address: the byte last written there, or the power-on draw if none was written since
(70_reset_and_hazards.md R292, log 3). -/
def State.byteAt (s : State) (sp : Space) (addr : Nat) : Byte :=
  match Memory.lookup (s.mem sp) addr with
  | some b => b
  | none => Config.powerOnByte s.powerCycles sp addr

/-- The `n` bytes of a memory from an address up. -/
def State.bytesAt (s : State) (sp : Space) : Nat → Nat → List Byte
  | _, 0 => []
  | addr, n + 1 => s.byteAt sp addr :: State.bytesAt s sp (addr + 1) n

/-! ### Register updates -/

/-- STATUS and FINFO, which only fault entry and reset write (10_state.md R25, R26). -/
def State.setFault (s : State) (status finfo : Word) : State := { s with status := status, finfo := finfo }

/-- RCUR (10_state.md R32). -/
def State.setRcur (s : State) (v : Word) : State := { s with rcur := v }

/-- RESULT (10_state.md R27). -/
def State.setResult (s : State) (v : Word) : State := { s with result := v }

/-- MODE, RLEN and RCUR, as OPEN sets them (40_bitio.md R124). -/
def State.setReader (s : State) (mode rlen rcur : Word) : State := { s with mode := mode, rlen := rlen, rcur := rcur }

/-- WBITS, WACC, OUT_LEN and OUT_CAP: the writer's registers (40_bitio.md R121). -/
def State.setWriter (s : State) (wbits wacc outLen outCap : Word) : State :=
  { s with wbits := wbits, wacc := wacc, outLen := outLen, outCap := outCap }

/-- BUF_LEN (10_state.md R29). -/
def State.setBufLen (s : State) (v : Word) : State := { s with bufLen := v }

/-- DIGEST (10_state.md R38). -/
def State.setDigest (s : State) (d : Digest) : State := { s with digest := d }

/-- ARG0 (10_state.md R22). -/
def State.setArg0 (s : State) (v : Word) : State := { s with arg0 := v }

/-- ARG1 (10_state.md R22). -/
def State.setArg1 (s : State) (v : Word) : State := { s with arg1 := v }

/-- IN_LEN (10_state.md R28). -/
def State.setInLen (s : State) (v : Word) : State := { s with inLen := v }

/-- The inputs still to come. -/
def State.setPending (s : State) (l : List Input) : State := { s with pending := l }

/-- One more reply to the host. -/
def State.addReply (s : State) (r : Reply) : State := { s with replies := s.replies ++ [r] }

/-- The writer of a new instance: no bit written, capacity OUT_CAP0 (40_bitio.md R124). -/
def State.emptyWriter (s : State) : State := s.setWriter 0 0 0 (BitVec.ofNat 32 s.params.outCap0)

/-! ### The work of a command -/

/-- What a command's rule, or a primitive it calls, ends in. -/
inductive Run (α : Type) where
  /-- It ends with a value. -/
  | done (a : α) (s : State)
  /-- It reached `raise`: every write before it stays (00_scope.md R13, 60_exceptions.md R255). -/
  | raised (c : FaultCode) (s : State)
  /-- An engine access left its memory: the model's fault, in no reachable state (20_memory.md R61, log 8). -/
  | stray (sp : Space) (addr : Nat)
  deriving DecidableEq, Repr

/-- Go on with the value and the state, unless the work has stopped (00_scope.md R13: "A primitive that raises ends the
command that called it in the same way"). -/
def Run.bind {α β : Type} (r : Run α) (f : α → State → Run β) : Run β :=
  match r with
  | .done a s => f a s
  | .raised c s => .raised c s
  | .stray sp a => .stray sp a

/-- The engine reads one byte of a memory (20_memory.md R64). -/
def engineRead (sp : Space) (addr : Nat) (s : State) : Run Byte :=
  if addr < s.params.size sp then .done (s.byteAt sp addr) s else .stray sp addr

/-- The engine writes one byte of a memory. -/
def engineWrite (sp : Space) (addr : Nat) (b : Byte) (s : State) : Run Unit :=
  if addr < s.params.size sp then .done () (s.setMem sp (Memory.write (s.mem sp) addr b)) else .stray sp addr

/-- MemRead(space, addr, n) (00_scope.md R12). -/
def memRead (sp : Space) (addr n : Nat) (s : State) : Run (List Byte) :=
  if addr + n ≤ s.params.size sp then .done (s.bytesAt sp addr n) s else .stray sp addr

/-- MemWrite(space, addr, n, bytes), n the number of the bytes (00_scope.md R12). -/
def memWrite (sp : Space) (addr : Nat) (bytes : List Byte) (s : State) : Run Unit :=
  if addr + bytes.length ≤ s.params.size sp then .done () (s.setMem sp (Memory.writeList (s.mem sp) addr bytes))
  else .stray sp addr

/-! ### Fault entry and reset -/

/-- FaultEntry(F, w) (60_exceptions.md R251): STATUS <- 1 | (code(F) << 4), FINFO <- w. Nothing else is saved and control
goes nowhere; the engine is halted from here (R252). -/
def faultEntry (c : FaultCode) (w : Word) (s : State) : State := s.setFault c.status w

/-- Reset() (70_reset_and_hazards.md R291), the only way out of the halted state (60_exceptions.md R257). The memories are
unchanged (R292). -/
def resetAction (s : State) : State :=
  { s with
    status := 0, finfo := 0, arg0 := 0, arg1 := 0, result := 0, inLen := 0, bufLen := 0
    mode := 0, rlen := 0, rcur := 0
    wbits := 0, wacc := 0, outLen := 0, outCap := BitVec.ofNat 32 s.params.outCap0
    digest := Vector.replicate 32 0 }

/-- Power-on reset: the reset action, and every memory byte a fresh draw (70_reset_and_hazards.md R290, R292). -/
def powerOnAction (s : State) : State :=
  { resetAction s with inMem := [], bufMem := [], outMem := [], powerCycles := s.powerCycles + 1 }

/-! ### The frame of a command -/

/-- How a command performed for the word `w` ends: a raise is fault entry, a next state. -/
def finish (w : Word) (r : Run Unit) : Host.Outcome State Fault Refusal :=
  match r with
  | .done _ s => .next s
  | .raised c s => .next (faultEntry c w s)
  | .stray sp a => .fault (.outsideMemory sp a)

/-- A command other than RESET (30_encoding.md R95): no effect at all while halted (60_exceptions.md R252), else its rule. -/
def command (i : Instr) (rule : State → Run Unit) (s : State) : Host.Outcome State Fault Refusal :=
  if s.halted then .next s else finish (encode i) (rule s)

/-- A CMD write of a word that is no command (30_encoding.md R95, R96): IllegalCommand, or nothing while halted (R97). -/
def illegalCommand (w : Word) (s : State) : Host.Outcome State Fault Refusal :=
  if s.halted then .next s else .next (faultEntry .illegalCommand w s)

end Sys2Proof.Machine
end

