-- ==== Sys2Proof/Machine/Operands.lean ====
section
/-! DEFINITION. Operand assembly (30_encoding.md R98): every operand is implicit. ARG0 and ARG1 are read as they are; IN_LEN
and BUF_LEN are checked against their memory first (60_exceptions.md R250, R254); byte sequences are the first bytes of IN_MEM
and BUF_MEM; bits are numbered as 00_scope.md R8 and R9 number them. -/

namespace Sys2Proof.Machine

/-- The bit of a byte at a stream position, counted from the most significant bit (00_scope.md R9). -/
def streamBit (b : Byte) (p : Nat) : Bool := b.getLsbD (7 - p)

/-- msb(v), the largest i with v[i] = 1, for v > 0 (00_scope.md R8). -/
def msb (v : Word) : Nat := Nat.log2 v.toNat

/-- IN_LEN as the length of the input, CapacityExceeded when it is above IN_MAX (40_bitio.md R124). -/
def inputLength (s : State) : Run Nat :=
  if s.inLen.toNat > s.params.inMax then .raised .capacityExceeded s else .done s.inLen.toNat s

/-- BUF_LEN as the length of the staged bytes, CapacityExceeded when it is above BUF_MAX (10_state.md R29). -/
def stagedLength (s : State) : Run Nat :=
  if s.bufLen.toNat > s.params.bufMax then .raised .capacityExceeded s else .done s.bufLen.toNat s

/-- A byte sequence delivered as the result in BUF_MEM and BUF_LEN (30_encoding.md R98). -/
def deliverStaged (bytes : List Byte) (s : State) : Run Unit :=
  (memWrite .buf 0 bytes s).bind fun _ s => .done () (s.setBufLen (BitVec.ofNat 32 bytes.length))

end Sys2Proof.Machine
end

