-- ==== Sys2Proof/Machine/Hash.lean ====
section
/-! DEFINITION. The Hash Primitive, SHA-256 (41_hash.md R150 to R163), and the HASH command (R164). -/

namespace Sys2Proof.Machine

/-! ### Constants -/

/-- The first 64 primes (41_hash.md R151). -/
def primes : List Nat :=
  [2, 3, 5, 7, 11, 13, 17, 19, 23, 29, 31, 37, 41, 43, 47, 53] ++
  [59, 61, 67, 71, 73, 79, 83, 89, 97, 101, 103, 107, 109, 113, 127, 131] ++
  [137, 139, 149, 151, 157, 163, 167, 173, 179, 181, 191, 193, 197, 199, 211, 223] ++
  [227, 229, 233, 239, 241, 251, 257, 263, 269, 271, 277, 281, 283, 293, 307, 311]

/-- The constant ROM's round constants K[0..63] (41_hash.md R153, 10_state.md R42). -/
def roundConstants : List Word :=
  [0x428a2f98, 0x71374491, 0xb5c0fbcf, 0xe9b5dba5, 0x3956c25b, 0x59f111f1, 0x923f82a4, 0xab1c5ed5] ++
  [0xd807aa98, 0x12835b01, 0x243185be, 0x550c7dc3, 0x72be5d74, 0x80deb1fe, 0x9bdc06a7, 0xc19bf174] ++
  [0xe49b69c1, 0xefbe4786, 0x0fc19dc6, 0x240ca1cc, 0x2de92c6f, 0x4a7484aa, 0x5cb0a9dc, 0x76f988da] ++
  [0x983e5152, 0xa831c66d, 0xb00327c8, 0xbf597fc7, 0xc6e00bf3, 0xd5a79147, 0x06ca6351, 0x14292967] ++
  [0x27b70a85, 0x2e1b2138, 0x4d2c6dfc, 0x53380d13, 0x650a7354, 0x766a0abb, 0x81c2c92e, 0x92722c85] ++
  [0xa2bfe8a1, 0xa81a664b, 0xc24b8b70, 0xc76c51a3, 0xd192e819, 0xd6990624, 0xf40e3585, 0x106aa070] ++
  [0x19a4c116, 0x1e376c08, 0x2748774c, 0x34b0bcb5, 0x391c0cb3, 0x4ed8aa4a, 0x5b9cca4f, 0x682e6ff3] ++
  [0x748f82ee, 0x78a5636f, 0x84c87814, 0x8cc70208, 0x90befffa, 0xa4506ceb, 0xbef9a3f7, 0xc67178f2]

/-- Eight hash words: the intermediate hash H[0..7], and the working registers a to h (41_hash.md R159, R160). -/
structure HashWords where
  a : Word
  b : Word
  c : Word
  d : Word
  e : Word
  f : Word
  g : Word
  h : Word
  deriving DecidableEq, Repr

/-- The constant ROM's initial hash value H0[0..7] (41_hash.md R152, 10_state.md R42). -/
def initialHash : HashWords :=
  { a := 0x6a09e667, b := 0xbb67ae85, c := 0x3c6ef372, d := 0xa54ff53a
    e := 0x510e527f, f := 0x9b05688c, g := 0x1f83d9ab, h := 0x5be0cd19 }

/-- The eight words in order. -/
def HashWords.toList (v : HashWords) : List Word := [v.a, v.b, v.c, v.d, v.e, v.f, v.g, v.h]

/-! ### Functions -/

/-- Ch (41_hash.md R154). -/
def choice (x y z : Word) : Word := (x &&& y) ^^^ (~~~x &&& z)

/-- Maj (41_hash.md R154). -/
def majority (x y z : Word) : Word := (x &&& y) ^^^ (x &&& z) ^^^ (y &&& z)

/-- Sigma0 (41_hash.md R155). -/
def bigSigma0 (x : Word) : Word := x.rotateRight 2 ^^^ x.rotateRight 13 ^^^ x.rotateRight 22

/-- Sigma1 (41_hash.md R155). -/
def bigSigma1 (x : Word) : Word := x.rotateRight 6 ^^^ x.rotateRight 11 ^^^ x.rotateRight 25

/-- sigma0 (41_hash.md R155). -/
def smallSigma0 (x : Word) : Word := x.rotateRight 7 ^^^ x.rotateRight 18 ^^^ (x >>> 3)

/-- sigma1 (41_hash.md R155). -/
def smallSigma1 (x : Word) : Word := x.rotateRight 17 ^^^ x.rotateRight 19 ^^^ (x >>> 10)

/-! ### Padding and parsing -/

/-- BE32 (00_scope.md R11). -/
def be32 (x : Word) : List Byte := [x.extractLsb' 24 8, x.extractLsb' 16 8, x.extractLsb' 8 8, x.extractLsb' 0 8]

/-- BE64 (00_scope.md R11). -/
def be64 (x : BitVec 64) : List Byte := be32 (x.extractLsb' 32 32) ++ be32 (x.extractLsb' 0 32)

/-- The number of zero bytes of the padding of a message of `len` bytes: (55 - len) mod 64 (41_hash.md R156). -/
def padZeros (len : Nat) : Nat := (((55 : Int) - len) % 64).toNat

/-- Pad(m) (41_hash.md R156). -/
def padMessage (m : List Byte) : List Byte :=
  m ++ [0x80] ++ List.replicate (padZeros m.length) 0 ++ be64 (BitVec.ofNat 64 (8 * m.length))

/-- The big-endian words of a block (41_hash.md R157). -/
def wordsOf : List Byte → List Word
  | b0 :: b1 :: b2 :: b3 :: bs => (b0 ++ b1 ++ b2 ++ b3) :: wordsOf bs
  | _ => []

/-! ### Schedule and compression -/

/-- `n` further words of the message schedule, the words so far held latest first, so that W[t-1] is at 0
(41_hash.md R158). -/
def extendSchedule : Nat → List Word → List Word
  | 0, ws => ws
  | n + 1, ws =>
    extendSchedule n
      ((smallSigma1 (ws.getD 1 0) + ws.getD 6 0 + smallSigma0 (ws.getD 14 0) + ws.getD 15 0) :: ws)

/-- The schedule W[0..63] of a block of 64 bytes (41_hash.md R158). -/
def schedule (block : List Byte) : List Word := (extendSchedule 48 (wordsOf block).reverse).reverse

/-- Round t, with k = K[t] and w = W[t] (41_hash.md R159). -/
def hashRound (v : HashWords) (k w : Word) : HashWords :=
  let t1 := v.h + bigSigma1 v.e + choice v.e v.f v.g + k + w
  let t2 := bigSigma0 v.a + majority v.a v.b v.c
  { a := t1 + t2, b := v.a, c := v.b, d := v.c, e := v.d + t1, f := v.e, g := v.f, h := v.g }

/-- The rounds over lists of constants and schedule words. -/
def hashRounds : List Word → List Word → HashWords → HashWords
  | k :: ks, w :: ws, v => hashRounds ks ws (hashRound v k w)
  | _, _, v => v

/-- Compress(H, M(j)) (41_hash.md R160). -/
def compress (hv : HashWords) (block : List Byte) : HashWords :=
  let v := hashRounds roundConstants (schedule block) hv
  { a := hv.a + v.a, b := hv.b + v.b, c := hv.c + v.c, d := hv.d + v.d
    e := hv.e + v.e, f := hv.f + v.f, g := hv.g + v.g, h := hv.h + v.h }

/-- The compression of the first `n` blocks of 64 bytes (41_hash.md R157, R162). -/
def compressBlocks : Nat → HashWords → List Byte → HashWords
  | 0, hv, _ => hv
  | n + 1, hv, m => compressBlocks n (compress hv (m.take 64)) (m.drop 64)

/-- The final words, big-endian (41_hash.md R161). -/
def HashWords.serialize (v : HashWords) : Digest :=
  ⟨⟨be32 v.a ++ be32 v.b ++ be32 v.c ++ be32 v.d ++ be32 v.e ++ be32 v.f ++ be32 v.g ++ be32 v.h⟩, rfl⟩

/-- SHA256(m) (41_hash.md R162); pure (R163). -/
def sha256 (m : List Byte) : Digest :=
  let p := padMessage m
  (compressBlocks (p.length / 64) initialHash p).serialize

/-! ### Command -/

/-- HASH(w) (41_hash.md R164). -/
def hashRule (s : State) : Run Unit :=
  (stagedLength s).bind fun n s =>
  (memRead .buf 0 n s).bind fun m s =>
  .done () (s.setDigest (sha256 m))

/-- HASH: the digest of the staged bytes (41_hash.md R164). -/
def execHash (s : State) : Host.Outcome State Fault Refusal := command .hash hashRule s

end Sys2Proof.Machine
end

