-- ==== Sys2Proof/Machine/Framing.lean ====
section
/-! DEFINITION. Checksum framing: the keystream, Lock and Unlock (42_framing.md R190 to R192), and the LOCK and UNLOCK commands
(R193, R194). -/

namespace Sys2Proof.Machine

/-- The first `n` blocks of the chained keystream: `blk`, then the hash of the block before (42_framing.md R190). -/
def keyBlocks : Nat → List Byte → List Byte
  | 0, _ => []
  | n + 1, blk => blk ++ keyBlocks n (sha256 blk).toList

/-- KeyStream(cs, n), the first n bytes of the chained keystream started from the 32 bytes cs (42_framing.md R190). -/
def keyStream (cs : List Byte) (n : Nat) : List Byte := (keyBlocks ((n + 31) / 32) cs).take n

/-- The bytewise exclusive or of two byte sequences (00_scope.md R11). -/
def xorBytes (s t : List Byte) : List Byte := List.zipWith (· ^^^ ·) s t

/-- Lock(p) (42_framing.md R191). -/
def lockBytes (p : List Byte) : List Byte :=
  xorBytes p (keyStream (sha256 p).toList p.length) ++ (sha256 p).toList

/-- The status Unlock returns (42_framing.md R192). -/
inductive UnlockStatus where
  /-- OK: the recomputed digest is the trailing one. -/
  | ok
  /-- BADFORMAT: fewer than 32 bytes. -/
  | badFormat
  /-- BADSUM: the digests differ; the bytes are the unverified candidate. -/
  | badSum
  deriving DecidableEq, Repr

/-- The digest that Unlock splits off: the last 32 bytes (42_framing.md R192). -/
def trailingDigest (c : List Byte) : List Byte := c.drop (c.length - 32)

/-- The bytes that Unlock recovers from all but the last 32 (42_framing.md R192). -/
def unlockCandidate (c : List Byte) : List Byte :=
  xorBytes (c.take (c.length - 32)) (keyStream (trailingDigest c) (c.length - 32))

/-- Unlock(c) (42_framing.md R192). -/
def unlockBytes (c : List Byte) : UnlockStatus × List Byte :=
  if c.length < 32 then (.badFormat, [])
  else if (sha256 (unlockCandidate c)).toList = trailingDigest c then (.ok, unlockCandidate c)
  else (.badSum, unlockCandidate c)

/-- Unwrapping the first `n` bytes of a memory in place, as OPEN and UNLOCK do: InvalidFormat below 32 bytes; the recovered
bytes are written, and stay there also on IntegrityError; the value is the plaintext's length
(40_bitio.md R124, 42_framing.md R194). -/
def unwrapInPlace (sp : Space) (n : Nat) (s : State) : Run Nat :=
  if n < 32 then .raised .invalidFormat s
  else
    (memRead sp 0 n s).bind fun c s =>
    (memWrite sp 0 (unlockBytes c).2 s).bind fun _ s =>
    if (unlockBytes c).1 = .badSum then .raised .integrityError s else .done (n - 32) s

/-- LOCK(w) (42_framing.md R193). The sum BUF_LEN + 32 is exact (00_scope.md R15). -/
def lockRule (s : State) : Run Unit :=
  if s.bufLen.toNat + 32 > s.params.bufMax then .raised .capacityExceeded s
  else
    (memRead .buf 0 s.bufLen.toNat s).bind fun p s =>
    deliverStaged (lockBytes p) s

/-- UNLOCK(w) (42_framing.md R194). -/
def unlockRule (s : State) : Run Unit :=
  (stagedLength s).bind fun n s =>
  (unwrapInPlace .buf n s).bind fun len s =>
  .done () (s.setBufLen (BitVec.ofNat 32 len))

/-- LOCK: wrap the staged bytes in place (42_framing.md R193). -/
def execLock (s : State) : Host.Outcome State Fault Refusal := command .lock lockRule s

/-- UNLOCK: verify and unwrap the staged bytes in place (42_framing.md R194). -/
def execUnlock (s : State) : Host.Outcome State Fault Refusal := command .unlock unlockRule s

end Sys2Proof.Machine
end

