-- ==== Sys2Proof/Machine/Bitio.lean ====
section
/-! DEFINITION. Bit Cursor I/O: ReadBit, WriteBit, Materialize and TrimZeros (40_bitio.md R120 to R123), and the commands
OPEN, SEEK, WRBIT, RDBIT and GETOUT (R124 to R128). -/

namespace Sys2Proof.Machine

/-! ### Primitives -/

/-- MODE[0] = 1: strided read addressing (10_state.md R30). -/
def State.strided (s : State) : Bool := s.mode.getLsbD 0

/-- The cursor from which the input is exhausted: 8 × RLEN dense, 16 × RLEN strided (40_bitio.md R120). -/
def readLimit (s : State) : Nat := if s.strided then 16 * s.rlen.toNat else 8 * s.rlen.toNat

/-- ReadBit() (40_bitio.md R120). The exhaustion test comes first; an exhausted read returns 0 and leaves RCUR. -/
def readBit (s : State) : Run Bool :=
  let c := s.rcur
  if readLimit s ≤ c.toNat then .done false s
  else if s.strided = false then
    (engineRead .inp (c.toNat / 8) s).bind fun b s => .done (streamBit b (c.toNat % 8)) (s.setRcur (c + 1))
  else if c.getLsbD 0 = false then .done true (s.setRcur (c + 2))
  else
    (engineRead .inp (c.toNat / 16) s).bind fun b s =>
    .done (streamBit b (c.toNat / 2 % 8)) (s.setRcur (c + 2))

/-- A bit as a word. -/
def bitWord (b : Bool) : Word := if b then 1 else 0

/-- WACC with one more bit: ((WACC << 1) | b) mod 2^8 (40_bitio.md R121). -/
def accumulate (acc : Word) (b : Bool) : Word := ((acc <<< 1) ||| bitWord b) % 256

/-- OUT_CAP when a byte completes: doubled, clamped to OUT_MAX, if the buffer is full (40_bitio.md R121). -/
def grownCap (s : State) : Word :=
  if s.outLen = s.outCap then BitVec.ofNat 32 (min (2 * s.outCap.toNat) s.params.outMax) else s.outCap

/-- WriteBit(b) (40_bitio.md R121). -/
def writeBit (b : Bool) (s : State) : Run Unit :=
  if s.wbits.toNat % 8 = 7 ∧ s.outLen.toNat = s.params.outMax then .raised .capacityExceeded s
  else
    let acc := accumulate s.wacc b
    let n := s.wbits + 1
    if n.toNat % 8 = 0 then
      (engineWrite .out s.outLen.toNat (acc.setWidth 8) s).bind fun _ t =>
      .done () (t.setWriter n 0 (s.outLen + 1) (grownCap s))
    else .done () (s.setWriter n acc s.outLen s.outCap)

/-- WriteBit of each bit in turn; the bits before a faulting one stay written (00_scope.md R13). -/
def writeBits : List Bool → State → Run Unit
  | [], s => .done () s
  | b :: bs, s => (writeBit b s).bind fun _ s => writeBits bs s

/-- The partial byte: the WBITS mod 8 bits of WACC, zero-padded in its low bits (40_bitio.md R122). -/
def partialByte (s : State) : List Byte :=
  if s.wbits.toNat % 8 = 0 then [] else [(s.wacc <<< (8 - s.wbits.toNat % 8)).setWidth 8]

/-- Materialize(): the written bits as whole bytes (40_bitio.md R122). -/
def materialize (s : State) : Run (List Byte) :=
  (memRead .out 0 s.outLen.toNat s).bind fun bytes s => .done (bytes ++ partialByte s) s

/-- TrimZeros(s): every trailing zero byte dropped (40_bitio.md R123). -/
def trimZeros (bytes : List Byte) : List Byte := (bytes.reverse.dropWhile (· == 0)).reverse

/-! ### Commands -/

/-- OPEN(w) (40_bitio.md R124), STRIDED = w[8], UNLOCK = w[9]. -/
def openRule (strided unwrap : Bool) (s : State) : Run Unit :=
  (inputLength s).bind fun n s =>
  (if unwrap then unwrapInPlace .inp n s else .done n s).bind fun len s =>
  .done () (s.setReader (bitWord strided) (BitVec.ofNat 32 len) (bitWord strided)).emptyWriter

/-- SEEK (40_bitio.md R125): RCUR <- ARG0. -/
def seekRule (s : State) : Run Unit := .done () (s.setRcur s.arg0)

/-- WRBIT(w) (40_bitio.md R126). -/
def wrbitRule (s : State) : Run Unit :=
  if s.arg0.toNat > 1 then .raised .contractViolation s else writeBit (s.arg0.getLsbD 0) s

/-- RDBIT (40_bitio.md R127): RESULT <- ReadBit(). -/
def rdbitRule (s : State) : Run Unit := (readBit s).bind fun b s => .done () (s.setResult (bitWord b))

/-- The bytes GETOUT delivers: trimmed if TRIMZ, then wrapped if LOCK (40_bitio.md R128). -/
def outputBytes (trimz wrap : Bool) (bytes : List Byte) : List Byte :=
  let t := if trimz then trimZeros bytes else bytes
  if wrap then lockBytes t else t

/-- GETOUT(w) (40_bitio.md R128), TRIMZ = w[8], LOCK = w[9]. The capacity check is made on the final length, before anything
is written; Lock(s) has the 32 bytes of the digest more than s. -/
def getoutRule (trimz wrap : Bool) (s : State) : Run Unit :=
  (materialize s).bind fun bytes s =>
  if (if trimz then trimZeros bytes else bytes).length + (if wrap then 32 else 0) > s.params.bufMax then
    .raised .capacityExceeded s
  else deliverStaged (outputBytes trimz wrap bytes) s

/-- OPEN: construct an I/O instance over the input (40_bitio.md R124). -/
def execOpenIo (strided unwrap : Bool) (s : State) : Host.Outcome State Fault Refusal :=
  command (.openIo strided unwrap) (openRule strided unwrap) s

/-- SEEK: set the read cursor (40_bitio.md R125). -/
def execSeek (s : State) : Host.Outcome State Fault Refusal := command .seek seekRule s

/-- WRBIT: write one bit (40_bitio.md R126). -/
def execWrbit (s : State) : Host.Outcome State Fault Refusal := command .wrbit wrbitRule s

/-- RDBIT: read one bit (40_bitio.md R127). -/
def execRdbit (s : State) : Host.Outcome State Fault Refusal := command .rdbit rdbitRule s

/-- GETOUT: materialize the output into BUF_MEM (40_bitio.md R128). -/
def execGetout (trimz wrap : Bool) (s : State) : Host.Outcome State Fault Refusal :=
  command (.getout trimz wrap) (getoutRule trimz wrap) s

end Sys2Proof.Machine
end

