-- ==== Sys2Proof/Machine/Codec.lean ====
section
/-! DEFINITION. The variable-width codec: the bounded, unbounded and length-prefixed codes (43_codec.md R210 to R217), and the
commands ENCB, DECB, ENCU, DECU, ENCBUF and DECBUF (R218 to R223). An encoder is the list of the bits its pseudocode writes, in
order, and `writeBits` writes them one by one (log 9). -/

namespace Sys2Proof.Machine

/-! ### Bounded code -/

/-- Whether the scan is still tied after position `i`: an emitted 0 where `max` has 1 clears `tied`
(43_codec.md R211, R212; 90_conflicts.md C2). -/
def stillTied (tied : Bool) (max : Word) (i : Nat) (bit : Bool) : Bool := tied && !(max.getLsbD i && !bit)

/-- The bits EncBounded writes at positions `n - 1` down to 0 (43_codec.md R211). -/
def boundedBitsFrom (num max : Word) : Nat → Bool → List Bool
  | 0, _ => []
  | i + 1, tied =>
    if tied = false ∨ max.getLsbD i = true then
      num.getLsbD i :: boundedBitsFrom num max i (stillTied tied max i (num.getLsbD i))
    else boundedBitsFrom num max i tied

/-- EncBounded(num, max): the bits of the bounded code (43_codec.md R211). -/
def boundedBits (num max : Word) : List Bool :=
  if max = 0 then [] else boundedBitsFrom num max (msb max + 1) true

/-- DecBounded at positions `n - 1` down to 0, with the bits so far in `v` (43_codec.md R212). -/
def decBoundedFrom (max : Word) : Nat → Bool → Word → State → Run Word
  | 0, _, v, s => .done v s
  | i + 1, tied, v, s =>
    if tied = false ∨ max.getLsbD i = true then
      (readBit s).bind fun b s => decBoundedFrom max i (stillTied tied max i b) (v ||| (bitWord b <<< i)) s
    else decBoundedFrom max i tied v s

/-- DecBounded(max) (43_codec.md R212). -/
def decBounded (max : Word) (s : State) : Run Word :=
  if max = 0 then .done 0 s else decBoundedFrom max (msb max + 1) true 0 s

/-! ### Unbounded code -/

/-- The pairs EncUnbounded writes for the `k` bits below the leading 1 of `m`, lowest first (43_codec.md R215). -/
def unboundedPairs : Nat → Nat → List Bool
  | 0, _ => []
  | k + 1, m => true :: (m % 2 == 1) :: unboundedPairs k (m / 2)

/-- EncUnbounded(n): the bits of the unbounded code. The loop "while m != 1" runs msb(n + 1) times (43_codec.md R215,
R217). -/
def unboundedBits (n : Nat) : List Bool := unboundedPairs (Nat.log2 (n + 1)) (n + 1) ++ [false]

/-- The loop of DecUnbounded with room for `room` more payload bits, `k` read so far with value `v`; it returns (v, k)
(43_codec.md R216; v < 2^k, so `v | (b << k)` is a sum). A continuation bit 1 with no room left is the 32nd:
DecodeOverflow. -/
def decUnboundedLoop : Nat → Nat → Nat → State → Run (Nat × Nat)
  | room, v, k, s =>
    (readBit s).bind fun c s =>
    if c = false then .done (v, k) s
    else
      match room with
      | 0 => .raised .decodeOverflow s
      | room + 1 => (readBit s).bind fun b s => decUnboundedLoop room (v + b.toNat * 2 ^ k) (k + 1) s

/-- DecUnbounded() (43_codec.md R216). -/
def decUnbounded (s : State) : Run Nat :=
  (decUnboundedLoop 31 0 0 s).bind fun vk s =>
  if vk.1 + 2 ^ vk.2 - 1 > 2 ^ 31 - 1 then .raised .decodeOverflow s else .done (vk.1 + 2 ^ vk.2 - 1) s

/-! ### Length-prefixed code -/

/-- The bits ENCBUF writes: the length in the unbounded code, then each byte in the bounded code with max = 255
(43_codec.md R222). -/
def bufferBits (bytes : List Byte) : List Bool :=
  unboundedBits bytes.length ++ bytes.flatMap fun b => boundedBits (b.setWidth 32) 255

/-- DECBUF's loop: `n` bytes, each DecBounded(255), into BUF from address `i` (43_codec.md R223). -/
def decBytes : Nat → Nat → State → Run Unit
  | 0, _, s => .done () s
  | n + 1, i, s =>
    (decBounded 255 s).bind fun v s =>
    (engineWrite .buf i (v.setWidth 8) s).bind fun _ s =>
    decBytes n (i + 1) s

/-! ### Commands -/

/-- ENCB(w) (43_codec.md R218). -/
def encbRule (s : State) : Run Unit :=
  if s.arg0.toNat > s.arg1.toNat then .raised .contractViolation s else writeBits (boundedBits s.arg0 s.arg1) s

/-- DECB (43_codec.md R219): RESULT <- DecBounded(ARG1). -/
def decbRule (s : State) : Run Unit := (decBounded s.arg1 s).bind fun v s => .done () (s.setResult v)

/-- ENCU(w) (43_codec.md R220). -/
def encuRule (s : State) : Run Unit :=
  if s.arg0.toNat > 0x7FFFFFFF then .raised .contractViolation s else writeBits (unboundedBits s.arg0.toNat) s

/-- DECU (43_codec.md R221): RESULT <- DecUnbounded(). -/
def decuRule (s : State) : Run Unit :=
  (decUnbounded s).bind fun n s => .done () (s.setResult (BitVec.ofNat 32 n))

/-- ENCBUF(w) (43_codec.md R222). -/
def encbufRule (s : State) : Run Unit :=
  (stagedLength s).bind fun n s =>
  (memRead .buf 0 n s).bind fun bytes s =>
  writeBits (bufferBits bytes) s

/-- DECBUF(w) (43_codec.md R223). -/
def decbufRule (s : State) : Run Unit :=
  (decUnbounded s).bind fun n s =>
  if n > s.params.bufMax then .raised .capacityExceeded s
  else
    (decBytes n 0 s).bind fun _ s =>
    .done () ((s.setBufLen (BitVec.ofNat 32 n)).setResult (BitVec.ofNat 32 n))

/-- ENCB: write the bounded code of ARG0 with bound ARG1 (43_codec.md R218). -/
def execEncb (s : State) : Host.Outcome State Fault Refusal := command .encb encbRule s

/-- DECB: read a bounded code with bound ARG1 (43_codec.md R219). -/
def execDecb (s : State) : Host.Outcome State Fault Refusal := command .decb decbRule s

/-- ENCU: write the unbounded code of ARG0 (43_codec.md R220). -/
def execEncu (s : State) : Host.Outcome State Fault Refusal := command .encu encuRule s

/-- DECU: read an unbounded code (43_codec.md R221). -/
def execDecu (s : State) : Host.Outcome State Fault Refusal := command .decu decuRule s

/-- ENCBUF: write the length-prefixed code of the staged bytes (43_codec.md R222). -/
def execEncbuf (s : State) : Host.Outcome State Fault Refusal := command .encbuf encbufRule s

/-- DECBUF: read a length-prefixed code into BUF_MEM (43_codec.md R223). -/
def execDecbuf (s : State) : Host.Outcome State Fault Refusal := command .decbuf decbufRule s

end Sys2Proof.Machine
end

