-- ==== Sys2Proof/Machine/Control.lean ====
section
/-! DEFINITION. The control commands NOP and RESET (45_control.md R240, R241). -/

namespace Sys2Proof.Machine

/-- NOP: no state changes (45_control.md R240). -/
def execNop (s : State) : Host.Outcome State Fault Refusal := command .nop (fun s => .done () s) s

/-- RESET: the reset action, the one command with an effect while halted (45_control.md R241, 30_encoding.md R95). -/
def execReset (s : State) : Host.Outcome State Fault Refusal := .next (resetAction s)

end Sys2Proof.Machine
end

