-- ==== Sys2Proof/Machine/Dispatch.lean ====
section
/-! DEFINITION. The dispatch of a command to its meaning, one arm per constructor of Instr (30_encoding.md R94, R95). -/

namespace Sys2Proof.Machine

/-- The effect of a CMD write of a command's word, in any state (30_encoding.md R95). -/
def exec (i : Instr) (s : State) : Host.Outcome State Fault Refusal :=
  match i with
  | .nop => Sys2Proof.Machine.execNop s
  | .reset => Sys2Proof.Machine.execReset s
  | .openIo strided unwrap => Sys2Proof.Machine.execOpenIo strided unwrap s
  | .seek => Sys2Proof.Machine.execSeek s
  | .wrbit => Sys2Proof.Machine.execWrbit s
  | .rdbit => Sys2Proof.Machine.execRdbit s
  | .encb => Sys2Proof.Machine.execEncb s
  | .decb => Sys2Proof.Machine.execDecb s
  | .encu => Sys2Proof.Machine.execEncu s
  | .decu => Sys2Proof.Machine.execDecu s
  | .encbuf => Sys2Proof.Machine.execEncbuf s
  | .decbuf => Sys2Proof.Machine.execDecbuf s
  | .getout trimz wrap => Sys2Proof.Machine.execGetout trimz wrap s
  | .hash => Sys2Proof.Machine.execHash s
  | .lock => Sys2Proof.Machine.execLock s
  | .unlock => Sys2Proof.Machine.execUnlock s

end Sys2Proof.Machine
end

