-- ==== Sys2Proof/Machine/Bus.lean ====
section
/-! DEFINITION. The host's side of the block: the address map (20_memory.md R62), host accesses and their refusals (R63, R64,
R71; 10_state.md R48), a CMD write (30_encoding.md R95), and the inputs of the model. -/

namespace Sys2Proof.Machine

/-- The 32-bit registers (20_memory.md R62). -/
inductive Reg where
  | cmd
  | status
  | finfo
  | arg0
  | arg1
  | result
  | inLen
  | bufLen
  | mode
  | rlen
  | rcur
  | wbits
  | wacc
  | outLen
  | outCap
  | id
  deriving DecidableEq, Repr

/-- What stands at a host address. -/
inductive Location where
  /-- A 32-bit register, at its address. -/
  | reg (r : Reg)
  /-- A byte of a register other than its first: no 32-bit access is at it. -/
  | insideReg
  /-- A byte of DIGEST. -/
  | digestByte (j : Fin 32)
  /-- A byte of a memory window. -/
  | memByte (sp : Space) (a : Nat)
  deriving DecidableEq, Repr

/-- The register at an offset (20_memory.md R62). -/
def regAt (off : Nat) : Option Reg :=
  match off with
  | 0x00 => some .cmd
  | 0x04 => some .status
  | 0x08 => some .finfo
  | 0x0C => some .arg0
  | 0x10 => some .arg1
  | 0x14 => some .result
  | 0x18 => some .inLen
  | 0x1C => some .bufLen
  | 0x20 => some .mode
  | 0x24 => some .rlen
  | 0x28 => some .rcur
  | 0x2C => some .wbits
  | 0x30 => some .wacc
  | 0x34 => some .outLen
  | 0x38 => some .outCap
  | 0x3C => some .id
  | _ => none

/-- The base of a memory's window in the host address map (20_memory.md R62). -/
def windowBase : Space → Nat
  | .inp => 0x10000000
  | .buf => 0x20000000
  | .out => 0x30000000

/-- The byte of a memory's window at an offset, if the offset is inside the window. -/
def windowAt (p : Params) (sp : Space) (off : Nat) : Option Location :=
  if windowBase sp ≤ off ∧ off < windowBase sp + p.size sp then some (.memByte sp (off - windowBase sp)) else none

/-- What stands at an offset from OMK_BASE (20_memory.md R62); nothing, if the offset is unmapped. -/
def locationAt (p : Params) (off : Nat) : Option Location :=
  if off < 0x40 then
    match regAt off with
    | some r => some (.reg r)
    | none => some .insideReg
  else if h : off - 0x40 < 32 then some (.digestByte ⟨off - 0x40, h⟩)
  else ((windowAt p .inp off).or (windowAt p .buf off)).or (windowAt p .out off)

/-- What stands at a host address: the map of 20_memory.md R62, each of its addresses OMK_BASE higher (log 2). DESIGN CHOICE
(log 19): OMK_BASE need not be a multiple of 4, and the alignment of a 32-bit access (R64) is judged by the offset from
OMK_BASE. -/
def locate (p : Params) (addr : Word) : Option Location :=
  if p.base.toNat ≤ addr.toNat then locationAt p (addr.toNat - p.base.toNat) else none

/-- A 32-bit register as a host read gives it: CMD reads 0 (10_state.md R24), ID is constant (R35), and the reserved bits of
STATUS, MODE and WACC read 0 (R25, R30, R34; log 14). -/
def readReg (s : State) : Reg → Word
  | .cmd => 0
  | .status => s.status &&& statusMask
  | .finfo => s.finfo
  | .arg0 => s.arg0
  | .arg1 => s.arg1
  | .result => s.result
  | .inLen => s.inLen
  | .bufLen => s.bufLen
  | .mode => s.mode &&& 1
  | .rlen => s.rlen
  | .rcur => s.rcur
  | .wbits => s.wbits
  | .wacc => s.wacc &&& 0xFF
  | .outLen => s.outLen
  | .outCap => s.outCap
  | .id => Config.idWord

/-- A CMD write of a word (30_encoding.md R95): the command it is, or IllegalCommand. -/
def performWord (w : Word) (s : State) : Host.Outcome State Fault Refusal :=
  match decode w with
  | .ok i => exec i s
  | .error _ => illegalCommand w s

/-- A host write to a 32-bit register: CMD performs a command, ARG0, ARG1, IN_LEN and BUF_LEN hold the word, and a read-only
register ignores it (20_memory.md R71, 10_state.md R48). -/
def writeReg (r : Reg) (w : Word) (s : State) : Host.Outcome State Fault Refusal :=
  match r with
  | .cmd => performWord w s
  | .arg0 => .next (s.setArg0 w)
  | .arg1 => .next (s.setArg1 w)
  | .inLen => .next (s.setInLen w)
  | .bufLen => .next (s.setBufLen w)
  | .status | .finfo | .result | .mode | .rlen | .rcur | .wbits | .wacc | .outLen | .outCap | .id => .next s

/-- A 32-bit host write (30_encoding.md R100, 20_memory.md R63, R64). -/
def hostWrite32 (addr w : Word) (s : State) : Host.Outcome State Fault Refusal :=
  match locate s.params addr with
  | some (.reg r) => writeReg r w s
  | some .insideReg => .refused (.misalignedAccess addr)
  | some (.digestByte _) => .refused (.wrongWidth addr)
  | some (.memByte _ _) => .refused (.wrongWidth addr)
  | none => .refused (.unmappedAddress addr)

/-- A 32-bit host read; no side effect on the block (20_memory.md R71). -/
def hostRead32 (addr : Word) (s : State) : Host.Outcome State Fault Refusal :=
  match locate s.params addr with
  | some (.reg r) => .next (s.addReply (.word (readReg s r)))
  | some .insideReg => .refused (.misalignedAccess addr)
  | some (.digestByte _) => .refused (.wrongWidth addr)
  | some (.memByte _ _) => .refused (.wrongWidth addr)
  | none => .refused (.unmappedAddress addr)

/-- An 8-bit host write: a byte of IN_MEM or BUF_MEM is stored; DIGEST and OUT_MEM ignore it (10_state.md R48). -/
def hostWrite8 (addr : Word) (b : Byte) (s : State) : Host.Outcome State Fault Refusal :=
  match locate s.params addr with
  | some (.memByte .inp a) => .next (s.setMem .inp (Memory.write s.inMem a b))
  | some (.memByte .buf a) => .next (s.setMem .buf (Memory.write s.bufMem a b))
  | some (.memByte .out _) => .next s
  | some (.digestByte _) => .next s
  | some (.reg _) => .refused (.wrongWidth addr)
  | some .insideReg => .refused (.wrongWidth addr)
  | none => .refused (.unmappedAddress addr)

/-- An 8-bit host read; no side effect on the block (20_memory.md R71). -/
def hostRead8 (addr : Word) (s : State) : Host.Outcome State Fault Refusal :=
  match locate s.params addr with
  | some (.memByte sp a) => .next (s.addReply (.byte (s.byteAt sp a)))
  | some (.digestByte j) => .next (s.addReply (.byte s.digest[j]))
  | some (.reg _) => .refused (.wrongWidth addr)
  | some .insideReg => .refused (.wrongWidth addr)
  | none => .refused (.unmappedAddress addr)

/-- One access of the host (30_encoding.md R100). -/
def hostAccess (op : HostOp) (s : State) : Host.Outcome State Fault Refusal :=
  match op with
  | .write32 addr w => hostWrite32 addr w s
  | .read32 addr => hostRead32 addr s
  | .write8 addr b => hostWrite8 addr b s
  | .read8 addr => hostRead8 addr s

/-- One input of the model: a host access, or power-on reset (70_reset_and_hazards.md R290). -/
def performInput (x : Input) (s : State) : Host.Outcome State Fault Refusal :=
  match x with
  | .access op => hostAccess op s
  | .powerOnReset => .next (powerOnAction s)

/-- One step of the model: the next pending input is performed; with none pending the block is idle, and idle changes nothing
(60_exceptions.md R265, log 16). -/
def performNext (s : State) : Host.Outcome State Fault Refusal :=
  match s.pending with
  | [] => .next s
  | x :: rest => performInput x (s.setPending rest)

/-- The host's access that writes a word to CMD (30_encoding.md R100). -/
def cmdWrite (p : Params) (w : Word) : Input := .access (.write32 p.base w)

end Sys2Proof.Machine
end

