-- ==== Sys2Proof/Machine/Step.lean ====
section
/-! DEFINITION. One step of the model, and the placing of a command where the next step performs it. -/

namespace Sys2Proof.Machine

/-- One step: the next pending input, performed (00_scope.md R3, R4; 70_reset_and_hazards.md R301). -/
def step (s : State) : Host.Outcome State Fault Refusal := performNext s

/-- The state with the CMD write of a word of `nbits` bits as the next input (log 5). -/
def State.withFetchWord (s : State) (nbits w : Nat) : State :=
  s.setPending (cmdWrite s.params (BitVec.ofNat 32 (w % 2 ^ nbits)) :: s.pending)

end Sys2Proof.Machine
end

