-- ==== Sys2Proof/Machine/HostProgram.lean ====
section
/-! DEFINITION. Host programs (30_encoding.md R100 to R102): the operations of the host assembly and the pseudo-instructions, as
the inputs they stand for, and the assembler that reads their written form (log 18). -/

namespace Sys2Proof.Machine

/-- The offset of a 32-bit register (20_memory.md R62). -/
def Reg.offset : Reg → Word
  | .cmd => 0x00
  | .status => 0x04
  | .finfo => 0x08
  | .arg0 => 0x0C
  | .arg1 => 0x10
  | .result => 0x14
  | .inLen => 0x18
  | .bufLen => 0x1C
  | .mode => 0x20
  | .rlen => 0x24
  | .rcur => 0x28
  | .wbits => 0x2C
  | .wacc => 0x30
  | .outLen => 0x34
  | .outCap => 0x38
  | .id => 0x3C

/-- `wr REG, value` (30_encoding.md R101). -/
def opWr (base : Word) (r : Reg) (v : Word) : Input := .access (.write32 (base + r.offset) v)

/-- `rd REG` (30_encoding.md R101). -/
def opRd (base : Word) (r : Reg) : Input := .access (.read32 (base + r.offset))

/-- `wrb MEM[a], byte` (30_encoding.md R101). -/
def opWrb (base : Word) (sp : Space) (a : Nat) (b : Byte) : Input :=
  .access (.write8 (base + BitVec.ofNat 32 (windowBase sp + a)) b)

/-- `rdb MEM[a]` (30_encoding.md R101). -/
def opRdb (base : Word) (sp : Space) (a : Nat) : Input :=
  .access (.read8 (base + BitVec.ofNat 32 (windowBase sp + a)))

/-- `rdb DIGEST[j]` (30_encoding.md R101). -/
def opRdbDigest (base : Word) (j : Nat) : Input := .access (.read8 (base + BitVec.ofNat 32 (0x40 + j)))

/-- `cmd MNEMONIC[.flag]...` (30_encoding.md R101). -/
def opCmd (base : Word) (i : Instr) : Input := .access (.write32 (base + Reg.offset .cmd) (encode i))

/-- Bytes written to a memory from an address up, one 8-bit write each. -/
def opWrbAll (base : Word) (sp : Space) : Nat → List Byte → List Input
  | _, [] => []
  | a, b :: bs => opWrb base sp a b :: opWrbAll base sp (a + 1) bs

/-- The pseudo-instructions (30_encoding.md R102). `copybuf` is given the bytes its reads return, since the host sees them. -/
inductive Pseudo where
  | wbit (b : Word)
  | rbit
  | seek (c : Word)
  | encb (num max : Word)
  | decb (max : Word)
  | encu (n : Word)
  | decu
  | encstr
  | decstr
  | loadIn (bytes : List Byte)
  | loadBuf (bytes : List Byte)
  | copybuf (bytes : List Byte)
  | check
  deriving DecidableEq, Repr

/-- The reads and writes of `copybuf`: for each byte, `rdb BUF[i]` and `wrb IN[i], b`. -/
def copyBytes (base : Word) : Nat → List Byte → List Input
  | _, [] => []
  | i, b :: bs => opRdb base .buf i :: opWrb base .inp i b :: copyBytes base (i + 1) bs

/-- The expansion of a pseudo-instruction (30_encoding.md R102). -/
def Pseudo.expand (base : Word) : Pseudo → List Input
  | .wbit b => [opWr base .arg0 b, opCmd base .wrbit]
  | .rbit => [opCmd base .rdbit]
  | .seek c => [opWr base .arg0 c, opCmd base .seek]
  | .encb num max => [opWr base .arg0 num, opWr base .arg1 max, opCmd base .encb]
  | .decb max => [opWr base .arg1 max, opCmd base .decb]
  | .encu n => [opWr base .arg0 n, opCmd base .encu]
  | .decu => [opCmd base .decu]
  | .encstr => [opCmd base .encbuf]
  | .decstr => [opCmd base .decbuf]
  | .loadIn bytes => opWrbAll base .inp 0 bytes ++ [opWr base .inLen (BitVec.ofNat 32 bytes.length)]
  | .loadBuf bytes => opWrbAll base .buf 0 bytes ++ [opWr base .bufLen (BitVec.ofNat 32 bytes.length)]
  | .copybuf bytes =>
    opRd base .bufLen :: copyBytes base 0 bytes ++ [opWr base .inLen (BitVec.ofNat 32 bytes.length)]
  | .check => [opRd base .status]

/-! ### The written form (30_encoding.md R101) -/

/-- The words of a line: blanks and commas part them, and a semicolon starts a comment. The word begun is held backwards. -/
def lineWords : List Char → List Char → List (List Char)
  | [], w => if w = [] then [] else [w.reverse]
  | c :: cs, w =>
    if c = ';' then (if w = [] then [] else [w.reverse])
    else if c = ' ' ∨ c = '\t' ∨ c = ',' then (if w = [] then lineWords cs [] else w.reverse :: lineWords cs [])
    else lineWords cs (c :: w)

/-- The value of a digit, if it is one in the given base. -/
def digitValue (radix : Nat) (c : Char) : Option Nat :=
  let n := c.toNat
  let v :=
    if 48 ≤ n ∧ n ≤ 57 then n - 48
    else if 97 ≤ n ∧ n ≤ 102 then n - 87
    else if 65 ≤ n ∧ n ≤ 70 then n - 55
    else 16
  if v < radix then some v else none

/-- The value of further digits after a value. -/
def digitsValue (radix : Nat) : List Char → Nat → Option Nat
  | [], v => some v
  | c :: cs, v => (digitValue radix c).bind fun d => digitsValue radix cs (v * radix + d)

/-- A value, decimal or hexadecimal after `0x`. -/
def numberOf : List Char → Option Nat
  | [] => none
  | '0' :: 'x' :: c :: cs => digitsValue 16 (c :: cs) 0
  | c :: cs => digitsValue 10 (c :: cs) 0

/-- A value below a bound. -/
def numberBelow (bound : Nat) (w : List Char) : Option Nat :=
  (numberOf w).bind fun n => if n < bound then some n else none

/-- A 32-bit value. -/
def wordValue (w : List Char) : Option Word := (numberBelow (2 ^ 32) w).map (BitVec.ofNat 32)

/-- An 8-bit value. -/
def byteValue (w : List Char) : Option Byte := (numberBelow 256 w).map (BitVec.ofNat 8)

/-- 8-bit values, all of them. -/
def byteValues : List (List Char) → Option (List Byte)
  | [] => some []
  | w :: ws => (byteValue w).bind fun b => (byteValues ws).map fun bs => b :: bs

/-- What a name stands for, if the list has it. -/
def named {α : Type} : List (String × α) → List Char → Option α
  | [], _ => none
  | (n, a) :: l, w => if n.toList = w then some a else named l w

/-- The names of the 32-bit registers (20_memory.md R62). -/
def regNames : List (String × Reg) :=
  [("CMD", .cmd), ("STATUS", .status), ("FINFO", .finfo), ("ARG0", .arg0), ("ARG1", .arg1), ("RESULT", .result)] ++
  [("IN_LEN", .inLen), ("BUF_LEN", .bufLen), ("MODE", .mode), ("RLEN", .rlen), ("RCUR", .rcur)] ++
  [("WBITS", .wbits), ("WACC", .wacc), ("OUT_LEN", .outLen), ("OUT_CAP", .outCap), ("ID", .id)]

/-- The names of the memories. -/
def memNames : List (String × Space) := [("IN", .inp), ("BUF", .buf), ("OUT", .out)]

/-- The commands without flags (30_encoding.md R94). -/
def plainCommands : List (String × Instr) :=
  [("NOP", .nop), ("RESET", .reset), ("OPEN", .openIo false false), ("SEEK", .seek), ("WRBIT", .wrbit)] ++
  [("RDBIT", .rdbit), ("ENCB", .encb), ("DECB", .decb), ("ENCU", .encu), ("DECU", .decu), ("ENCBUF", .encbuf)] ++
  [("DECBUF", .decbuf), ("GETOUT", .getout false false), ("HASH", .hash), ("LOCK", .lock), ("UNLOCK", .unlock)]

/-- A command with one more flag set: `.strided` and `.unlock` on OPEN, `.trimz` and `.lock` on GETOUT. -/
def withFlag (flag : List Char) : Instr → Option Instr
  | .openIo a b => named [("strided", .openIo true b), ("unlock", .openIo a true)] flag
  | .getout a b => named [("trimz", .getout true b), ("lock", .getout a true)] flag
  | .nop | .reset | .seek | .wrbit | .rdbit | .encb | .decb | .encu | .decu | .encbuf | .decbuf | .hash | .lock
  | .unlock => none

/-- A command with further flags set. -/
def withFlags : List (List Char) → Instr → Option Instr
  | [], i => some i
  | f :: fs, i => (withFlag f i).bind (withFlags fs)

/-- The parts of a word between full stops. The part begun is held backwards. -/
def dotParts : List Char → List Char → List (List Char)
  | [], w => [w.reverse]
  | c :: cs, w => if c = '.' then w.reverse :: dotParts cs [] else dotParts cs (c :: w)

/-- `MNEMONIC[.flag]...` -/
def commandOf (w : List Char) : Option Instr :=
  match dotParts w [] with
  | [] => none
  | m :: flags => (named plainCommands m).bind (withFlags flags)

/-- `NAME[n]`: the name and the number. -/
def indexed (w : List Char) : Option (List Char × Nat) :=
  let name := w.takeWhile (· ≠ '[')
  match w.drop (name.length + 1) with
  | [] => none
  | c :: cs =>
    if (c :: cs).getLast? = some ']' then (numberOf (c :: cs).dropLast).map fun n => (name, n) else none

/-- `MEM[a]`, the address inside the memory's window. -/
def memByteOf (w : List Char) : Option (Space × Nat) :=
  (indexed w).bind fun x => (named memNames x.1).bind fun sp => if x.2 < 2 ^ 28 then some (sp, x.2) else none

/-- `DIGEST[j]`. -/
def digestByteOf (w : List Char) : Option Nat :=
  (indexed w).bind fun x => if x.1 = "DIGEST".toList ∧ x.2 < 32 then some x.2 else none

/-- The pseudo-instruction or operation with no operand that a word names. -/
def bareNames (base : Word) (seen : List Byte) : List (String × List Input) :=
  [("rbit", Pseudo.expand base .rbit), ("decu", Pseudo.expand base .decu), ("encstr", Pseudo.expand base .encstr)] ++
  [("decstr", Pseudo.expand base .decstr), ("copybuf", Pseudo.expand base (.copybuf seen)),
    ("check", Pseudo.expand base .check)]

/-- The pseudo-instructions with one operand. -/
def unaryNames : List (String × (Word → Pseudo)) :=
  [("wbit", .wbit), ("seek", .seek), ("decb", .decb), ("encu", .encu)]

/-- A line with two words. -/
def assembleTwo (base : Word) (op x : List Char) : Option (List Input) :=
  if op = "rd".toList then (named regNames x).map fun r => [opRd base r]
  else if op = "cmd".toList then (commandOf x).map fun i => [opCmd base i]
  else if op = "rdb".toList then
    ((memByteOf x).map fun m => [opRdb base m.1 m.2]).or ((digestByteOf x).map fun j => [opRdbDigest base j])
  else (named unaryNames op).bind fun f => (wordValue x).map fun v => Pseudo.expand base (f v)

/-- A line with three words that is no `load`. -/
def assembleThree (base : Word) (op x y : List Char) : Option (List Input) :=
  if op = "wr".toList then (named regNames x).bind fun r => (wordValue y).map fun v => [opWr base r v]
  else if op = "wrb".toList then
    (memByteOf x).bind fun m => if m.1 = .out then none else (byteValue y).map fun b => [opWrb base m.1 m.2 b]
  else if op = "encb".toList then
    (wordValue x).bind fun num => (wordValue y).map fun max => Pseudo.expand base (.encb num max)
  else none

/-- `load MEM, b0 ... b(n-1)`. -/
def assembleLoad (base : Word) (mem : List Char) (bytes : List (List Char)) : Option (List Input) :=
  (byteValues bytes).bind fun bs =>
  if mem = "IN".toList then some (Pseudo.expand base (.loadIn bs))
  else if mem = "BUF".toList then some (Pseudo.expand base (.loadBuf bs))
  else none

/-- The inputs a line of the host assembly stands for, none if it is no line of it. `seen` is what the reads of `copybuf`
return, which the host sees. -/
def assembleLine (base : Word) (seen : List Byte) (line : String) : Option (List Input) :=
  match lineWords line.toList [] with
  | [] => some []
  | [op] => named (bareNames base seen) op
  | op :: x :: rest =>
    if op = "load".toList then assembleLoad base x rest
    else
      match rest with
      | [] => assembleTwo base op x
      | [y] => assembleThree base op x y
      | _ :: _ :: _ => none

/-- A host program, line by line, each with what its `copybuf` reads return. -/
def assemble (base : Word) : List (String × List Byte) → Option (List Input)
  | [] => some []
  | (line, seen) :: lines =>
    (assembleLine base seen line).bind fun x => (assemble base lines).map fun xs => x ++ xs

end Sys2Proof.Machine
end

