-- ==== Sys2Proof/Safety.lean ====
section
/-! DEFINITION. What claims about the machine are stated in: the bounds that hold between any two commands (10_state.md R25,
R30, R31, R33, R34, R36, R37, R44), the bits a writer holds and a reader returns, and the faults each command may raise. -/

namespace Sys2Proof.Machine

/-! ### Invariants -/

/-- STATUS is legal: FAULT = 1 if and only if CODE is not 0, CODE is at most 6, reserved bits are 0 (10_state.md R25). -/
abbrev State.StatusLegal (s : State) : Prop :=
  (s.faultBit = true ↔ s.faultField ≠ 0) ∧ s.faultField ≤ 6 ∧ s.status &&& ~~~statusMask = 0

/-- A memory is in canonical form, and every byte it lists is inside it. -/
abbrev Memory.Fits (m : Memory) (size : Nat) : Prop := Memory.wf m ∧ ∀ c ∈ m, c.1 < size

/-- The three memories are in canonical form and inside their sizes. -/
abbrev State.MemoriesFit (s : State) : Prop :=
  Memory.Fits s.inMem s.params.inMax ∧ Memory.Fits s.bufMem s.params.bufMax ∧ Memory.Fits s.outMem s.params.outMax

/-- The reader: RLEN is at most IN_MAX, and MODE has only bit 0 (10_state.md R30, R31). -/
abbrev State.ReaderLegal (s : State) : Prop := s.rlen.toNat ≤ s.params.inMax ∧ s.mode.toNat ≤ 1

/-- The cursor is where reads alone leave it from OPEN (10_state.md R45): dense, at most 8 × RLEN; strided, odd and at most
16 × RLEN + 1. SEEK may leave any other cursor. -/
abbrev State.CursorInBounds (s : State) : Prop :=
  if s.mode.getLsbD 0 = true then s.rcur.toNat % 2 = 1 ∧ s.rcur.toNat ≤ 16 * s.rlen.toNat + 1
  else s.rcur.toNat ≤ 8 * s.rlen.toNat

/-- The writer (10_state.md R33, R34, R36, R37, R44): OUT_LEN = WBITS >> 3; WACC < 2^(WBITS mod 8);
OUT_LEN ≤ OUT_CAP ≤ OUT_MAX; OUT_CAP = min(OUT_CAP0 × 2^j, OUT_MAX) for some j. -/
def State.WriterLegal (s : State) : Prop :=
  s.outLen.toNat = s.wbits.toNat / 8 ∧ s.wacc.toNat < 2 ^ (s.wbits.toNat % 8) ∧
    s.outLen.toNat ≤ s.outCap.toNat ∧ s.outCap.toNat ≤ s.params.outMax ∧
    ∃ j : Nat, s.outCap.toNat = min (s.params.outCap0 * 2 ^ j) s.params.outMax

/-- Every completed output byte has been written: none is a power-on draw (10_state.md R41). -/
def State.OutputWritten (s : State) : Prop := ∀ a < s.outLen.toNat, (Memory.lookup s.outMem a).isSome = true

/-- The invariant of the machine: legal parameters (00_scope.md R5), and every bound above. -/
structure State.Inv (s : State) : Prop where
  legal : s.params.Legal
  status : s.StatusLegal
  memories : s.MemoriesFit
  reader : s.ReaderLegal
  writer : s.WriterLegal
  written : s.OutputWritten

/-! ### Bits -/

/-- The bits of a byte in stream order (00_scope.md R9). -/
def byteBits (b : Byte) : List Bool :=
  [streamBit b 0, streamBit b 1, streamBit b 2, streamBit b 3, streamBit b 4, streamBit b 5, streamBit b 6, streamBit b 7]

/-- The low `k` bits of a word, most significant first. -/
def lowBits (w : Word) : Nat → List Bool
  | 0 => []
  | k + 1 => w.getLsbD k :: lowBits w k

/-- The written bit stream (10_state.md R44): the bits of OUT_MEM[0..OUT_LEN) in stream order, then the WBITS mod 8 low bits of
WACC, most significant first. -/
def State.writtenBits (s : State) : List Bool :=
  (s.bytesAt .out 0 s.outLen.toNat).flatMap byteBits ++ lowBits s.wacc (s.wbits.toNat % 8)

/-- The results of `n` reads in turn (40_bitio.md R120). -/
def readBits : Nat → State → Run (List Bool)
  | 0, s => .done [] s
  | n + 1, s =>
    (readBit s).bind fun b s =>
    (readBits n s).bind fun bs s => .done (b :: bs) s

/-- The reader stands over the given bits: the next reads return them, and leave the cursor at `c`. -/
def StandsOver (s : State) (bits : List Bool) (c : Word) : Prop :=
  readBits bits.length s = .done bits (s.setRcur c)

/-! ### Faults of each command -/

/-- The faults a command may raise (60_exceptions.md R250, R254). -/
def mayRaise : Instr → List FaultCode
  | .nop | .reset | .seek | .rdbit | .decb => []
  | .openIo _ false => [.capacityExceeded]
  | .openIo _ true => [.capacityExceeded, .invalidFormat, .integrityError]
  | .wrbit | .encb | .encu => [.contractViolation, .capacityExceeded]
  | .encbuf | .getout _ _ | .hash | .lock => [.capacityExceeded]
  | .decu => [.decodeOverflow]
  | .decbuf => [.decodeOverflow, .capacityExceeded]
  | .unlock => [.capacityExceeded, .invalidFormat, .integrityError]

end Sys2Proof.Machine
end

