-- ==== Sys2Proof/Certificates/Slice0/Obligations.lean ====
section
/-! DEFINITION. The statements about the OMK core, for the provers. -/

open Sys2Proof Sys2Proof.Machine

/-! ### Encoding -/

/-- Decoding and encoding agree in both directions (30_encoding.md sections 1 and 2): a word decodes to a command exactly when
it is that command's word. -/
def Obligations.DecodeEncodeExact : Prop :=
  ∀ (w : Word) (i : Instr), decode w = .ok i ↔ w = encode i

/-- 30_encoding.md R94: a word is the command of the row it selects, and a word that selects no row is none. -/
def Obligations.DecodeFollowsOpcodeMap : Prop :=
  ∀ (w : Word) (i : Instr),
    decode w = .ok i ↔ ∃ r ∈ opcodeMap, w &&& r.mask = r.pattern ∧ r.command w = i

/-- No word selects two rows of the opcode map (30_encoding.md section 2, the sentence marked derived). -/
def Obligations.OpcodeRowsDoNotOverlap : Prop :=
  opcodeMap.Pairwise fun r r' => ∀ w : Word, ¬ (w &&& r.mask = r.pattern ∧ w &&& r'.mask = r'.pattern)

/-- 30_encoding.md R96 (and R93): the illegal words are exactly those with a reserved bit set, a flag on a command without
flags, or an opcode that is not in the table; each raises IllegalCommand before any state changes. -/
def Obligations.IllegalWordsRaise : Prop :=
  ∀ w : Word,
    let opc := w.extractLsb' 0 8
    let illegal :=
      w.extractLsb' 16 16 ≠ 0 ∨ w.extractLsb' 10 6 ≠ 0 ∨ opc ∉ assignedOpcodes ∨
        ((w.getLsbD 8 = true ∨ w.getLsbD 9 = true) ∧ opc ≠ 0x02 ∧ opc ≠ 0x30)
    (illegal ↔ ∃ e, decode w = .error e) ∧
      ∀ s : State, ¬ s.halted → illegal → performWord w s = .next { s with status := 0x11, finfo := w }

/-- The words of the opcode map, with every combination of flags, written out from 30_encoding.md section 2 and
40_bitio.md section 2. -/
def Obligations.OpcodeWordsDecode : Prop :=
  decode 0x00000000 = .ok .nop ∧ decode 0x00000001 = .ok .reset ∧ decode 0x00000002 = .ok (.openIo false false) ∧
  decode 0x00000102 = .ok (.openIo true false) ∧ decode 0x00000202 = .ok (.openIo false true) ∧
  decode 0x00000302 = .ok (.openIo true true) ∧ decode 0x00000003 = .ok .seek ∧ decode 0x00000010 = .ok .wrbit ∧
  decode 0x00000011 = .ok .rdbit ∧ decode 0x00000020 = .ok .encb ∧ decode 0x00000021 = .ok .decb ∧
  decode 0x00000022 = .ok .encu ∧ decode 0x00000023 = .ok .decu ∧ decode 0x00000024 = .ok .encbuf ∧
  decode 0x00000025 = .ok .decbuf ∧ decode 0x00000030 = .ok (.getout false false) ∧
  decode 0x00000130 = .ok (.getout true false) ∧ decode 0x00000230 = .ok (.getout false true) ∧
  decode 0x00000330 = .ok (.getout true true) ∧ decode 0x00000040 = .ok .hash ∧ decode 0x00000041 = .ok .lock ∧
  decode 0x00000042 = .ok .unlock

/-! ### Steps -/

/-- A step runs the decoded command (10_state.md section 3, CMD): when the next host access writes a word to CMD that decodes
to a command, the step is that command's meaning in the state with the access taken off the pending list; a CMD write of any
word is `performWord`, and any other host access is `hostAccess`. That the host's accesses are held in State is the model's
choice (log 5). -/
def Obligations.StepRunsDecodedCommand : Prop :=
  (∀ (s : State) (w : Word) (i : Instr) (rest : List Input),
    s.pending = cmdWrite s.params w :: rest → decode w = .ok i → step s = exec i { s with pending := rest }) ∧
  (∀ (s : State) (w : Word) (rest : List Input),
    s.pending = cmdWrite s.params w :: rest → step s = performWord w { s with pending := rest }) ∧
  ∀ (s : State) (op : HostOp) (rest : List Input),
    s.pending = .access op :: rest → step s = hostAccess op { s with pending := rest }

/-- 30_encoding.md R95: a CMD write of a word. While halted only the word of RESET acts, and every other word has no effect;
otherwise a word that is a command is performed, and a word that selects no row raises IllegalCommand. -/
def Obligations.CmdWriteDispatch : Prop :=
  ∀ (s : State) (w : Word),
    (s.halted → w = 0x00000001 → performWord w s = .next (resetAction s)) ∧
    (s.halted → w ≠ 0x00000001 → performWord w s = .next s) ∧
    (¬ s.halted → ∀ r ∈ opcodeMap, w &&& r.mask = r.pattern → performWord w s = exec (r.command w) s) ∧
    (¬ s.halted → (∀ r ∈ opcodeMap, w &&& r.mask ≠ r.pattern) →
      performWord w s = .next { s with status := 0x11, finfo := w })

/-- 60_exceptions.md R251: fault entry writes STATUS = 1 | (code << 4), with the codes of R250, and FINFO, the whole command
word, and nothing else; every write a command made before it raised stays, and none after; FAULT_IRQ rises. -/
def Obligations.FaultEntryRecords : Prop :=
  ∀ (w : Word) (s : State),
    faultEntry .illegalCommand w s = { s with status := 0x11, finfo := w } ∧
    faultEntry .invalidFormat w s = { s with status := 0x21, finfo := w } ∧
    faultEntry .integrityError w s = { s with status := 0x31, finfo := w } ∧
    faultEntry .contractViolation w s = { s with status := 0x41, finfo := w } ∧
    faultEntry .decodeOverflow w s = { s with status := 0x51, finfo := w } ∧
    faultEntry .capacityExceeded w s = { s with status := 0x61, finfo := w } ∧
    (∀ c : FaultCode, (faultEntry c w s).halted ∧ (faultEntry c w s).faultIrq = true) ∧
    ∀ (i : Instr) (rule : State → Run Unit) (c : FaultCode) (u : State), ¬ s.halted → rule s = .raised c u →
      command i rule s = .next { u with status := 1 + 16 * c.code, finfo := encode i }

/-- Over all commands (60_exceptions.md sections 2 and 3): a command that ends in a next state leaves STATUS and FINFO alone,
unless it is RESET, or it was not ignored and raised one of the faults its row of the table of section 3 lists, with its own
word in FINFO. -/
def Obligations.FaultsRecordWordAndCode : Prop :=
  ∀ (i : Instr) (s t : State), exec i s = .next t → i ≠ .reset →
    (t.status = s.status ∧ t.finfo = s.finfo) ∨
      (¬ s.halted ∧ ∃ c ∈ mayRaise i, t.status = c.status ∧ t.finfo = encode i)

/-! ### Reset -/

/-- The reset values (10_state.md section 7), of power-on reset and of the RESET command; the memories are unspecified (nothing is
listed) after power-on and unchanged by RESET. -/
def Obligations.ResetRegisterValues : Prop :=
  let registersReset := fun (s : State) =>
    readReg s .cmd = 0 ∧ readReg s .status = 0x00000000 ∧ readReg s .finfo = 0x00000000 ∧ readReg s .arg0 = 0 ∧
    readReg s .arg1 = 0 ∧ readReg s .result = 0 ∧ readReg s .inLen = 0 ∧ readReg s .bufLen = 0 ∧ readReg s .mode = 0 ∧
    readReg s .rlen = 0 ∧ readReg s .rcur = 0 ∧ readReg s .wbits = 0 ∧ readReg s .wacc = 0 ∧ readReg s .outLen = 0 ∧
    readReg s .outCap = BitVec.ofNat 32 s.params.outCap0 ∧ readReg s .id = 0x4F4D4B01 ∧
    s.digest = Vector.replicate 32 0x00
  (∀ p : Params, registersReset (State.resetWith p) ∧
    (State.resetWith p).inMem = [] ∧ (State.resetWith p).bufMem = [] ∧ (State.resetWith p).outMem = []) ∧
  ∀ s : State, ∃ t, exec .reset s = .next t ∧ registersReset t ∧
    t.inMem = s.inMem ∧ t.bufMem = s.bufMem ∧ t.outMem = s.outMem

/-- 45_control.md R241 and 70_reset_and_hazards.md R291: RESET completes in every state, halted or not, and performs the reset
action; the memories do not change. -/
def Obligations.ResetCompletes : Prop :=
  ∀ s : State,
    exec .reset s =
      .next { s with
        status := 0, finfo := 0, arg0 := 0, arg1 := 0, result := 0, inLen := 0, bufLen := 0
        mode := 0, rlen := 0, rcur := 0, wbits := 0, wacc := 0, outLen := 0
        outCap := BitVec.ofNat 32 s.params.outCap0, digest := Vector.replicate 32 0x00 }

/-- Power-on reset (70_reset_and_hazards.md section 1) as an input of the model (the model's choice, log 4): the reset values,
and every memory byte a fresh free value. -/
def Obligations.PowerOnResetStep : Prop :=
  ∀ (s : State) (rest : List Input), s.pending = .powerOnReset :: rest →
    step s =
      .next { State.resetWith s.params with
        powerCycles := s.powerCycles + 1, pending := rest, replies := s.replies }

/-! ### The commands' own effects -/

/-- 45_control.md R240: NOP completes in every state and changes nothing. -/
def Obligations.NopCompletes : Prop := ∀ s : State, exec .nop s = .next s

/-- 40_bitio.md R125: SEEK sets RCUR to ARG0, any value, and changes nothing else. -/
def Obligations.SeekCompletes : Prop :=
  ∀ s : State, ¬ s.halted → exec .seek s = .next { s with rcur := s.arg0 }

/-- 40_bitio.md R127 and R120: RDBIT completes whenever the input is inside IN_MEM. The exhausted read returns 0 and leaves
RCUR; a dense read takes stream position c & 7 of byte c >> 3; a strided read at an even cursor returns 1; at an odd cursor it
takes position (c >> 1) & 7 of byte c >> 4. -/
def Obligations.RdbitCompletes : Prop :=
  ∀ s : State, ¬ s.halted → s.rlen.toNat ≤ s.params.inMax →
    let c := s.rcur.toNat
    let limit := if s.mode.getLsbD 0 = true then 16 * s.rlen.toNat else 8 * s.rlen.toNat
    (limit ≤ c → exec .rdbit s = .next { s with result := 0 }) ∧
    (c < limit → s.mode.getLsbD 0 = false →
      exec .rdbit s =
        .next { s with rcur := s.rcur + 1, result := if (s.byteAt .inp (c / 8)).getLsbD (7 - c % 8) then 1 else 0 }) ∧
    (c < limit → s.mode.getLsbD 0 = true → c % 2 = 0 →
      exec .rdbit s = .next { s with rcur := s.rcur + 2, result := 1 }) ∧
    (c < limit → s.mode.getLsbD 0 = true → c % 2 = 1 →
      exec .rdbit s =
        .next { s with
          rcur := s.rcur + 2, result := if (s.byteAt .inp (c / 16)).getLsbD (7 - c / 2 % 8) then 1 else 0 })

/-- 40_bitio.md R126 and R121: WRBIT. ARG0 above 1 is ContractViolation; a byte to complete with OUT_LEN = OUT_MAX is
CapacityExceeded; otherwise the bit joins WACC, and every eighth bit stores WACC at OUT_MEM[OUT_LEN], doubling OUT_CAP, clamped
to OUT_MAX, when the buffer is full. -/
def Obligations.WrbitCommand : Prop :=
  ∀ s : State, ¬ s.halted →
    let acc := (2 * s.wacc.toNat + s.arg0.toNat) % 256
    (s.arg0.toNat > 1 → exec .wrbit s = .next { s with status := 0x41, finfo := 0x10 }) ∧
    (s.arg0.toNat ≤ 1 → s.wbits.toNat % 8 = 7 → s.outLen.toNat = s.params.outMax →
      exec .wrbit s = .next { s with status := 0x61, finfo := 0x10 }) ∧
    (s.arg0.toNat ≤ 1 → s.wbits.toNat % 8 ≠ 7 →
      exec .wrbit s = .next { s with wbits := s.wbits + 1, wacc := BitVec.ofNat 32 acc }) ∧
    (s.arg0.toNat ≤ 1 → s.wbits.toNat % 8 = 7 → s.outLen.toNat < s.params.outMax →
      exec .wrbit s =
        .next { s with
          wbits := s.wbits + 1, wacc := 0, outLen := s.outLen + 1
          outCap :=
            if s.outLen = s.outCap then BitVec.ofNat 32 (min (2 * s.outCap.toNat) s.params.outMax) else s.outCap
          outMem := Memory.write s.outMem s.outLen.toNat (BitVec.ofNat 8 acc) })

/-- 43_codec.md R218: ENCB. ARG0 > ARG1 is ContractViolation and writes nothing; otherwise the bounded code of ARG0 is appended
to the written bits, whole when there is room for it (8 × OUT_MAX + 7 bits in all), or as far as it fits, with
CapacityExceeded. -/
def Obligations.EncbCommand : Prop :=
  ∀ s : State, ¬ s.halted → s.Inv →
    let bits := boundedBits s.arg0 s.arg1
    let room := 8 * s.params.outMax + 7 - s.wbits.toNat
    (s.arg0.toNat > s.arg1.toNat → exec .encb s = .next { s with status := 0x41, finfo := 0x20 }) ∧
    (s.arg0.toNat ≤ s.arg1.toNat → bits.length ≤ room →
      ∃ t, exec .encb s = .next t ∧ t.writtenBits = s.writtenBits ++ bits ∧
        t.wbits.toNat = s.wbits.toNat + bits.length ∧ t.status = s.status ∧ t.finfo = s.finfo) ∧
    (s.arg0.toNat ≤ s.arg1.toNat → room < bits.length →
      ∃ t, exec .encb s = .next t ∧ t.writtenBits = s.writtenBits ++ bits.take room ∧
        t.wbits.toNat = s.wbits.toNat + room ∧ t.status = 0x61 ∧ t.finfo = 0x20)

/-- 43_codec.md R220: ENCU. ARG0 > 0x7FFFFFFF is ContractViolation and writes nothing; otherwise the unbounded code of ARG0 is
appended to the written bits, whole when there is room for it, or as far as it fits, with CapacityExceeded. -/
def Obligations.EncuCommand : Prop :=
  ∀ s : State, ¬ s.halted → s.Inv →
    let bits := unboundedBits s.arg0.toNat
    let room := 8 * s.params.outMax + 7 - s.wbits.toNat
    (s.arg0.toNat > 0x7FFFFFFF → exec .encu s = .next { s with status := 0x41, finfo := 0x22 }) ∧
    (s.arg0.toNat ≤ 0x7FFFFFFF → bits.length ≤ room →
      ∃ t, exec .encu s = .next t ∧ t.writtenBits = s.writtenBits ++ bits ∧
        t.wbits.toNat = s.wbits.toNat + bits.length ∧ t.status = s.status ∧ t.finfo = s.finfo) ∧
    (s.arg0.toNat ≤ 0x7FFFFFFF → room < bits.length →
      ∃ t, exec .encu s = .next t ∧ t.writtenBits = s.writtenBits ++ bits.take room ∧
        t.wbits.toNat = s.wbits.toNat + room ∧ t.status = 0x61 ∧ t.finfo = 0x22)

/-- 43_codec.md R222: ENCBUF. BUF_LEN > BUF_MAX is CapacityExceeded and writes nothing; otherwise the unbounded code of BUF_LEN
and then the eight bits of each of BUF_MEM[0..BUF_LEN), most significant first, are appended to the written bits, whole when
there is room, or as far as they fit, with CapacityExceeded. -/
def Obligations.EncbufCommand : Prop :=
  ∀ s : State, ¬ s.halted → s.Inv →
    let bits := unboundedBits s.bufLen.toNat ++ (s.bytesAt .buf 0 s.bufLen.toNat).flatMap byteBits
    let room := 8 * s.params.outMax + 7 - s.wbits.toNat
    (s.bufLen.toNat > s.params.bufMax → exec .encbuf s = .next { s with status := 0x61, finfo := 0x24 }) ∧
    (s.bufLen.toNat ≤ s.params.bufMax → bits.length ≤ room →
      ∃ t, exec .encbuf s = .next t ∧ t.writtenBits = s.writtenBits ++ bits ∧
        t.wbits.toNat = s.wbits.toNat + bits.length ∧ t.status = s.status ∧ t.finfo = s.finfo) ∧
    (s.bufLen.toNat ≤ s.params.bufMax → room < bits.length →
      ∃ t, exec .encbuf s = .next t ∧ t.writtenBits = s.writtenBits ++ bits.take room ∧
        t.wbits.toNat = s.wbits.toNat + room ∧ t.status = 0x61 ∧ t.finfo = 0x24)

/-- DECB (43_codec.md section 4): it completes whenever the input is inside IN_MEM, raises nothing, changes only RESULT and
RCUR, and RESULT is at most ARG1; with ARG1 = 0 nothing is read and RESULT = 0; over an exhausted input RESULT = 0. -/
def Obligations.DecbCompletes : Prop :=
  ∀ s : State, ¬ s.halted → s.rlen.toNat ≤ s.params.inMax →
    (∃ v c, decBounded s.arg1 s = .done v { s with rcur := c } ∧
      exec .decb s = .next { s with rcur := c, result := v } ∧ v.toNat ≤ s.arg1.toNat) ∧
    (s.arg1 = 0 → exec .decb s = .next { s with result := 0 }) ∧
    (readLimit s ≤ s.rcur.toNat → exec .decb s = .next { s with result := 0 })

/-- The bounded code's round trip (43_codec.md section 2): over the bits that EncBounded writes for num, DECB with the same
bound returns num and stops after them. -/
def Obligations.BoundedRoundTrip : Prop :=
  ∀ (s : State) (num c : Word), ¬ s.halted → num.toNat ≤ s.arg1.toNat →
    StandsOver s (boundedBits num s.arg1) c → exec .decb s = .next { s with rcur := c, result := num }

/-- 43_codec.md R221 and R216: DECU over k payload bits, each after a continuation 1, lowest first, and a terminator 0: RESULT
is v + 2^k - 1, or DecodeOverflow when that exceeds 2^31 - 1; a continuation 1 after 31 payload bits is DecodeOverflow. RCUR
stays where the last read left it. -/
def Obligations.DecuCommand : Prop :=
  ∀ (s : State) (payload : List Bool) (c : Word), ¬ s.halted → payload.length ≤ 31 →
    let v := payload.foldr (fun b v => 2 * v + b.toNat) 0
    let r := v + 2 ^ payload.length - 1
    let code := payload.flatMap fun b => [true, b]
    (StandsOver s (code ++ [false]) c → r ≤ 2 ^ 31 - 1 →
      exec .decu s = .next { s with rcur := c, result := BitVec.ofNat 32 r }) ∧
    (StandsOver s (code ++ [false]) c → 2 ^ 31 - 1 < r →
      exec .decu s = .next { s with rcur := c, status := 0x51, finfo := 0x23 }) ∧
    (StandsOver s (code ++ [true]) c → payload.length = 31 →
      exec .decu s = .next { s with rcur := c, status := 0x51, finfo := 0x23 })

/-- The unbounded code's round trip (43_codec.md section 3): over the bits that EncUnbounded writes for n, DECU returns n and
stops after them. -/
def Obligations.UnboundedRoundTrip : Prop :=
  ∀ (s : State) (n : Nat) (c : Word), ¬ s.halted → n < 2 ^ 31 → StandsOver s (unboundedBits n) c →
    exec .decu s = .next { s with rcur := c, result := BitVec.ofNat 32 n }

/-- 43_codec.md R223: DECBUF. Over the unbounded code of a length and then the eight bits of each byte, it completes with the
bytes in BUF_MEM, BUF_LEN and RESULT the length, and the cursor after them. A length above BUF_MAX is CapacityExceeded, with the
length's bits read; a length code above 2^31 - 1 is DecodeOverflow; BUF_MEM, BUF_LEN and RESULT are unchanged then. -/
def Obligations.DecbufCommand : Prop :=
  ∀ (s : State) (c : Word), ¬ s.halted → s.params.Legal →
    (∀ bytes : List Byte, bytes.length ≤ s.params.bufMax →
      StandsOver s (unboundedBits bytes.length ++ bytes.flatMap byteBits) c →
      exec .decbuf s =
        .next { s with
          rcur := c, bufMem := Memory.writeList s.bufMem 0 bytes
          bufLen := BitVec.ofNat 32 bytes.length, result := BitVec.ofNat 32 bytes.length }) ∧
    (∀ n : Nat, s.params.bufMax < n → n < 2 ^ 31 → StandsOver s (unboundedBits n) c →
      exec .decbuf s = .next { s with rcur := c, status := 0x61, finfo := 0x25 }) ∧
    ∀ payload : List Bool, payload.length ≤ 31 →
      let v := payload.foldr (fun b v => 2 * v + b.toNat) 0
      let code := payload.flatMap fun b => [true, b]
      (StandsOver s (code ++ [false]) c → 2 ^ 31 - 1 < v + 2 ^ payload.length - 1 →
        exec .decbuf s = .next { s with rcur := c, status := 0x51, finfo := 0x25 }) ∧
      (StandsOver s (code ++ [true]) c → payload.length = 31 →
        exec .decbuf s = .next { s with rcur := c, status := 0x51, finfo := 0x25 })

/-- 40_bitio.md R128 and R122: GETOUT delivers the written bits as whole bytes, the partial byte zero-padded, trimmed if TRIMZ,
then wrapped if LOCK, in BUF_MEM from 0 with BUF_LEN their number; CapacityExceeded, with nothing changed, when they do not fit.
The writer is unchanged. -/
def Obligations.GetoutCommand : Prop :=
  ∀ (trimz wrap : Bool) (s : State), ¬ s.halted → s.outLen.toNat ≤ s.params.outMax →
    let k := s.wbits.toNat % 8
    let whole := s.bytesAt .out 0 s.outLen.toNat ++ if k = 0 then [] else [BitVec.ofNat 8 (s.wacc.toNat * 2 ^ (8 - k))]
    let trimmed := if trimz then trimZeros whole else whole
    let bytes := if wrap then lockBytes trimmed else trimmed
    (bytes.length ≤ s.params.bufMax →
      exec (.getout trimz wrap) s =
        .next { s with bufMem := Memory.writeList s.bufMem 0 bytes, bufLen := BitVec.ofNat 32 bytes.length }) ∧
    (s.params.bufMax < bytes.length →
      exec (.getout trimz wrap) s = .next { s with status := 0x61, finfo := encode (.getout trimz wrap) })

/-- 40_bitio.md R124: OPEN, its faults in order and its effect. CapacityExceeded when IN_LEN > IN_MAX; with UNLOCK,
InvalidFormat when IN_LEN < 32, and IntegrityError, the candidate left in IN_MEM, when Unlock returns BADSUM; otherwise the
reader over the input, or over the recovered plaintext in place, and an empty writer. -/
def Obligations.OpenCommand : Prop :=
  ∀ (strided unwrap : Bool) (s : State), ¬ s.halted →
    let n := s.inLen.toNat
    let r := unlockBytes (s.bytesAt .inp 0 n)
    let start : Word := if strided then 1 else 0
    let w := encode (.openIo strided unwrap)
    (n > s.params.inMax → exec (.openIo strided unwrap) s = .next { s with status := 0x61, finfo := w }) ∧
    (n ≤ s.params.inMax → unwrap = false →
      exec (.openIo strided unwrap) s =
        .next { s with
          rlen := s.inLen, mode := start, rcur := start
          wbits := 0, wacc := 0, outLen := 0, outCap := BitVec.ofNat 32 s.params.outCap0 }) ∧
    (n ≤ s.params.inMax → unwrap = true → n < 32 →
      exec (.openIo strided unwrap) s = .next { s with status := 0x21, finfo := w }) ∧
    (n ≤ s.params.inMax → unwrap = true → 32 ≤ n → r.1 = .badSum →
      exec (.openIo strided unwrap) s =
        .next { s with inMem := Memory.writeList s.inMem 0 r.2, status := 0x31, finfo := w }) ∧
    (n ≤ s.params.inMax → unwrap = true → 32 ≤ n → r.1 = .ok →
      exec (.openIo strided unwrap) s =
        .next { s with
          inMem := Memory.writeList s.inMem 0 r.2, rlen := BitVec.ofNat 32 (n - 32), mode := start, rcur := start
          wbits := 0, wacc := 0, outLen := 0, outCap := BitVec.ofNat 32 s.params.outCap0 })

/-- 41_hash.md R164: HASH writes the digest of BUF_MEM[0..BUF_LEN) to DIGEST and nothing else; CapacityExceeded when
BUF_LEN > BUF_MAX. -/
def Obligations.HashCommand : Prop :=
  ∀ s : State, ¬ s.halted →
    (s.bufLen.toNat ≤ s.params.bufMax →
      exec .hash s = .next { s with digest := sha256 (s.bytesAt .buf 0 s.bufLen.toNat) }) ∧
    (s.params.bufMax < s.bufLen.toNat → exec .hash s = .next { s with status := 0x61, finfo := 0x40 })

/-- 42_framing.md R193: LOCK wraps BUF_MEM[0..BUF_LEN) in place and adds 32 to BUF_LEN; CapacityExceeded when
BUF_LEN + 32 > BUF_MAX. -/
def Obligations.LockCommand : Prop :=
  ∀ s : State, ¬ s.halted →
    let n := s.bufLen.toNat
    (n + 32 ≤ s.params.bufMax →
      exec .lock s =
        .next { s with
          bufMem := Memory.writeList s.bufMem 0 (lockBytes (s.bytesAt .buf 0 n)), bufLen := BitVec.ofNat 32 (n + 32) }) ∧
    (s.params.bufMax < n + 32 → exec .lock s = .next { s with status := 0x61, finfo := 0x41 })

/-- 42_framing.md R194: UNLOCK, its faults in order and its effect. CapacityExceeded when BUF_LEN > BUF_MAX; InvalidFormat when
BUF_LEN < 32; IntegrityError, the candidate left in BUF_MEM, when Unlock returns BADSUM; otherwise the plaintext in place and
BUF_LEN less 32. -/
def Obligations.UnlockCommand : Prop :=
  ∀ s : State, ¬ s.halted →
    let n := s.bufLen.toNat
    let r := unlockBytes (s.bytesAt .buf 0 n)
    (s.params.bufMax < n → exec .unlock s = .next { s with status := 0x61, finfo := 0x42 }) ∧
    (n ≤ s.params.bufMax → n < 32 → exec .unlock s = .next { s with status := 0x21, finfo := 0x42 }) ∧
    (n ≤ s.params.bufMax → 32 ≤ n → r.1 = .badSum →
      exec .unlock s =
        .next { s with bufMem := Memory.writeList s.bufMem 0 r.2, status := 0x31, finfo := 0x42 }) ∧
    (n ≤ s.params.bufMax → 32 ≤ n → r.1 = .ok →
      exec .unlock s =
        .next { s with bufMem := Memory.writeList s.bufMem 0 r.2, bufLen := BitVec.ofNat 32 (n - 32) })

/-! ### The primitives -/

/-- 40_bitio.md R123: TrimZeros drops every trailing zero byte and nothing else. -/
def Obligations.TrimZerosDropsTrailingZeros : Prop :=
  ∀ bytes : List Byte,
    (∃ k, bytes = trimZeros bytes ++ List.replicate k 0) ∧ ∀ b, (trimZeros bytes).getLast? = some b → b ≠ 0

/-- 41_hash.md section 3: the padding of a message of L bytes is 0x80, (55 - L) mod 64 zero bytes and the bit length in 8 bytes,
big-endian, and makes the least whole number of 64-byte blocks. -/
def Obligations.PaddingLaw : Prop :=
  ∀ m : List Byte, ∃ z : Nat,
    (z : Int) = (55 - (m.length : Int)) % 64 ∧
    padMessage m = m ++ 0x80 :: List.replicate z 0x00 ++ be64 (BitVec.ofNat 64 (8 * m.length)) ∧
    (be64 (BitVec.ofNat 64 (8 * m.length))).length = 8 ∧ (padMessage m).length % 64 = 0 ∧
    (padMessage m).length < m.length + 9 + 64

/-- 41_hash.md R158: the 64 schedule words of a block are its 16 big-endian words and then the recurrence. -/
def Obligations.ScheduleRecurrence : Prop :=
  ∀ block : List Byte, block.length = 64 →
    (schedule block).length = 64 ∧
    (∀ t < 16, (schedule block).getD t 0 =
      block.getD (4 * t) 0 ++ block.getD (4 * t + 1) 0 ++ block.getD (4 * t + 2) 0 ++ block.getD (4 * t + 3) 0) ∧
    ∀ t, 16 ≤ t → t < 64 →
      let w := fun k => (schedule block).getD k 0
      w t = smallSigma1 (w (t - 2)) + w (t - 7) + smallSigma0 (w (t - 15)) + w (t - 16)

/-- The hash constants are the first 32 bits of the fractional parts of the square roots of the first 8 primes and the cube
roots of the first 64 (41_hash.md section 1), truncated; the listed primes are all the primes up to 311. -/
def Obligations.HashConstantsDerived : Prop :=
  primes = (List.range 312).filter (fun n => decide n.Prime) ∧
  (∀ i < 8, ∃ r : Nat, r ^ 2 ≤ primes.getD i 0 * 2 ^ 64 ∧ primes.getD i 0 * 2 ^ 64 < (r + 1) ^ 2 ∧
    initialHash.toList[i]? = some (BitVec.ofNat 32 r)) ∧
  ∀ i < 64, ∃ r : Nat, r ^ 3 ≤ primes.getD i 0 * 2 ^ 96 ∧ primes.getD i 0 * 2 ^ 96 < (r + 1) ^ 3 ∧
    roundConstants[i]? = some (BitVec.ofNat 32 r)

/-- SHA256 of a message (41_hash.md sections 3 and 5): from the initial hash value the compression is applied to the 64-byte
blocks of the padded message in order, and the digest is the eight words in order, big-endian; and the published digests of
the empty message, of "abc" and of a message of two blocks (95_test_vectors.md section 1.2, V-H1, V-H2 and V-H3). -/
def Obligations.HashKnownDigests : Prop :=
  (∀ m : List Byte,
    (sha256 m).toList =
      (((List.range ((padMessage m).length / 64)).foldl
          (fun h j => compress h (((padMessage m).drop (64 * j)).take 64)) initialHash).toList.flatMap be32)) ∧
  (sha256 []).toList =
    [0xe3, 0xb0, 0xc4, 0x42, 0x98, 0xfc, 0x1c, 0x14, 0x9a, 0xfb, 0xf4, 0xc8, 0x99, 0x6f, 0xb9, 0x24,
     0x27, 0xae, 0x41, 0xe4, 0x64, 0x9b, 0x93, 0x4c, 0xa4, 0x95, 0x99, 0x1b, 0x78, 0x52, 0xb8, 0x55] ∧
  (sha256 [0x61, 0x62, 0x63]).toList =
    [0xba, 0x78, 0x16, 0xbf, 0x8f, 0x01, 0xcf, 0xea, 0x41, 0x41, 0x40, 0xde, 0x5d, 0xae, 0x22, 0x23,
     0xb0, 0x03, 0x61, 0xa3, 0x96, 0x17, 0x7a, 0x9c, 0xb4, 0x10, 0xff, 0x61, 0xf2, 0x00, 0x15, 0xad] ∧
  (sha256
    [0x61, 0x62, 0x63, 0x64, 0x62, 0x63, 0x64, 0x65, 0x63, 0x64, 0x65, 0x66, 0x64, 0x65, 0x66, 0x67,
     0x65, 0x66, 0x67, 0x68, 0x66, 0x67, 0x68, 0x69, 0x67, 0x68, 0x69, 0x6a, 0x68, 0x69, 0x6a, 0x6b,
     0x69, 0x6a, 0x6b, 0x6c, 0x6a, 0x6b, 0x6c, 0x6d, 0x6b, 0x6c, 0x6d, 0x6e, 0x6c, 0x6d, 0x6e, 0x6f,
     0x6d, 0x6e, 0x6f, 0x70, 0x6e, 0x6f, 0x70, 0x71]).toList =
    [0x24, 0x8d, 0x6a, 0x61, 0xd2, 0x06, 0x38, 0xb8, 0xe5, 0xc0, 0x26, 0x93, 0x0c, 0x3e, 0x60, 0x39,
     0xa3, 0x3c, 0xe4, 0x59, 0x64, 0xff, 0x21, 0x67, 0xf6, 0xec, 0xed, 0xd4, 0x19, 0xdb, 0x06, 0xc1]

/-- Keystream byte i is byte i mod 32 of the (i div 32)-th block, each block the hash of the block before (42_framing.md
section 1, KeyStream). -/
def Obligations.KeyStreamBytes : Prop :=
  ∀ (cs : Digest) (n : Nat),
    (keyStream cs.toList n).length = n ∧
    ∀ i < n, (keyStream cs.toList n)[i]? = (((fun b : Digest => sha256 b.toList)^[i / 32]) cs).toList[i % 32]?

/-- 42_framing.md R191: Lock(p) is p XOR the keystream started from SHA256(p), and then SHA256(p) in clear. -/
def Obligations.LockLayout : Prop :=
  ∀ p : List Byte,
    (lockBytes p).length = p.length + 32 ∧
    (∀ i < p.length, (lockBytes p)[i]? =
      some (p.getD i 0 ^^^ (keyStream (sha256 p).toList p.length).getD i 0)) ∧
    (lockBytes p).drop p.length = (sha256 p).toList

/-- Unlock(Lock(p)) = (OK, p) for every byte sequence (42_framing.md section 3, marked derived). -/
def Obligations.UnlockOfLock : Prop := ∀ p : List Byte, unlockBytes (lockBytes p) = (.ok, p)

/-- Everything Unlock answers (42_framing.md section 1): below 32 bytes BADFORMAT and no bytes; otherwise all but the last 32
bytes XOR the keystream started from the last 32, with OK if their digest is the last 32 bytes and BADSUM if it is not. And
Unlock accepts only what Lock makes: Unlock(c) = (OK, p) holds only when c = Lock(p) (section 3, marked derived). -/
def Obligations.UnlockAcceptsOnlyLocked : Prop :=
  (∀ c p : List Byte, unlockBytes c = (.ok, p) → c = lockBytes p) ∧
  (∀ c : List Byte, c.length < 32 → unlockBytes c = (.badFormat, [])) ∧
  ∀ c : List Byte, 32 ≤ c.length →
    let n := c.length - 32
    let cs := c.drop n
    let p := (unlockBytes c).2
    p.length = n ∧ (∀ i < n, p[i]? = some (c.getD i 0 ^^^ (keyStream cs n).getD i 0)) ∧
    ((sha256 p).toList = cs → (unlockBytes c).1 = .ok) ∧ ((sha256 p).toList ≠ cs → (unlockBytes c).1 = .badSum)

/-- EncBounded writes exactly the positions, from msb(max) down, at which max has a 1 or a higher position has dropped num
below max, and writes num's bit there (43_codec.md section 2, the algorithm of EncBounded). -/
def Obligations.BoundedBitsByPosition : Prop :=
  ∀ num max : Word, max ≠ 0 →
    boundedBits num max =
      (((List.range (msb max + 1)).reverse.filter fun i =>
          max.getLsbD i || (List.range (msb max + 1)).any fun j => decide (i < j) && max.getLsbD j && !num.getLsbD j).map
        fun i => num.getLsbD i)

/-- The bit-count law of the bounded code (43_codec.md section 2, marked derived): popcount(max) bits for num = max; otherwise
popcount(max >> (j + 1)) + j + 1 bits, j the highest position where they differ; never more than msb(max) + 1. -/
def Obligations.BoundedBitCount : Prop :=
  ∀ num max : Word, max ≠ 0 → num.toNat ≤ max.toNat →
    let popcount := fun v : Word => ((List.range 32).filter fun i => v.getLsbD i).length
    let j := msb (num ^^^ max)
    (num = max → (boundedBits num max).length = popcount max) ∧
    (num ≠ max → (boundedBits num max).length = popcount (max >>> (j + 1)) + j + 1) ∧
    (boundedBits num max).length ≤ msb max + 1

/-- The bit count of the unbounded code (43_codec.md section 3, marked derived): 2 × msb(n + 1) + 1 bits. -/
def Obligations.UnboundedBitCount : Prop :=
  ∀ n m : Nat, 2 ^ m ≤ n + 1 → n + 1 < 2 ^ (m + 1) → (unboundedBits n).length = 2 * m + 1

/-- The ranges of RESULT (10_state.md section 3, RESULT): 0 or 1 after RDBIT, at most ARG1 after DECB (43_codec.md section 2), at
most 2^31 - 1 after DECU (section 3), at most BUF_MAX, and equal to BUF_LEN, after DECBUF (section 4). -/
def Obligations.DecodedResultsInRange : Prop :=
  ∀ s t : State, ¬ s.halted → s.params.Legal → ¬ t.halted →
    (exec .rdbit s = .next t → t.result.toNat ≤ 1) ∧
    (exec .decb s = .next t → t.result.toNat ≤ s.arg1.toNat) ∧
    (exec .decu s = .next t → t.result.toNat ≤ 2 ^ 31 - 1) ∧
    (exec .decbuf s = .next t → t.result.toNat ≤ s.params.bufMax ∧ t.result = t.bufLen)

/-- What the writer wrote reads back (40_bitio.md section 3 and 43_codec.md section 5, marked derived): a reader opened, dense
or strided, over the materialized bytes of a writer, with or without their trailing zero bytes, stands over the writer's bits
exactly, and every read after them returns 0. -/
def Obligations.WrittenStreamReadsBack : Prop :=
  ∀ (s u : State) (bytes : List Byte), s.Inv → u.rlen.toNat ≤ u.params.inMax → u.params.Legal →
    materialize s = .done bytes s →
    ∀ image, (image = bytes ∨ image = trimZeros bytes) →
      u.rlen.toNat = image.length → u.bytesAt .inp 0 image.length = image →
      ((u.mode = 0 ∧ u.rcur = 0) ∨ (u.mode = 1 ∧ u.rcur = 1)) →
      ∀ k, ∃ c, StandsOver u (s.writtenBits ++ List.replicate k false) c

/-- LOCK and then UNLOCK complete and restore BUF_MEM[0..BUF_LEN) and BUF_LEN (42_framing.md section 3, marked derived). -/
def Obligations.LockThenUnlockRestores : Prop :=
  ∀ s : State, ¬ s.halted → s.params.Legal → s.bufLen.toNat + 32 ≤ s.params.bufMax →
    ∃ t u, exec .lock s = .next t ∧ exec .unlock t = .next u ∧ ¬ u.halted ∧ u.bufLen = s.bufLen ∧
      u.bytesAt .buf 0 s.bufLen.toNat = s.bytesAt .buf 0 s.bufLen.toNat

/-! ### Frames -/

/-- SEEK, RDBIT, DECB and DECU change at most RCUR and, but for SEEK, RESULT (and STATUS and FINFO by a fault): every other
register and every byte of memory is unchanged. And where reads leave RCUR (10_state.md section 5, marked derived): from a
cursor in the bounds, RDBIT, DECB, DECU and DECBUF leave one in the bounds, and OPEN without a fault sets one. -/
def Obligations.ReaderFrame : Prop :=
  (∀ (i : Instr) (s t : State), i ∈ [Instr.seek, .rdbit, .decb, .decu] → exec i s = .next t →
    t = { s with rcur := t.rcur, result := t.result, status := t.status, finfo := t.finfo } ∧
    (i = .seek → t.result = s.result) ∧ ∀ sp a, t.byteAt sp a = s.byteAt sp a) ∧
  (∀ (i : Instr) (s t : State), i ∈ [Instr.rdbit, .decb, .decu, .decbuf] → s.params.Legal →
    s.rlen.toNat ≤ s.params.inMax → s.CursorInBounds → exec i s = .next t → t.CursorInBounds) ∧
  ∀ (strided unwrap : Bool) (s t : State), exec (.openIo strided unwrap) s = .next t → ¬ t.halted → t.CursorInBounds

/-- WRBIT, ENCB, ENCU and ENCBUF change at most the writer (and STATUS and FINFO by a fault), and in memory at most the bytes
of OUT_MEM from the old OUT_LEN up to the new one. -/
def Obligations.WriterFrame : Prop :=
  ∀ (i : Instr) (s t : State), s.Inv → i ∈ [Instr.wrbit, .encb, .encu, .encbuf] → exec i s = .next t →
    t = { s with
      wbits := t.wbits, wacc := t.wacc, outLen := t.outLen, outCap := t.outCap, outMem := t.outMem
      status := t.status, finfo := t.finfo } ∧
    s.outLen.toNat ≤ t.outLen.toNat ∧
    (∀ a, a < s.outLen.toNat ∨ t.outLen.toNat ≤ a → t.byteAt .out a = s.byteAt .out a) ∧
    ∀ a, t.byteAt .inp a = s.byteAt .inp a ∧ t.byteAt .buf a = s.byteAt .buf a

/-- GETOUT, LOCK, UNLOCK and DECBUF change at most BUF_MEM and BUF_LEN, DECBUF also RCUR and RESULT (and STATUS and FINFO by a
fault). GETOUT, LOCK and DECBUF store at most the bytes of BUF_MEM below the new BUF_LEN, and none when they fault; UNLOCK at
most the bytes below the old BUF_LEN less 32 (40_bitio.md section 2, 42_framing.md section 2, 43_codec.md section 4; the faults:
60_exceptions.md section 3). -/
def Obligations.StagingFrame : Prop :=
  ∀ (i : Instr) (s t : State), s.params.Legal → exec i s = .next t →
    ((∃ a b, i = .getout a b) ∨ i = .lock →
      t = { s with bufMem := t.bufMem, bufLen := t.bufLen, status := t.status, finfo := t.finfo } ∧
      (t.status ≠ s.status → t.bufMem = s.bufMem ∧ t.bufLen = s.bufLen) ∧
      ∀ a, t.bufLen.toNat ≤ a → t.byteAt .buf a = s.byteAt .buf a) ∧
    (i = .unlock →
      t = { s with bufMem := t.bufMem, bufLen := t.bufLen, status := t.status, finfo := t.finfo } ∧
      ∀ a, s.bufLen.toNat - 32 ≤ a → t.byteAt .buf a = s.byteAt .buf a) ∧
    (i = .decbuf →
      t = { s with
        rcur := t.rcur, result := t.result, bufMem := t.bufMem, bufLen := t.bufLen
        status := t.status, finfo := t.finfo } ∧
      (t.status ≠ s.status → t.bufMem = s.bufMem ∧ t.bufLen = s.bufLen ∧ t.result = s.result) ∧
      ∀ a, t.bufLen.toNat ≤ a → t.byteAt .buf a = s.byteAt .buf a)

/-- OPEN changes at most the reader, the writer's registers and, with UNLOCK, the bytes of IN_MEM below IN_LEN less 32 (and
STATUS and FINFO by a fault); HASH changes at most DIGEST (and STATUS and FINFO by a fault)
(40_bitio.md section 2, 10_state.md section 4, 41_hash.md section 6). -/
def Obligations.OpenAndHashFrame : Prop :=
  ∀ (s t : State) (strided unwrap : Bool),
    (exec (.openIo strided unwrap) s = .next t →
      t = { s with
        inMem := t.inMem, mode := t.mode, rlen := t.rlen, rcur := t.rcur
        wbits := t.wbits, wacc := t.wacc, outLen := t.outLen, outCap := t.outCap
        status := t.status, finfo := t.finfo } ∧
      (unwrap = false → t.inMem = s.inMem) ∧
      (∀ a, s.inLen.toNat - 32 ≤ a → t.byteAt .inp a = s.byteAt .inp a) ∧
      ∀ a, t.byteAt .buf a = s.byteAt .buf a ∧ t.byteAt .out a = s.byteAt .out a) ∧
    (exec .hash s = .next t →
      t = { s with digest := t.digest, status := t.status, finfo := t.finfo } ∧
      ∀ sp a, t.byteAt sp a = s.byteAt sp a)

/-- Over all commands, what each writes (30_encoding.md section 4, the writes of the operand table): ARG0, ARG1 and IN_LEN only
RESET; DIGEST only HASH; RESULT only RDBIT, DECB, DECU, DECBUF; BUF_MEM and BUF_LEN only GETOUT, LOCK, UNLOCK, DECBUF; MODE and
RLEN only OPEN; the writer only OPEN and the encode commands; IN_MEM only OPEN with UNLOCK; OUT_MEM only the encode commands
(RESET writes every register). No command changes the parameters, the count of power-on resets or the host's own lists. -/
def Obligations.OnlyListedCommandsWrite : Prop :=
  ∀ (i : Instr) (s t : State), exec i s = .next t →
    (t.params = s.params ∧ t.powerCycles = s.powerCycles ∧ t.pending = s.pending ∧ t.replies = s.replies) ∧
    (i ≠ .reset → t.arg0 = s.arg0 ∧ t.arg1 = s.arg1 ∧ t.inLen = s.inLen) ∧
    (i ∉ [Instr.reset, .hash] → t.digest = s.digest) ∧
    (i ∉ [Instr.reset, .rdbit, .decb, .decu, .decbuf] → t.result = s.result) ∧
    ((∀ a b, i ≠ .getout a b) → i ∉ [Instr.lock, .unlock, .decbuf] →
      t.bufMem = s.bufMem ∧ (i ≠ .reset → t.bufLen = s.bufLen)) ∧
    ((∀ a b, i ≠ .openIo a b) → i ≠ .reset → t.mode = s.mode ∧ t.rlen = s.rlen) ∧
    ((∀ a b, i ≠ .openIo a b) → i ∉ [Instr.reset, .seek, .rdbit, .decb, .decu, .decbuf] → t.rcur = s.rcur) ∧
    ((∀ a b, i ≠ .openIo a b) → i ∉ [Instr.reset, .wrbit, .encb, .encu, .encbuf] →
      t.wbits = s.wbits ∧ t.wacc = s.wacc ∧ t.outLen = s.outLen ∧ t.outCap = s.outCap) ∧
    ((∀ a, i ≠ .openIo a true) → t.inMem = s.inMem) ∧
    (i ∉ [Instr.wrbit, .encb, .encu, .encbuf] → t.outMem = s.outMem)

/-! ### Invariants and safety -/

/-- Every step keeps the invariant: the legal STATUS, the canonical memories, RLEN at most IN_MAX, and the writer's bounds
(10_state.md sections 3 and 5). -/
def Obligations.StepKeepsInvariant : Prop :=
  ∀ s t : State, s.Inv → step s = .next t → t.Inv

/-- The state after reset has the invariant, for every legal choice of the parameters. -/
def Obligations.ResetHasInvariant : Prop := ∀ p : Params, p.Legal → (State.resetWith p).Inv

/-- From every state of the invariant no step faults: every engine access is inside its memory (20_memory.md section 1, the
sentence marked derived). -/
def Obligations.StepNeverLeavesMemory : Prop :=
  ∀ (s : State) (r : Fault), s.Inv → step s ≠ .fault r

/-! ### The host's side -/

/-- The address map (20_memory.md section 2) for legal parameters: what stands at each offset from OMK_BASE, and that OMK_BASE
is added to every address. That an address below OMK_BASE is unmapped, and that the place inside a register is judged by the
offset, are the model's choices (logs 2 and 19). -/
def Obligations.AddressMap : Prop :=
  (∀ (p : Params) (off : Nat), p.Legal →
    (∀ r : Reg, locationAt p off = some (.reg r) ↔ off = r.offset.toNat) ∧
    (locationAt p off = some .insideReg ↔ off < 0x40 ∧ off % 4 ≠ 0) ∧
    (∀ j : Fin 32, locationAt p off = some (.digestByte j) ↔ off = 0x40 + j) ∧
    (∀ a, locationAt p off = some (.memByte .inp a) ↔ off = 0x10000000 + a ∧ a < p.inMax) ∧
    (∀ a, locationAt p off = some (.memByte .buf a) ↔ off = 0x20000000 + a ∧ a < p.bufMax) ∧
    (∀ a, locationAt p off = some (.memByte .out a) ↔ off = 0x30000000 + a ∧ a < p.outMax)) ∧
  ∀ (p : Params) (addr : Word),
    (p.base.toNat ≤ addr.toNat → locate p addr = locationAt p (addr.toNat - p.base.toNat)) ∧
    (addr.toNat < p.base.toNat → locate p addr = none)

/-- 10_state.md R48: a host write to a read-only register, to a byte of DIGEST or to OUT_MEM has no effect; ARG0, ARG1, IN_LEN
and BUF_LEN hold all 32 bits as written. -/
def Obligations.HostRegisterWrites : Prop :=
  ∀ (s : State) (addr : Word),
    (∀ (w : Word) (r : Reg), locate s.params addr = some (.reg r) →
      (r = .arg0 → hostAccess (.write32 addr w) s = .next { s with arg0 := w }) ∧
      (r = .arg1 → hostAccess (.write32 addr w) s = .next { s with arg1 := w }) ∧
      (r = .inLen → hostAccess (.write32 addr w) s = .next { s with inLen := w }) ∧
      (r = .bufLen → hostAccess (.write32 addr w) s = .next { s with bufLen := w }) ∧
      (r ∈ [Reg.status, .finfo, .result, .mode, .rlen, .rcur, .wbits, .wacc, .outLen, .outCap, .id] →
        hostAccess (.write32 addr w) s = .next s)) ∧
    (∀ (b : Byte) (a : Nat), locate s.params addr = some (.memByte .out a) → hostAccess (.write8 addr b) s = .next s) ∧
    (∀ (b : Byte) (j : Fin 32), locate s.params addr = some (.digestByte j) → hostAccess (.write8 addr b) s = .next s)

/-- A byte the host writes to IN_MEM or BUF_MEM is stored, and every other byte and every register is unchanged (20_memory.md
sections 3 and 5). -/
def Obligations.HostByteWriteStores : Prop :=
  ∀ (s : State) (rest : List Input) (addr : Word) (b : Byte) (sp : Space) (a : Nat),
    s.pending = .access (.write8 addr b) :: rest → locate s.params addr = some (.memByte sp a) → sp ≠ .out →
    ∃ t, step s = .next t ∧ t = { s with pending := rest, inMem := t.inMem, bufMem := t.bufMem } ∧
      t.byteAt sp a = b ∧ ∀ sp' a', (sp' ≠ sp ∨ a' ≠ a) → t.byteAt sp' a' = s.byteAt sp' a'

/-- A host read returns the location's value and has no side effect, so that a second read returns the same (20_memory.md
section 5); the value of a register is 0 for CMD, the constant for ID, the field without its reserved bits for STATUS, MODE and
WACC, and the field itself for every other (10_state.md section 3; log 14). That the returned value is kept in the list of
replies is the model's choice (log 5). -/
def Obligations.HostReadsReturnTwiceTheSame : Prop :=
  (∀ (s : State) (rest : List Input) (addr : Word),
    (∀ r : Reg, s.pending = .access (.read32 addr) :: .access (.read32 addr) :: rest →
      locate s.params addr = some (.reg r) →
      core.run 2 s = .next { s with
        pending := rest, replies := s.replies ++ [.word (readReg s r), .word (readReg s r)] }) ∧
    (∀ (sp : Space) (a : Nat), s.pending = .access (.read8 addr) :: .access (.read8 addr) :: rest →
      locate s.params addr = some (.memByte sp a) →
      core.run 2 s = .next { s with
        pending := rest, replies := s.replies ++ [.byte (s.byteAt sp a), .byte (s.byteAt sp a)] }) ∧
    (∀ j : Fin 32, s.pending = .access (.read8 addr) :: .access (.read8 addr) :: rest →
      locate s.params addr = some (.digestByte j) →
      core.run 2 s = .next { s with
        pending := rest, replies := s.replies ++ [.byte s.digest[j], .byte s.digest[j]] })) ∧
  ∀ s : State,
    (readReg s .cmd = 0 ∧ readReg s .id = 0x4F4D4B01) ∧
    (∀ i, (readReg s .status).getLsbD i = (decide (i = 0 ∨ 4 ≤ i ∧ i < 8) && s.status.getLsbD i)) ∧
    (∀ i, (readReg s .mode).getLsbD i = (decide (i = 0) && s.mode.getLsbD i)) ∧
    (∀ i, (readReg s .wacc).getLsbD i = (decide (i < 8) && s.wacc.getLsbD i)) ∧
    readReg s .finfo = s.finfo ∧ readReg s .arg0 = s.arg0 ∧ readReg s .arg1 = s.arg1 ∧ readReg s .result = s.result ∧
    readReg s .inLen = s.inLen ∧ readReg s .bufLen = s.bufLen ∧ readReg s .rlen = s.rlen ∧ readReg s .rcur = s.rcur ∧
    readReg s .wbits = s.wbits ∧ readReg s .outLen = s.outLen ∧ readReg s .outCap = s.outCap

/-- Host accesses without a defined response (20_memory.md section 2): the model refuses a host access to an unmapped address,
a 32-bit access to a byte location or inside a register, and an 8-bit access to a 32-bit register. -/
def Obligations.HostAccessRefusals : Prop :=
  ∀ (s : State) (rest : List Input) (addr w : Word) (b : Byte),
    (s.pending = .access (.write32 addr w) :: rest ∨ s.pending = .access (.read32 addr) :: rest →
      (locate s.params addr = none → step s = .refused (.unmappedAddress addr)) ∧
      (locate s.params addr = some .insideReg → step s = .refused (.misalignedAccess addr)) ∧
      (∀ sp a, locate s.params addr = some (.memByte sp a) → step s = .refused (.wrongWidth addr)) ∧
      (∀ j, locate s.params addr = some (.digestByte j) → step s = .refused (.wrongWidth addr))) ∧
    (s.pending = .access (.write8 addr b) :: rest ∨ s.pending = .access (.read8 addr) :: rest →
      (locate s.params addr = none → step s = .refused (.unmappedAddress addr)) ∧
      (locate s.params addr = some .insideReg → step s = .refused (.wrongWidth addr)) ∧
      (∀ r, locate s.params addr = some (.reg r) → step s = .refused (.wrongWidth addr)))

/-- The pseudo-instruction `encb num, max` (30_encoding.md section 5): its three host operations are the two operand writes and
the ENCB command. -/
def Obligations.PseudoEncbPerforms : Prop :=
  ∀ (s : State) (num max : Word) (rest : List Input),
    s.params.base.toNat + 0x40 ≤ 2 ^ 32 → s.pending = Pseudo.expand s.params.base (.encb num max) ++ rest →
    core.run 3 s = exec .encb { s with pending := rest, arg0 := num, arg1 := max }

/-! ### What results cannot depend on -/

/-- No result of any command depends on OUT_CAP; only the register shows it (10_state.md section 3, OUT_CAP): from two states
that differ only in OUT_CAP a command ends in states that differ only in OUT_CAP. -/
def Obligations.OutCapNeverMatters : Prop :=
  ∀ (i : Instr) (s t : State) (k : Word), exec i s = .next t →
    ∃ k', exec i { s with outCap := k } = .next { t with outCap := k' }

/-- No command's result depends on the power-on contents of the memories, as long as the bytes its lengths name have been
written (70_reset_and_hazards.md section 1): with another draw of those contents the command ends the same. -/
def Obligations.PowerOnContentsNeverMatter : Prop :=
  ∀ (i : Instr) (s t : State) (n : Nat),
    (∀ a, a < s.inLen.toNat ∨ a < s.rlen.toNat → (Memory.lookup s.inMem a).isSome = true) →
    (∀ a, a < s.bufLen.toNat → (Memory.lookup s.bufMem a).isSome = true) →
    (∀ a, a < s.outLen.toNat → (Memory.lookup s.outMem a).isSome = true) →
    exec i s = .next t → exec i { s with powerCycles := n } = .next { t with powerCycles := n }
end

