-- ==== Sys2Proof/Laws/State.lean ====
section
/-! SUPPORT. What each update of the state does to each field, and how a memory update shows in the memories. -/

namespace Sys2Proof.Machine

variable (s : State)

@[simp] theorem State.setFault_params (a b : Word) : (s.setFault a b).params = s.params := rfl
@[simp] theorem State.setFault_status (a b : Word) : (s.setFault a b).status = a := rfl
@[simp] theorem State.setFault_finfo (a b : Word) : (s.setFault a b).finfo = b := rfl
@[simp] theorem State.setFault_arg0 (a b : Word) : (s.setFault a b).arg0 = s.arg0 := rfl
@[simp] theorem State.setFault_arg1 (a b : Word) : (s.setFault a b).arg1 = s.arg1 := rfl
@[simp] theorem State.setFault_result (a b : Word) : (s.setFault a b).result = s.result := rfl
@[simp] theorem State.setFault_inLen (a b : Word) : (s.setFault a b).inLen = s.inLen := rfl
@[simp] theorem State.setFault_bufLen (a b : Word) : (s.setFault a b).bufLen = s.bufLen := rfl
@[simp] theorem State.setFault_mode (a b : Word) : (s.setFault a b).mode = s.mode := rfl
@[simp] theorem State.setFault_rlen (a b : Word) : (s.setFault a b).rlen = s.rlen := rfl
@[simp] theorem State.setFault_rcur (a b : Word) : (s.setFault a b).rcur = s.rcur := rfl
@[simp] theorem State.setFault_wbits (a b : Word) : (s.setFault a b).wbits = s.wbits := rfl
@[simp] theorem State.setFault_wacc (a b : Word) : (s.setFault a b).wacc = s.wacc := rfl
@[simp] theorem State.setFault_outLen (a b : Word) : (s.setFault a b).outLen = s.outLen := rfl
@[simp] theorem State.setFault_outCap (a b : Word) : (s.setFault a b).outCap = s.outCap := rfl
@[simp] theorem State.setFault_digest (a b : Word) : (s.setFault a b).digest = s.digest := rfl
@[simp] theorem State.setFault_inMem (a b : Word) : (s.setFault a b).inMem = s.inMem := rfl
@[simp] theorem State.setFault_bufMem (a b : Word) : (s.setFault a b).bufMem = s.bufMem := rfl
@[simp] theorem State.setFault_outMem (a b : Word) : (s.setFault a b).outMem = s.outMem := rfl
@[simp] theorem State.setFault_powerCycles (a b : Word) : (s.setFault a b).powerCycles = s.powerCycles := rfl
@[simp] theorem State.setFault_pending (a b : Word) : (s.setFault a b).pending = s.pending := rfl
@[simp] theorem State.setFault_replies (a b : Word) : (s.setFault a b).replies = s.replies := rfl
@[simp] theorem State.setFault_mem (a b : Word) (sp : Space) : (s.setFault a b).mem sp = s.mem sp := by cases sp <;> rfl

@[simp] theorem State.setRcur_params (v : Word) : (s.setRcur v).params = s.params := rfl
@[simp] theorem State.setRcur_status (v : Word) : (s.setRcur v).status = s.status := rfl
@[simp] theorem State.setRcur_finfo (v : Word) : (s.setRcur v).finfo = s.finfo := rfl
@[simp] theorem State.setRcur_arg0 (v : Word) : (s.setRcur v).arg0 = s.arg0 := rfl
@[simp] theorem State.setRcur_arg1 (v : Word) : (s.setRcur v).arg1 = s.arg1 := rfl
@[simp] theorem State.setRcur_result (v : Word) : (s.setRcur v).result = s.result := rfl
@[simp] theorem State.setRcur_inLen (v : Word) : (s.setRcur v).inLen = s.inLen := rfl
@[simp] theorem State.setRcur_bufLen (v : Word) : (s.setRcur v).bufLen = s.bufLen := rfl
@[simp] theorem State.setRcur_mode (v : Word) : (s.setRcur v).mode = s.mode := rfl
@[simp] theorem State.setRcur_rlen (v : Word) : (s.setRcur v).rlen = s.rlen := rfl
@[simp] theorem State.setRcur_rcur (v : Word) : (s.setRcur v).rcur = v := rfl
@[simp] theorem State.setRcur_wbits (v : Word) : (s.setRcur v).wbits = s.wbits := rfl
@[simp] theorem State.setRcur_wacc (v : Word) : (s.setRcur v).wacc = s.wacc := rfl
@[simp] theorem State.setRcur_outLen (v : Word) : (s.setRcur v).outLen = s.outLen := rfl
@[simp] theorem State.setRcur_outCap (v : Word) : (s.setRcur v).outCap = s.outCap := rfl
@[simp] theorem State.setRcur_digest (v : Word) : (s.setRcur v).digest = s.digest := rfl
@[simp] theorem State.setRcur_inMem (v : Word) : (s.setRcur v).inMem = s.inMem := rfl
@[simp] theorem State.setRcur_bufMem (v : Word) : (s.setRcur v).bufMem = s.bufMem := rfl
@[simp] theorem State.setRcur_outMem (v : Word) : (s.setRcur v).outMem = s.outMem := rfl
@[simp] theorem State.setRcur_powerCycles (v : Word) : (s.setRcur v).powerCycles = s.powerCycles := rfl
@[simp] theorem State.setRcur_pending (v : Word) : (s.setRcur v).pending = s.pending := rfl
@[simp] theorem State.setRcur_replies (v : Word) : (s.setRcur v).replies = s.replies := rfl
@[simp] theorem State.setRcur_mem (v : Word) (sp : Space) : (s.setRcur v).mem sp = s.mem sp := by cases sp <;> rfl

@[simp] theorem State.setResult_params (v : Word) : (s.setResult v).params = s.params := rfl
@[simp] theorem State.setResult_status (v : Word) : (s.setResult v).status = s.status := rfl
@[simp] theorem State.setResult_finfo (v : Word) : (s.setResult v).finfo = s.finfo := rfl
@[simp] theorem State.setResult_arg0 (v : Word) : (s.setResult v).arg0 = s.arg0 := rfl
@[simp] theorem State.setResult_arg1 (v : Word) : (s.setResult v).arg1 = s.arg1 := rfl
@[simp] theorem State.setResult_result (v : Word) : (s.setResult v).result = v := rfl
@[simp] theorem State.setResult_inLen (v : Word) : (s.setResult v).inLen = s.inLen := rfl
@[simp] theorem State.setResult_bufLen (v : Word) : (s.setResult v).bufLen = s.bufLen := rfl
@[simp] theorem State.setResult_mode (v : Word) : (s.setResult v).mode = s.mode := rfl
@[simp] theorem State.setResult_rlen (v : Word) : (s.setResult v).rlen = s.rlen := rfl
@[simp] theorem State.setResult_rcur (v : Word) : (s.setResult v).rcur = s.rcur := rfl
@[simp] theorem State.setResult_wbits (v : Word) : (s.setResult v).wbits = s.wbits := rfl
@[simp] theorem State.setResult_wacc (v : Word) : (s.setResult v).wacc = s.wacc := rfl
@[simp] theorem State.setResult_outLen (v : Word) : (s.setResult v).outLen = s.outLen := rfl
@[simp] theorem State.setResult_outCap (v : Word) : (s.setResult v).outCap = s.outCap := rfl
@[simp] theorem State.setResult_digest (v : Word) : (s.setResult v).digest = s.digest := rfl
@[simp] theorem State.setResult_inMem (v : Word) : (s.setResult v).inMem = s.inMem := rfl
@[simp] theorem State.setResult_bufMem (v : Word) : (s.setResult v).bufMem = s.bufMem := rfl
@[simp] theorem State.setResult_outMem (v : Word) : (s.setResult v).outMem = s.outMem := rfl
@[simp] theorem State.setResult_powerCycles (v : Word) : (s.setResult v).powerCycles = s.powerCycles := rfl
@[simp] theorem State.setResult_pending (v : Word) : (s.setResult v).pending = s.pending := rfl
@[simp] theorem State.setResult_replies (v : Word) : (s.setResult v).replies = s.replies := rfl
@[simp] theorem State.setResult_mem (v : Word) (sp : Space) : (s.setResult v).mem sp = s.mem sp := by cases sp <;> rfl

@[simp] theorem State.setReader_params (a b c : Word) : (s.setReader a b c).params = s.params := rfl
@[simp] theorem State.setReader_status (a b c : Word) : (s.setReader a b c).status = s.status := rfl
@[simp] theorem State.setReader_finfo (a b c : Word) : (s.setReader a b c).finfo = s.finfo := rfl
@[simp] theorem State.setReader_arg0 (a b c : Word) : (s.setReader a b c).arg0 = s.arg0 := rfl
@[simp] theorem State.setReader_arg1 (a b c : Word) : (s.setReader a b c).arg1 = s.arg1 := rfl
@[simp] theorem State.setReader_result (a b c : Word) : (s.setReader a b c).result = s.result := rfl
@[simp] theorem State.setReader_inLen (a b c : Word) : (s.setReader a b c).inLen = s.inLen := rfl
@[simp] theorem State.setReader_bufLen (a b c : Word) : (s.setReader a b c).bufLen = s.bufLen := rfl
@[simp] theorem State.setReader_mode (a b c : Word) : (s.setReader a b c).mode = a := rfl
@[simp] theorem State.setReader_rlen (a b c : Word) : (s.setReader a b c).rlen = b := rfl
@[simp] theorem State.setReader_rcur (a b c : Word) : (s.setReader a b c).rcur = c := rfl
@[simp] theorem State.setReader_wbits (a b c : Word) : (s.setReader a b c).wbits = s.wbits := rfl
@[simp] theorem State.setReader_wacc (a b c : Word) : (s.setReader a b c).wacc = s.wacc := rfl
@[simp] theorem State.setReader_outLen (a b c : Word) : (s.setReader a b c).outLen = s.outLen := rfl
@[simp] theorem State.setReader_outCap (a b c : Word) : (s.setReader a b c).outCap = s.outCap := rfl
@[simp] theorem State.setReader_digest (a b c : Word) : (s.setReader a b c).digest = s.digest := rfl
@[simp] theorem State.setReader_inMem (a b c : Word) : (s.setReader a b c).inMem = s.inMem := rfl
@[simp] theorem State.setReader_bufMem (a b c : Word) : (s.setReader a b c).bufMem = s.bufMem := rfl
@[simp] theorem State.setReader_outMem (a b c : Word) : (s.setReader a b c).outMem = s.outMem := rfl
@[simp] theorem State.setReader_powerCycles (a b c : Word) : (s.setReader a b c).powerCycles = s.powerCycles := rfl
@[simp] theorem State.setReader_pending (a b c : Word) : (s.setReader a b c).pending = s.pending := rfl
@[simp] theorem State.setReader_replies (a b c : Word) : (s.setReader a b c).replies = s.replies := rfl
@[simp] theorem State.setReader_mem (a b c : Word) (sp : Space) : (s.setReader a b c).mem sp = s.mem sp := by cases sp <;> rfl

@[simp] theorem State.setWriter_params (a b c d : Word) : (s.setWriter a b c d).params = s.params := rfl
@[simp] theorem State.setWriter_status (a b c d : Word) : (s.setWriter a b c d).status = s.status := rfl
@[simp] theorem State.setWriter_finfo (a b c d : Word) : (s.setWriter a b c d).finfo = s.finfo := rfl
@[simp] theorem State.setWriter_arg0 (a b c d : Word) : (s.setWriter a b c d).arg0 = s.arg0 := rfl
@[simp] theorem State.setWriter_arg1 (a b c d : Word) : (s.setWriter a b c d).arg1 = s.arg1 := rfl
@[simp] theorem State.setWriter_result (a b c d : Word) : (s.setWriter a b c d).result = s.result := rfl
@[simp] theorem State.setWriter_inLen (a b c d : Word) : (s.setWriter a b c d).inLen = s.inLen := rfl
@[simp] theorem State.setWriter_bufLen (a b c d : Word) : (s.setWriter a b c d).bufLen = s.bufLen := rfl
@[simp] theorem State.setWriter_mode (a b c d : Word) : (s.setWriter a b c d).mode = s.mode := rfl
@[simp] theorem State.setWriter_rlen (a b c d : Word) : (s.setWriter a b c d).rlen = s.rlen := rfl
@[simp] theorem State.setWriter_rcur (a b c d : Word) : (s.setWriter a b c d).rcur = s.rcur := rfl
@[simp] theorem State.setWriter_wbits (a b c d : Word) : (s.setWriter a b c d).wbits = a := rfl
@[simp] theorem State.setWriter_wacc (a b c d : Word) : (s.setWriter a b c d).wacc = b := rfl
@[simp] theorem State.setWriter_outLen (a b c d : Word) : (s.setWriter a b c d).outLen = c := rfl
@[simp] theorem State.setWriter_outCap (a b c d : Word) : (s.setWriter a b c d).outCap = d := rfl
@[simp] theorem State.setWriter_digest (a b c d : Word) : (s.setWriter a b c d).digest = s.digest := rfl
@[simp] theorem State.setWriter_inMem (a b c d : Word) : (s.setWriter a b c d).inMem = s.inMem := rfl
@[simp] theorem State.setWriter_bufMem (a b c d : Word) : (s.setWriter a b c d).bufMem = s.bufMem := rfl
@[simp] theorem State.setWriter_outMem (a b c d : Word) : (s.setWriter a b c d).outMem = s.outMem := rfl
@[simp] theorem State.setWriter_powerCycles (a b c d : Word) : (s.setWriter a b c d).powerCycles = s.powerCycles := rfl
@[simp] theorem State.setWriter_pending (a b c d : Word) : (s.setWriter a b c d).pending = s.pending := rfl
@[simp] theorem State.setWriter_replies (a b c d : Word) : (s.setWriter a b c d).replies = s.replies := rfl
@[simp] theorem State.setWriter_mem (a b c d : Word) (sp : Space) : (s.setWriter a b c d).mem sp = s.mem sp := by cases sp <;> rfl

@[simp] theorem State.setBufLen_params (v : Word) : (s.setBufLen v).params = s.params := rfl
@[simp] theorem State.setBufLen_status (v : Word) : (s.setBufLen v).status = s.status := rfl
@[simp] theorem State.setBufLen_finfo (v : Word) : (s.setBufLen v).finfo = s.finfo := rfl
@[simp] theorem State.setBufLen_arg0 (v : Word) : (s.setBufLen v).arg0 = s.arg0 := rfl
@[simp] theorem State.setBufLen_arg1 (v : Word) : (s.setBufLen v).arg1 = s.arg1 := rfl
@[simp] theorem State.setBufLen_result (v : Word) : (s.setBufLen v).result = s.result := rfl
@[simp] theorem State.setBufLen_inLen (v : Word) : (s.setBufLen v).inLen = s.inLen := rfl
@[simp] theorem State.setBufLen_bufLen (v : Word) : (s.setBufLen v).bufLen = v := rfl
@[simp] theorem State.setBufLen_mode (v : Word) : (s.setBufLen v).mode = s.mode := rfl
@[simp] theorem State.setBufLen_rlen (v : Word) : (s.setBufLen v).rlen = s.rlen := rfl
@[simp] theorem State.setBufLen_rcur (v : Word) : (s.setBufLen v).rcur = s.rcur := rfl
@[simp] theorem State.setBufLen_wbits (v : Word) : (s.setBufLen v).wbits = s.wbits := rfl
@[simp] theorem State.setBufLen_wacc (v : Word) : (s.setBufLen v).wacc = s.wacc := rfl
@[simp] theorem State.setBufLen_outLen (v : Word) : (s.setBufLen v).outLen = s.outLen := rfl
@[simp] theorem State.setBufLen_outCap (v : Word) : (s.setBufLen v).outCap = s.outCap := rfl
@[simp] theorem State.setBufLen_digest (v : Word) : (s.setBufLen v).digest = s.digest := rfl
@[simp] theorem State.setBufLen_inMem (v : Word) : (s.setBufLen v).inMem = s.inMem := rfl
@[simp] theorem State.setBufLen_bufMem (v : Word) : (s.setBufLen v).bufMem = s.bufMem := rfl
@[simp] theorem State.setBufLen_outMem (v : Word) : (s.setBufLen v).outMem = s.outMem := rfl
@[simp] theorem State.setBufLen_powerCycles (v : Word) : (s.setBufLen v).powerCycles = s.powerCycles := rfl
@[simp] theorem State.setBufLen_pending (v : Word) : (s.setBufLen v).pending = s.pending := rfl
@[simp] theorem State.setBufLen_replies (v : Word) : (s.setBufLen v).replies = s.replies := rfl
@[simp] theorem State.setBufLen_mem (v : Word) (sp : Space) : (s.setBufLen v).mem sp = s.mem sp := by cases sp <;> rfl

@[simp] theorem State.setDigest_params (d : Digest) : (s.setDigest d).params = s.params := rfl
@[simp] theorem State.setDigest_status (d : Digest) : (s.setDigest d).status = s.status := rfl
@[simp] theorem State.setDigest_finfo (d : Digest) : (s.setDigest d).finfo = s.finfo := rfl
@[simp] theorem State.setDigest_arg0 (d : Digest) : (s.setDigest d).arg0 = s.arg0 := rfl
@[simp] theorem State.setDigest_arg1 (d : Digest) : (s.setDigest d).arg1 = s.arg1 := rfl
@[simp] theorem State.setDigest_result (d : Digest) : (s.setDigest d).result = s.result := rfl
@[simp] theorem State.setDigest_inLen (d : Digest) : (s.setDigest d).inLen = s.inLen := rfl
@[simp] theorem State.setDigest_bufLen (d : Digest) : (s.setDigest d).bufLen = s.bufLen := rfl
@[simp] theorem State.setDigest_mode (d : Digest) : (s.setDigest d).mode = s.mode := rfl
@[simp] theorem State.setDigest_rlen (d : Digest) : (s.setDigest d).rlen = s.rlen := rfl
@[simp] theorem State.setDigest_rcur (d : Digest) : (s.setDigest d).rcur = s.rcur := rfl
@[simp] theorem State.setDigest_wbits (d : Digest) : (s.setDigest d).wbits = s.wbits := rfl
@[simp] theorem State.setDigest_wacc (d : Digest) : (s.setDigest d).wacc = s.wacc := rfl
@[simp] theorem State.setDigest_outLen (d : Digest) : (s.setDigest d).outLen = s.outLen := rfl
@[simp] theorem State.setDigest_outCap (d : Digest) : (s.setDigest d).outCap = s.outCap := rfl
@[simp] theorem State.setDigest_digest (d : Digest) : (s.setDigest d).digest = d := rfl
@[simp] theorem State.setDigest_inMem (d : Digest) : (s.setDigest d).inMem = s.inMem := rfl
@[simp] theorem State.setDigest_bufMem (d : Digest) : (s.setDigest d).bufMem = s.bufMem := rfl
@[simp] theorem State.setDigest_outMem (d : Digest) : (s.setDigest d).outMem = s.outMem := rfl
@[simp] theorem State.setDigest_powerCycles (d : Digest) : (s.setDigest d).powerCycles = s.powerCycles := rfl
@[simp] theorem State.setDigest_pending (d : Digest) : (s.setDigest d).pending = s.pending := rfl
@[simp] theorem State.setDigest_replies (d : Digest) : (s.setDigest d).replies = s.replies := rfl
@[simp] theorem State.setDigest_mem (d : Digest) (sp : Space) : (s.setDigest d).mem sp = s.mem sp := by cases sp <;> rfl

@[simp] theorem State.setArg0_params (v : Word) : (s.setArg0 v).params = s.params := rfl
@[simp] theorem State.setArg0_status (v : Word) : (s.setArg0 v).status = s.status := rfl
@[simp] theorem State.setArg0_finfo (v : Word) : (s.setArg0 v).finfo = s.finfo := rfl
@[simp] theorem State.setArg0_arg0 (v : Word) : (s.setArg0 v).arg0 = v := rfl
@[simp] theorem State.setArg0_arg1 (v : Word) : (s.setArg0 v).arg1 = s.arg1 := rfl
@[simp] theorem State.setArg0_result (v : Word) : (s.setArg0 v).result = s.result := rfl
@[simp] theorem State.setArg0_inLen (v : Word) : (s.setArg0 v).inLen = s.inLen := rfl
@[simp] theorem State.setArg0_bufLen (v : Word) : (s.setArg0 v).bufLen = s.bufLen := rfl
@[simp] theorem State.setArg0_mode (v : Word) : (s.setArg0 v).mode = s.mode := rfl
@[simp] theorem State.setArg0_rlen (v : Word) : (s.setArg0 v).rlen = s.rlen := rfl
@[simp] theorem State.setArg0_rcur (v : Word) : (s.setArg0 v).rcur = s.rcur := rfl
@[simp] theorem State.setArg0_wbits (v : Word) : (s.setArg0 v).wbits = s.wbits := rfl
@[simp] theorem State.setArg0_wacc (v : Word) : (s.setArg0 v).wacc = s.wacc := rfl
@[simp] theorem State.setArg0_outLen (v : Word) : (s.setArg0 v).outLen = s.outLen := rfl
@[simp] theorem State.setArg0_outCap (v : Word) : (s.setArg0 v).outCap = s.outCap := rfl
@[simp] theorem State.setArg0_digest (v : Word) : (s.setArg0 v).digest = s.digest := rfl
@[simp] theorem State.setArg0_inMem (v : Word) : (s.setArg0 v).inMem = s.inMem := rfl
@[simp] theorem State.setArg0_bufMem (v : Word) : (s.setArg0 v).bufMem = s.bufMem := rfl
@[simp] theorem State.setArg0_outMem (v : Word) : (s.setArg0 v).outMem = s.outMem := rfl
@[simp] theorem State.setArg0_powerCycles (v : Word) : (s.setArg0 v).powerCycles = s.powerCycles := rfl
@[simp] theorem State.setArg0_pending (v : Word) : (s.setArg0 v).pending = s.pending := rfl
@[simp] theorem State.setArg0_replies (v : Word) : (s.setArg0 v).replies = s.replies := rfl
@[simp] theorem State.setArg0_mem (v : Word) (sp : Space) : (s.setArg0 v).mem sp = s.mem sp := by cases sp <;> rfl

@[simp] theorem State.setArg1_params (v : Word) : (s.setArg1 v).params = s.params := rfl
@[simp] theorem State.setArg1_status (v : Word) : (s.setArg1 v).status = s.status := rfl
@[simp] theorem State.setArg1_finfo (v : Word) : (s.setArg1 v).finfo = s.finfo := rfl
@[simp] theorem State.setArg1_arg0 (v : Word) : (s.setArg1 v).arg0 = s.arg0 := rfl
@[simp] theorem State.setArg1_arg1 (v : Word) : (s.setArg1 v).arg1 = v := rfl
@[simp] theorem State.setArg1_result (v : Word) : (s.setArg1 v).result = s.result := rfl
@[simp] theorem State.setArg1_inLen (v : Word) : (s.setArg1 v).inLen = s.inLen := rfl
@[simp] theorem State.setArg1_bufLen (v : Word) : (s.setArg1 v).bufLen = s.bufLen := rfl
@[simp] theorem State.setArg1_mode (v : Word) : (s.setArg1 v).mode = s.mode := rfl
@[simp] theorem State.setArg1_rlen (v : Word) : (s.setArg1 v).rlen = s.rlen := rfl
@[simp] theorem State.setArg1_rcur (v : Word) : (s.setArg1 v).rcur = s.rcur := rfl
@[simp] theorem State.setArg1_wbits (v : Word) : (s.setArg1 v).wbits = s.wbits := rfl
@[simp] theorem State.setArg1_wacc (v : Word) : (s.setArg1 v).wacc = s.wacc := rfl
@[simp] theorem State.setArg1_outLen (v : Word) : (s.setArg1 v).outLen = s.outLen := rfl
@[simp] theorem State.setArg1_outCap (v : Word) : (s.setArg1 v).outCap = s.outCap := rfl
@[simp] theorem State.setArg1_digest (v : Word) : (s.setArg1 v).digest = s.digest := rfl
@[simp] theorem State.setArg1_inMem (v : Word) : (s.setArg1 v).inMem = s.inMem := rfl
@[simp] theorem State.setArg1_bufMem (v : Word) : (s.setArg1 v).bufMem = s.bufMem := rfl
@[simp] theorem State.setArg1_outMem (v : Word) : (s.setArg1 v).outMem = s.outMem := rfl
@[simp] theorem State.setArg1_powerCycles (v : Word) : (s.setArg1 v).powerCycles = s.powerCycles := rfl
@[simp] theorem State.setArg1_pending (v : Word) : (s.setArg1 v).pending = s.pending := rfl
@[simp] theorem State.setArg1_replies (v : Word) : (s.setArg1 v).replies = s.replies := rfl
@[simp] theorem State.setArg1_mem (v : Word) (sp : Space) : (s.setArg1 v).mem sp = s.mem sp := by cases sp <;> rfl

@[simp] theorem State.setInLen_params (v : Word) : (s.setInLen v).params = s.params := rfl
@[simp] theorem State.setInLen_status (v : Word) : (s.setInLen v).status = s.status := rfl
@[simp] theorem State.setInLen_finfo (v : Word) : (s.setInLen v).finfo = s.finfo := rfl
@[simp] theorem State.setInLen_arg0 (v : Word) : (s.setInLen v).arg0 = s.arg0 := rfl
@[simp] theorem State.setInLen_arg1 (v : Word) : (s.setInLen v).arg1 = s.arg1 := rfl
@[simp] theorem State.setInLen_result (v : Word) : (s.setInLen v).result = s.result := rfl
@[simp] theorem State.setInLen_inLen (v : Word) : (s.setInLen v).inLen = v := rfl
@[simp] theorem State.setInLen_bufLen (v : Word) : (s.setInLen v).bufLen = s.bufLen := rfl
@[simp] theorem State.setInLen_mode (v : Word) : (s.setInLen v).mode = s.mode := rfl
@[simp] theorem State.setInLen_rlen (v : Word) : (s.setInLen v).rlen = s.rlen := rfl
@[simp] theorem State.setInLen_rcur (v : Word) : (s.setInLen v).rcur = s.rcur := rfl
@[simp] theorem State.setInLen_wbits (v : Word) : (s.setInLen v).wbits = s.wbits := rfl
@[simp] theorem State.setInLen_wacc (v : Word) : (s.setInLen v).wacc = s.wacc := rfl
@[simp] theorem State.setInLen_outLen (v : Word) : (s.setInLen v).outLen = s.outLen := rfl
@[simp] theorem State.setInLen_outCap (v : Word) : (s.setInLen v).outCap = s.outCap := rfl
@[simp] theorem State.setInLen_digest (v : Word) : (s.setInLen v).digest = s.digest := rfl
@[simp] theorem State.setInLen_inMem (v : Word) : (s.setInLen v).inMem = s.inMem := rfl
@[simp] theorem State.setInLen_bufMem (v : Word) : (s.setInLen v).bufMem = s.bufMem := rfl
@[simp] theorem State.setInLen_outMem (v : Word) : (s.setInLen v).outMem = s.outMem := rfl
@[simp] theorem State.setInLen_powerCycles (v : Word) : (s.setInLen v).powerCycles = s.powerCycles := rfl
@[simp] theorem State.setInLen_pending (v : Word) : (s.setInLen v).pending = s.pending := rfl
@[simp] theorem State.setInLen_replies (v : Word) : (s.setInLen v).replies = s.replies := rfl
@[simp] theorem State.setInLen_mem (v : Word) (sp : Space) : (s.setInLen v).mem sp = s.mem sp := by cases sp <;> rfl

@[simp] theorem State.setPending_params (l : List Input) : (s.setPending l).params = s.params := rfl
@[simp] theorem State.setPending_status (l : List Input) : (s.setPending l).status = s.status := rfl
@[simp] theorem State.setPending_finfo (l : List Input) : (s.setPending l).finfo = s.finfo := rfl
@[simp] theorem State.setPending_arg0 (l : List Input) : (s.setPending l).arg0 = s.arg0 := rfl
@[simp] theorem State.setPending_arg1 (l : List Input) : (s.setPending l).arg1 = s.arg1 := rfl
@[simp] theorem State.setPending_result (l : List Input) : (s.setPending l).result = s.result := rfl
@[simp] theorem State.setPending_inLen (l : List Input) : (s.setPending l).inLen = s.inLen := rfl
@[simp] theorem State.setPending_bufLen (l : List Input) : (s.setPending l).bufLen = s.bufLen := rfl
@[simp] theorem State.setPending_mode (l : List Input) : (s.setPending l).mode = s.mode := rfl
@[simp] theorem State.setPending_rlen (l : List Input) : (s.setPending l).rlen = s.rlen := rfl
@[simp] theorem State.setPending_rcur (l : List Input) : (s.setPending l).rcur = s.rcur := rfl
@[simp] theorem State.setPending_wbits (l : List Input) : (s.setPending l).wbits = s.wbits := rfl
@[simp] theorem State.setPending_wacc (l : List Input) : (s.setPending l).wacc = s.wacc := rfl
@[simp] theorem State.setPending_outLen (l : List Input) : (s.setPending l).outLen = s.outLen := rfl
@[simp] theorem State.setPending_outCap (l : List Input) : (s.setPending l).outCap = s.outCap := rfl
@[simp] theorem State.setPending_digest (l : List Input) : (s.setPending l).digest = s.digest := rfl
@[simp] theorem State.setPending_inMem (l : List Input) : (s.setPending l).inMem = s.inMem := rfl
@[simp] theorem State.setPending_bufMem (l : List Input) : (s.setPending l).bufMem = s.bufMem := rfl
@[simp] theorem State.setPending_outMem (l : List Input) : (s.setPending l).outMem = s.outMem := rfl
@[simp] theorem State.setPending_powerCycles (l : List Input) : (s.setPending l).powerCycles = s.powerCycles := rfl
@[simp] theorem State.setPending_pending (l : List Input) : (s.setPending l).pending = l := rfl
@[simp] theorem State.setPending_replies (l : List Input) : (s.setPending l).replies = s.replies := rfl
@[simp] theorem State.setPending_mem (l : List Input) (sp : Space) : (s.setPending l).mem sp = s.mem sp := by cases sp <;> rfl

@[simp] theorem State.addReply_params (r : Reply) : (s.addReply r).params = s.params := rfl
@[simp] theorem State.addReply_status (r : Reply) : (s.addReply r).status = s.status := rfl
@[simp] theorem State.addReply_finfo (r : Reply) : (s.addReply r).finfo = s.finfo := rfl
@[simp] theorem State.addReply_arg0 (r : Reply) : (s.addReply r).arg0 = s.arg0 := rfl
@[simp] theorem State.addReply_arg1 (r : Reply) : (s.addReply r).arg1 = s.arg1 := rfl
@[simp] theorem State.addReply_result (r : Reply) : (s.addReply r).result = s.result := rfl
@[simp] theorem State.addReply_inLen (r : Reply) : (s.addReply r).inLen = s.inLen := rfl
@[simp] theorem State.addReply_bufLen (r : Reply) : (s.addReply r).bufLen = s.bufLen := rfl
@[simp] theorem State.addReply_mode (r : Reply) : (s.addReply r).mode = s.mode := rfl
@[simp] theorem State.addReply_rlen (r : Reply) : (s.addReply r).rlen = s.rlen := rfl
@[simp] theorem State.addReply_rcur (r : Reply) : (s.addReply r).rcur = s.rcur := rfl
@[simp] theorem State.addReply_wbits (r : Reply) : (s.addReply r).wbits = s.wbits := rfl
@[simp] theorem State.addReply_wacc (r : Reply) : (s.addReply r).wacc = s.wacc := rfl
@[simp] theorem State.addReply_outLen (r : Reply) : (s.addReply r).outLen = s.outLen := rfl
@[simp] theorem State.addReply_outCap (r : Reply) : (s.addReply r).outCap = s.outCap := rfl
@[simp] theorem State.addReply_digest (r : Reply) : (s.addReply r).digest = s.digest := rfl
@[simp] theorem State.addReply_inMem (r : Reply) : (s.addReply r).inMem = s.inMem := rfl
@[simp] theorem State.addReply_bufMem (r : Reply) : (s.addReply r).bufMem = s.bufMem := rfl
@[simp] theorem State.addReply_outMem (r : Reply) : (s.addReply r).outMem = s.outMem := rfl
@[simp] theorem State.addReply_powerCycles (r : Reply) : (s.addReply r).powerCycles = s.powerCycles := rfl
@[simp] theorem State.addReply_pending (r : Reply) : (s.addReply r).pending = s.pending := rfl
@[simp] theorem State.addReply_replies (r : Reply) : (s.addReply r).replies = s.replies ++ [r] := rfl
@[simp] theorem State.addReply_mem (r : Reply) (sp : Space) : (s.addReply r).mem sp = s.mem sp := by cases sp <;> rfl

@[simp] theorem State.setMem_params (sp : Space) (m : Memory) : (s.setMem sp m).params = s.params := by cases sp <;> rfl
@[simp] theorem State.setMem_status (sp : Space) (m : Memory) : (s.setMem sp m).status = s.status := by cases sp <;> rfl
@[simp] theorem State.setMem_finfo (sp : Space) (m : Memory) : (s.setMem sp m).finfo = s.finfo := by cases sp <;> rfl
@[simp] theorem State.setMem_arg0 (sp : Space) (m : Memory) : (s.setMem sp m).arg0 = s.arg0 := by cases sp <;> rfl
@[simp] theorem State.setMem_arg1 (sp : Space) (m : Memory) : (s.setMem sp m).arg1 = s.arg1 := by cases sp <;> rfl
@[simp] theorem State.setMem_result (sp : Space) (m : Memory) : (s.setMem sp m).result = s.result := by cases sp <;> rfl
@[simp] theorem State.setMem_inLen (sp : Space) (m : Memory) : (s.setMem sp m).inLen = s.inLen := by cases sp <;> rfl
@[simp] theorem State.setMem_bufLen (sp : Space) (m : Memory) : (s.setMem sp m).bufLen = s.bufLen := by cases sp <;> rfl
@[simp] theorem State.setMem_mode (sp : Space) (m : Memory) : (s.setMem sp m).mode = s.mode := by cases sp <;> rfl
@[simp] theorem State.setMem_rlen (sp : Space) (m : Memory) : (s.setMem sp m).rlen = s.rlen := by cases sp <;> rfl
@[simp] theorem State.setMem_rcur (sp : Space) (m : Memory) : (s.setMem sp m).rcur = s.rcur := by cases sp <;> rfl
@[simp] theorem State.setMem_wbits (sp : Space) (m : Memory) : (s.setMem sp m).wbits = s.wbits := by cases sp <;> rfl
@[simp] theorem State.setMem_wacc (sp : Space) (m : Memory) : (s.setMem sp m).wacc = s.wacc := by cases sp <;> rfl
@[simp] theorem State.setMem_outLen (sp : Space) (m : Memory) : (s.setMem sp m).outLen = s.outLen := by cases sp <;> rfl
@[simp] theorem State.setMem_outCap (sp : Space) (m : Memory) : (s.setMem sp m).outCap = s.outCap := by cases sp <;> rfl
@[simp] theorem State.setMem_digest (sp : Space) (m : Memory) : (s.setMem sp m).digest = s.digest := by cases sp <;> rfl
@[simp] theorem State.setMem_powerCycles (sp : Space) (m : Memory) : (s.setMem sp m).powerCycles = s.powerCycles := by cases sp <;> rfl
@[simp] theorem State.setMem_pending (sp : Space) (m : Memory) : (s.setMem sp m).pending = s.pending := by cases sp <;> rfl
@[simp] theorem State.setMem_replies (sp : Space) (m : Memory) : (s.setMem sp m).replies = s.replies := by cases sp <;> rfl

@[simp] theorem State.setMem_inp_inMem (m : Memory) : (s.setMem .inp m).inMem = m := rfl
@[simp] theorem State.setMem_inp_bufMem (m : Memory) : (s.setMem .inp m).bufMem = s.bufMem := rfl
@[simp] theorem State.setMem_inp_outMem (m : Memory) : (s.setMem .inp m).outMem = s.outMem := rfl
@[simp] theorem State.setMem_buf_inMem (m : Memory) : (s.setMem .buf m).inMem = s.inMem := rfl
@[simp] theorem State.setMem_buf_bufMem (m : Memory) : (s.setMem .buf m).bufMem = m := rfl
@[simp] theorem State.setMem_buf_outMem (m : Memory) : (s.setMem .buf m).outMem = s.outMem := rfl
@[simp] theorem State.setMem_out_inMem (m : Memory) : (s.setMem .out m).inMem = s.inMem := rfl
@[simp] theorem State.setMem_out_bufMem (m : Memory) : (s.setMem .out m).bufMem = s.bufMem := rfl
@[simp] theorem State.setMem_out_outMem (m : Memory) : (s.setMem .out m).outMem = m := rfl

@[simp] theorem State.mem_setMem_same (sp : Space) (m : Memory) : (s.setMem sp m).mem sp = m := by cases sp <;> rfl

@[simp] theorem State.mem_setMem_other {sp sp' : Space} (h : sp' ≠ sp) (m : Memory) : (s.setMem sp m).mem sp' = s.mem sp' := by
  cases sp <;> cases sp' <;> first | rfl | exact absurd rfl h

@[simp] theorem State.mem_inp : s.mem .inp = s.inMem := rfl
@[simp] theorem State.mem_buf : s.mem .buf = s.bufMem := rfl
@[simp] theorem State.mem_out : s.mem .out = s.outMem := rfl

@[simp] theorem resetAction_params : (resetAction s).params = s.params := rfl
@[simp] theorem resetAction_status : (resetAction s).status = 0 := rfl
@[simp] theorem resetAction_finfo : (resetAction s).finfo = 0 := rfl
@[simp] theorem resetAction_arg0 : (resetAction s).arg0 = 0 := rfl
@[simp] theorem resetAction_arg1 : (resetAction s).arg1 = 0 := rfl
@[simp] theorem resetAction_result : (resetAction s).result = 0 := rfl
@[simp] theorem resetAction_inLen : (resetAction s).inLen = 0 := rfl
@[simp] theorem resetAction_bufLen : (resetAction s).bufLen = 0 := rfl
@[simp] theorem resetAction_mode : (resetAction s).mode = 0 := rfl
@[simp] theorem resetAction_rlen : (resetAction s).rlen = 0 := rfl
@[simp] theorem resetAction_rcur : (resetAction s).rcur = 0 := rfl
@[simp] theorem resetAction_wbits : (resetAction s).wbits = 0 := rfl
@[simp] theorem resetAction_wacc : (resetAction s).wacc = 0 := rfl
@[simp] theorem resetAction_outLen : (resetAction s).outLen = 0 := rfl
@[simp] theorem resetAction_outCap : (resetAction s).outCap = BitVec.ofNat 32 s.params.outCap0 := rfl
@[simp] theorem resetAction_digest : (resetAction s).digest = Vector.replicate 32 0 := rfl
@[simp] theorem resetAction_inMem : (resetAction s).inMem = s.inMem := rfl
@[simp] theorem resetAction_bufMem : (resetAction s).bufMem = s.bufMem := rfl
@[simp] theorem resetAction_outMem : (resetAction s).outMem = s.outMem := rfl
@[simp] theorem resetAction_powerCycles : (resetAction s).powerCycles = s.powerCycles := rfl
@[simp] theorem resetAction_pending : (resetAction s).pending = s.pending := rfl
@[simp] theorem resetAction_replies : (resetAction s).replies = s.replies := rfl
@[simp] theorem resetAction_mem (sp : Space) : (resetAction s).mem sp = s.mem sp := by cases sp <;> rfl

@[simp] theorem powerOnAction_params : (powerOnAction s).params = s.params := rfl
@[simp] theorem powerOnAction_status : (powerOnAction s).status = 0 := rfl
@[simp] theorem powerOnAction_finfo : (powerOnAction s).finfo = 0 := rfl
@[simp] theorem powerOnAction_arg0 : (powerOnAction s).arg0 = 0 := rfl
@[simp] theorem powerOnAction_arg1 : (powerOnAction s).arg1 = 0 := rfl
@[simp] theorem powerOnAction_result : (powerOnAction s).result = 0 := rfl
@[simp] theorem powerOnAction_inLen : (powerOnAction s).inLen = 0 := rfl
@[simp] theorem powerOnAction_bufLen : (powerOnAction s).bufLen = 0 := rfl
@[simp] theorem powerOnAction_mode : (powerOnAction s).mode = 0 := rfl
@[simp] theorem powerOnAction_rlen : (powerOnAction s).rlen = 0 := rfl
@[simp] theorem powerOnAction_rcur : (powerOnAction s).rcur = 0 := rfl
@[simp] theorem powerOnAction_wbits : (powerOnAction s).wbits = 0 := rfl
@[simp] theorem powerOnAction_wacc : (powerOnAction s).wacc = 0 := rfl
@[simp] theorem powerOnAction_outLen : (powerOnAction s).outLen = 0 := rfl
@[simp] theorem powerOnAction_outCap : (powerOnAction s).outCap = BitVec.ofNat 32 s.params.outCap0 := rfl
@[simp] theorem powerOnAction_digest : (powerOnAction s).digest = Vector.replicate 32 0 := rfl
@[simp] theorem powerOnAction_inMem : (powerOnAction s).inMem = [] := rfl
@[simp] theorem powerOnAction_bufMem : (powerOnAction s).bufMem = [] := rfl
@[simp] theorem powerOnAction_outMem : (powerOnAction s).outMem = [] := rfl
@[simp] theorem powerOnAction_powerCycles : (powerOnAction s).powerCycles = s.powerCycles + 1 := rfl
@[simp] theorem powerOnAction_pending : (powerOnAction s).pending = s.pending := rfl
@[simp] theorem powerOnAction_replies : (powerOnAction s).replies = s.replies := rfl

@[simp] theorem faultEntry_params (c : FaultCode) (w : Word) : (faultEntry c w s).params = s.params := rfl
@[simp] theorem faultEntry_status (c : FaultCode) (w : Word) : (faultEntry c w s).status = c.status := rfl
@[simp] theorem faultEntry_finfo (c : FaultCode) (w : Word) : (faultEntry c w s).finfo = w := rfl
@[simp] theorem faultEntry_arg0 (c : FaultCode) (w : Word) : (faultEntry c w s).arg0 = s.arg0 := rfl
@[simp] theorem faultEntry_arg1 (c : FaultCode) (w : Word) : (faultEntry c w s).arg1 = s.arg1 := rfl
@[simp] theorem faultEntry_result (c : FaultCode) (w : Word) : (faultEntry c w s).result = s.result := rfl
@[simp] theorem faultEntry_inLen (c : FaultCode) (w : Word) : (faultEntry c w s).inLen = s.inLen := rfl
@[simp] theorem faultEntry_bufLen (c : FaultCode) (w : Word) : (faultEntry c w s).bufLen = s.bufLen := rfl
@[simp] theorem faultEntry_mode (c : FaultCode) (w : Word) : (faultEntry c w s).mode = s.mode := rfl
@[simp] theorem faultEntry_rlen (c : FaultCode) (w : Word) : (faultEntry c w s).rlen = s.rlen := rfl
@[simp] theorem faultEntry_rcur (c : FaultCode) (w : Word) : (faultEntry c w s).rcur = s.rcur := rfl
@[simp] theorem faultEntry_wbits (c : FaultCode) (w : Word) : (faultEntry c w s).wbits = s.wbits := rfl
@[simp] theorem faultEntry_wacc (c : FaultCode) (w : Word) : (faultEntry c w s).wacc = s.wacc := rfl
@[simp] theorem faultEntry_outLen (c : FaultCode) (w : Word) : (faultEntry c w s).outLen = s.outLen := rfl
@[simp] theorem faultEntry_outCap (c : FaultCode) (w : Word) : (faultEntry c w s).outCap = s.outCap := rfl
@[simp] theorem faultEntry_digest (c : FaultCode) (w : Word) : (faultEntry c w s).digest = s.digest := rfl
@[simp] theorem faultEntry_inMem (c : FaultCode) (w : Word) : (faultEntry c w s).inMem = s.inMem := rfl
@[simp] theorem faultEntry_bufMem (c : FaultCode) (w : Word) : (faultEntry c w s).bufMem = s.bufMem := rfl
@[simp] theorem faultEntry_outMem (c : FaultCode) (w : Word) : (faultEntry c w s).outMem = s.outMem := rfl
@[simp] theorem faultEntry_powerCycles (c : FaultCode) (w : Word) : (faultEntry c w s).powerCycles = s.powerCycles := rfl
@[simp] theorem faultEntry_pending (c : FaultCode) (w : Word) : (faultEntry c w s).pending = s.pending := rfl
@[simp] theorem faultEntry_replies (c : FaultCode) (w : Word) : (faultEntry c w s).replies = s.replies := rfl
@[simp] theorem faultEntry_mem (c : FaultCode) (w : Word) (sp : Space) : (faultEntry c w s).mem sp = s.mem sp := by cases sp <;> rfl

@[simp] theorem State.emptyWriter_params : s.emptyWriter.params = s.params := rfl
@[simp] theorem State.emptyWriter_status : s.emptyWriter.status = s.status := rfl
@[simp] theorem State.emptyWriter_finfo : s.emptyWriter.finfo = s.finfo := rfl
@[simp] theorem State.emptyWriter_arg0 : s.emptyWriter.arg0 = s.arg0 := rfl
@[simp] theorem State.emptyWriter_arg1 : s.emptyWriter.arg1 = s.arg1 := rfl
@[simp] theorem State.emptyWriter_result : s.emptyWriter.result = s.result := rfl
@[simp] theorem State.emptyWriter_inLen : s.emptyWriter.inLen = s.inLen := rfl
@[simp] theorem State.emptyWriter_bufLen : s.emptyWriter.bufLen = s.bufLen := rfl
@[simp] theorem State.emptyWriter_mode : s.emptyWriter.mode = s.mode := rfl
@[simp] theorem State.emptyWriter_rlen : s.emptyWriter.rlen = s.rlen := rfl
@[simp] theorem State.emptyWriter_rcur : s.emptyWriter.rcur = s.rcur := rfl
@[simp] theorem State.emptyWriter_wbits : s.emptyWriter.wbits = 0 := rfl
@[simp] theorem State.emptyWriter_wacc : s.emptyWriter.wacc = 0 := rfl
@[simp] theorem State.emptyWriter_outLen : s.emptyWriter.outLen = 0 := rfl
@[simp] theorem State.emptyWriter_outCap : s.emptyWriter.outCap = BitVec.ofNat 32 s.params.outCap0 := rfl
@[simp] theorem State.emptyWriter_digest : s.emptyWriter.digest = s.digest := rfl
@[simp] theorem State.emptyWriter_inMem : s.emptyWriter.inMem = s.inMem := rfl
@[simp] theorem State.emptyWriter_bufMem : s.emptyWriter.bufMem = s.bufMem := rfl
@[simp] theorem State.emptyWriter_outMem : s.emptyWriter.outMem = s.outMem := rfl
@[simp] theorem State.emptyWriter_powerCycles : s.emptyWriter.powerCycles = s.powerCycles := rfl
@[simp] theorem State.emptyWriter_pending : s.emptyWriter.pending = s.pending := rfl
@[simp] theorem State.emptyWriter_replies : s.emptyWriter.replies = s.replies := rfl
@[simp] theorem State.emptyWriter_mem (sp : Space) : s.emptyWriter.mem sp = s.mem sp := by cases sp <;> rfl

end Sys2Proof.Machine
end

