-- ==== Sys2Proof/Laws/Memory.lean ====
section
/-! SUPPORT. The laws of byte memories: read after write, what a write leaves alone, and that every memory operation keeps the
canonical form. -/

namespace Sys2Proof.Machine

/-! ### One byte -/

@[simp] theorem lookup_write_same (m : Memory) (a : Nat) (b : Byte) :
    Memory.lookup (Memory.write m a b) a = some b := by
  induction m with
  | nil => simp [Memory.write, Memory.lookup]
  | cons c m ih =>
    obtain ⟨k, v⟩ := c
    rw [Memory.write]
    split_ifs with h1 h2
    · simp [Memory.lookup]
    · simp [Memory.lookup]
    · rw [Memory.lookup, if_neg (fun h => h2 h.symm), ih]

theorem lookup_write_other {m : Memory} {a a' : Nat} (b : Byte) (h : a' ≠ a) :
    Memory.lookup (Memory.write m a b) a' = Memory.lookup m a' := by
  induction m with
  | nil => simp [Memory.write, Memory.lookup, h.symm]
  | cons c m ih =>
    obtain ⟨k, v⟩ := c
    rw [Memory.write]
    split_ifs with h1 h2
    · simp [Memory.lookup, h.symm]
    · subst h2; simp [Memory.lookup, h.symm]
    · simp only [Memory.lookup, ih]

theorem mem_write {m : Memory} {a : Nat} {b : Byte} {c : Host.Cell} (h : c ∈ Memory.write m a b) :
    c = (a, b) ∨ c ∈ m := by
  induction m with
  | nil => simpa [Memory.write] using h
  | cons d m ih =>
    obtain ⟨k, v⟩ := d
    rw [Memory.write] at h
    split_ifs at h with h1 h2
    · simpa using h
    · rcases List.mem_cons.1 h with h | h
      · exact .inl h
      · exact .inr (List.mem_cons_of_mem _ h)
    · rcases List.mem_cons.1 h with h | h
      · exact .inr (h ▸ List.mem_cons_self)
      · exact (ih h).imp_right (List.mem_cons_of_mem _)

theorem write_wf {m : Memory} (a : Nat) (b : Byte) (h : Memory.wf m) : Memory.wf (Memory.write m a b) := by
  induction m with
  | nil => simp [Memory.write]
  | cons c m ih =>
    obtain ⟨k, v⟩ := c
    have hc := List.pairwise_cons.1 h
    rw [Memory.write]
    split_ifs with h1 h2
    · refine List.pairwise_cons.2 ⟨fun x hx => ?_, h⟩
      rcases List.mem_cons.1 hx with rfl | hx
      · exact h1
      · exact lt_trans h1 (hc.1 x hx)
    · subst h2
      exact List.pairwise_cons.2 ⟨fun x hx => hc.1 x hx, hc.2⟩
    · refine List.pairwise_cons.2 ⟨fun x hx => ?_, ih hc.2⟩
      rcases mem_write hx with rfl | hx
      · show k < a; omega
      · exact hc.1 x hx

theorem write_fits {m : Memory} {size a : Nat} (b : Byte) (h : Memory.Fits m size) (ha : a < size) :
    Memory.Fits (Memory.write m a b) size :=
  ⟨write_wf a b h.1, fun c hc => (mem_write hc).elim (fun e => e ▸ ha) (h.2 c)⟩

theorem fits_nil (size : Nat) : Memory.Fits [] size := ⟨List.Pairwise.nil, by simp⟩

/-! ### Byte sequences -/

theorem writeList_fits {size : Nat} (bs : List Byte) :
    ∀ {m : Memory} {a : Nat}, Memory.Fits m size → a + bs.length ≤ size → Memory.Fits (Memory.writeList m a bs) size := by
  induction bs with
  | nil => intro m a h _; exact h
  | cons b bs ih =>
    intro m a h ha
    rw [List.length_cons] at ha
    exact ih (write_fits b h (by omega)) (by omega)

theorem lookup_writeList_outside (bs : List Byte) :
    ∀ {m : Memory} {a a' : Nat}, (a' < a ∨ a + bs.length ≤ a') →
      Memory.lookup (Memory.writeList m a bs) a' = Memory.lookup m a' := by
  induction bs with
  | nil => intro m a a' _; rfl
  | cons b bs ih =>
    intro m a a' h
    rw [List.length_cons] at h
    rw [Memory.writeList, ih (by omega), lookup_write_other b (by omega)]

theorem lookup_writeList_inside (bs : List Byte) :
    ∀ {m : Memory} {a i : Nat} (h : i < bs.length), Memory.lookup (Memory.writeList m a bs) (a + i) = some bs[i] := by
  induction bs with
  | nil => intro m a i h; simp at h
  | cons b bs ih =>
    intro m a i h
    cases i with
    | zero => rw [Memory.writeList, lookup_writeList_outside bs (by omega)]; simp
    | succ i =>
      rw [Memory.writeList, show a + (i + 1) = (a + 1) + i by omega, ih (by simpa using h)]
      simp

/-! ### The state's bytes -/

/-- The bytes of a memory depend only on the memory and the count of power-on resets. -/
theorem byteAt_congr {s t : State} {sp : Space} (hm : t.mem sp = s.mem sp) (hp : t.powerCycles = s.powerCycles) (a : Nat) :
    t.byteAt sp a = s.byteAt sp a := by
  rw [State.byteAt, State.byteAt, hm, hp]

theorem bytesAt_congr {s t : State} {sp : Space} (hm : t.mem sp = s.mem sp) (hp : t.powerCycles = s.powerCycles) :
    ∀ (n a : Nat), t.bytesAt sp a n = s.bytesAt sp a n
  | 0, _ => rfl
  | n + 1, a => by rw [State.bytesAt, State.bytesAt, byteAt_congr hm hp, bytesAt_congr hm hp n]

@[simp] theorem bytesAt_length (s : State) (sp : Space) : ∀ (n a : Nat), (s.bytesAt sp a n).length = n
  | 0, _ => rfl
  | n + 1, a => by rw [State.bytesAt, List.length_cons, bytesAt_length s sp n]

theorem getElem_bytesAt (s : State) (sp : Space) :
    ∀ (n a i : Nat) (h : i < (s.bytesAt sp a n).length), (s.bytesAt sp a n)[i] = s.byteAt sp (a + i)
  | 0, a, i, h => absurd h (by simp)
  | n + 1, a, 0, h => rfl
  | n + 1, a, i + 1, h => by
    simp only [State.bytesAt, List.getElem_cons_succ]
    rw [getElem_bytesAt s sp n]
    congr 1; omega

/-- Two stretches of memory that agree byte for byte are the same byte sequence. -/
theorem bytesAt_eq_of {s t : State} {sp sp' : Space} {a a' n : Nat}
    (h : ∀ i < n, t.byteAt sp' (a' + i) = s.byteAt sp (a + i)) : t.bytesAt sp' a' n = s.bytesAt sp a n := by
  refine List.ext_getElem (by simp) fun i h1 h2 => ?_
  rw [getElem_bytesAt, getElem_bytesAt, h i (by simpa using h1)]

theorem bytesAt_add (s : State) (sp : Space) :
    ∀ (n m a : Nat), s.bytesAt sp a (n + m) = s.bytesAt sp a n ++ s.bytesAt sp (a + n) m
  | 0, m, a => by simp [State.bytesAt]
  | n + 1, m, a => by
    rw [show n + 1 + m = (n + m) + 1 by omega, State.bytesAt, State.bytesAt, bytesAt_add s sp n m (a + 1),
      List.cons_append, show a + 1 + n = a + (n + 1) by omega]

theorem byteAt_setMem_other {sp sp' : Space} (s : State) (m : Memory) (h : sp' ≠ sp) (a : Nat) :
    (s.setMem sp m).byteAt sp' a = s.byteAt sp' a :=
  byteAt_congr (State.mem_setMem_other s h m) (State.setMem_powerCycles s sp m) a

theorem byteAt_write_same (s : State) (sp : Space) (a : Nat) (b : Byte) :
    (s.setMem sp (Memory.write (s.mem sp) a b)).byteAt sp a = b := by
  simp [State.byteAt]

theorem byteAt_write_other (s : State) (sp : Space) {a a' : Nat} (b : Byte) (h : a' ≠ a) :
    (s.setMem sp (Memory.write (s.mem sp) a b)).byteAt sp a' = s.byteAt sp a' := by
  simp [State.byteAt, lookup_write_other b h]

theorem byteAt_writeList_outside (s : State) (sp : Space) {a a' : Nat} (bs : List Byte)
    (h : a' < a ∨ a + bs.length ≤ a') :
    (s.setMem sp (Memory.writeList (s.mem sp) a bs)).byteAt sp a' = s.byteAt sp a' := by
  simp [State.byteAt, lookup_writeList_outside bs h]

theorem byteAt_writeList_inside (s : State) (sp : Space) (a : Nat) (bs : List Byte) {i : Nat} (h : i < bs.length) :
    (s.setMem sp (Memory.writeList (s.mem sp) a bs)).byteAt sp (a + i) = bs[i] := by
  simp [State.byteAt, lookup_writeList_inside bs h]

theorem bytesAt_writeList (s : State) (sp : Space) (a : Nat) (bs : List Byte) :
    (s.setMem sp (Memory.writeList (s.mem sp) a bs)).bytesAt sp a bs.length = bs := by
  refine List.ext_getElem (by simp) fun i h1 h2 => ?_
  rw [getElem_bytesAt, byteAt_writeList_inside s sp a bs h2]

/-! ### Register updates leave the bytes -/

section
variable (s : State) (sp : Space) (a n : Nat)

@[simp] theorem State.setFault_byteAt (v v' : Word) : (s.setFault v v').byteAt sp a = s.byteAt sp a :=
  byteAt_congr (s.setFault_mem v v' sp) rfl a
@[simp] theorem State.setFault_bytesAt (v v' : Word) : (s.setFault v v').bytesAt sp a n = s.bytesAt sp a n :=
  bytesAt_congr (s.setFault_mem v v' sp) rfl n a
@[simp] theorem State.setRcur_byteAt (v : Word) : (s.setRcur v).byteAt sp a = s.byteAt sp a :=
  byteAt_congr (s.setRcur_mem v sp) rfl a
@[simp] theorem State.setRcur_bytesAt (v : Word) : (s.setRcur v).bytesAt sp a n = s.bytesAt sp a n :=
  bytesAt_congr (s.setRcur_mem v sp) rfl n a
@[simp] theorem State.setResult_byteAt (v : Word) : (s.setResult v).byteAt sp a = s.byteAt sp a :=
  byteAt_congr (s.setResult_mem v sp) rfl a
@[simp] theorem State.setResult_bytesAt (v : Word) : (s.setResult v).bytesAt sp a n = s.bytesAt sp a n :=
  bytesAt_congr (s.setResult_mem v sp) rfl n a
@[simp] theorem State.setReader_byteAt (v v' v'' : Word) : (s.setReader v v' v'').byteAt sp a = s.byteAt sp a :=
  byteAt_congr (s.setReader_mem v v' v'' sp) rfl a
@[simp] theorem State.setReader_bytesAt (v v' v'' : Word) : (s.setReader v v' v'').bytesAt sp a n = s.bytesAt sp a n :=
  bytesAt_congr (s.setReader_mem v v' v'' sp) rfl n a
@[simp] theorem State.setWriter_byteAt (v v' v'' u : Word) : (s.setWriter v v' v'' u).byteAt sp a = s.byteAt sp a :=
  byteAt_congr (s.setWriter_mem v v' v'' u sp) rfl a
@[simp] theorem State.setWriter_bytesAt (v v' v'' u : Word) : (s.setWriter v v' v'' u).bytesAt sp a n = s.bytesAt sp a n :=
  bytesAt_congr (s.setWriter_mem v v' v'' u sp) rfl n a
@[simp] theorem State.setBufLen_byteAt (v : Word) : (s.setBufLen v).byteAt sp a = s.byteAt sp a :=
  byteAt_congr (s.setBufLen_mem v sp) rfl a
@[simp] theorem State.setBufLen_bytesAt (v : Word) : (s.setBufLen v).bytesAt sp a n = s.bytesAt sp a n :=
  bytesAt_congr (s.setBufLen_mem v sp) rfl n a
@[simp] theorem State.setDigest_byteAt (d : Digest) : (s.setDigest d).byteAt sp a = s.byteAt sp a :=
  byteAt_congr (s.setDigest_mem d sp) rfl a
@[simp] theorem State.setDigest_bytesAt (d : Digest) : (s.setDigest d).bytesAt sp a n = s.bytesAt sp a n :=
  bytesAt_congr (s.setDigest_mem d sp) rfl n a
@[simp] theorem State.setArg0_byteAt (v : Word) : (s.setArg0 v).byteAt sp a = s.byteAt sp a :=
  byteAt_congr (s.setArg0_mem v sp) rfl a
@[simp] theorem State.setArg0_bytesAt (v : Word) : (s.setArg0 v).bytesAt sp a n = s.bytesAt sp a n :=
  bytesAt_congr (s.setArg0_mem v sp) rfl n a
@[simp] theorem State.setArg1_byteAt (v : Word) : (s.setArg1 v).byteAt sp a = s.byteAt sp a :=
  byteAt_congr (s.setArg1_mem v sp) rfl a
@[simp] theorem State.setArg1_bytesAt (v : Word) : (s.setArg1 v).bytesAt sp a n = s.bytesAt sp a n :=
  bytesAt_congr (s.setArg1_mem v sp) rfl n a
@[simp] theorem State.setInLen_byteAt (v : Word) : (s.setInLen v).byteAt sp a = s.byteAt sp a :=
  byteAt_congr (s.setInLen_mem v sp) rfl a
@[simp] theorem State.setInLen_bytesAt (v : Word) : (s.setInLen v).bytesAt sp a n = s.bytesAt sp a n :=
  bytesAt_congr (s.setInLen_mem v sp) rfl n a
@[simp] theorem State.setPending_byteAt (l : List Input) : (s.setPending l).byteAt sp a = s.byteAt sp a :=
  byteAt_congr (s.setPending_mem l sp) rfl a
@[simp] theorem State.setPending_bytesAt (l : List Input) : (s.setPending l).bytesAt sp a n = s.bytesAt sp a n :=
  bytesAt_congr (s.setPending_mem l sp) rfl n a
@[simp] theorem State.addReply_byteAt (r : Reply) : (s.addReply r).byteAt sp a = s.byteAt sp a :=
  byteAt_congr (s.addReply_mem r sp) rfl a
@[simp] theorem State.addReply_bytesAt (r : Reply) : (s.addReply r).bytesAt sp a n = s.bytesAt sp a n :=
  bytesAt_congr (s.addReply_mem r sp) rfl n a
@[simp] theorem State.emptyWriter_byteAt : s.emptyWriter.byteAt sp a = s.byteAt sp a :=
  byteAt_congr (s.emptyWriter_mem sp) rfl a
@[simp] theorem State.emptyWriter_bytesAt : s.emptyWriter.bytesAt sp a n = s.bytesAt sp a n :=
  bytesAt_congr (s.emptyWriter_mem sp) rfl n a
@[simp] theorem faultEntry_byteAt (c : FaultCode) (w : Word) : (faultEntry c w s).byteAt sp a = s.byteAt sp a :=
  byteAt_congr (faultEntry_mem s c w sp) rfl a
@[simp] theorem faultEntry_bytesAt (c : FaultCode) (w : Word) : (faultEntry c w s).bytesAt sp a n = s.bytesAt sp a n :=
  bytesAt_congr (faultEntry_mem s c w sp) rfl n a
@[simp] theorem resetAction_byteAt : (resetAction s).byteAt sp a = s.byteAt sp a :=
  byteAt_congr (resetAction_mem s sp) rfl a

end

/-! ### Memories that fit -/

theorem memoriesFit_iff (s : State) :
    s.MemoriesFit ↔ ∀ sp, Memory.Fits (s.mem sp) (s.params.size sp) := by
  constructor
  · rintro ⟨h1, h2, h3⟩ sp
    cases sp
    · exact h1
    · exact h2
    · exact h3
  · exact fun h => ⟨h .inp, h .buf, h .out⟩

theorem memoriesFit_setMem {s : State} {sp : Space} {m : Memory} (h : s.MemoriesFit)
    (hm : Memory.Fits m (s.params.size sp)) : (s.setMem sp m).MemoriesFit := by
  rw [memoriesFit_iff] at h ⊢
  intro sp'
  by_cases e : sp' = sp
  · subst e; simpa using hm
  · rw [State.mem_setMem_other s e, State.setMem_params]; exact h sp'

theorem reset_memoriesFit : State.reset.MemoriesFit := ⟨fits_nil _, fits_nil _, fits_nil _⟩

end Sys2Proof.Machine
end

