-- ==== Sys2Proof/Laws/Run.lean ====
section
/-! SUPPORT. How the work of a command is sequenced and ends: one lemma per shared operation that says all it can do. -/

namespace Sys2Proof.Machine

/-! ### Sequencing -/

@[simp] theorem Run.bind_done {α β : Type} (a : α) (s : State) (f : α → State → Run β) :
    (Run.done a s).bind f = f a s := rfl

@[simp] theorem Run.bind_raised {α β : Type} (c : FaultCode) (s : State) (f : α → State → Run β) :
    (Run.raised c s).bind f = .raised c s := rfl

@[simp] theorem Run.bind_stray {α β : Type} (sp : Space) (a : Nat) (f : α → State → Run β) :
    (Run.stray sp a).bind f = .stray sp a := rfl

theorem Run.bind_assoc {α β γ : Type} (r : Run α) (f : α → State → Run β) (g : β → State → Run γ) :
    (r.bind f).bind g = r.bind fun a s => (f a s).bind g := by
  cases r <;> rfl

/-- A sequence ends with a value exactly when both parts do. -/
theorem Run.bind_eq_done {α β : Type} {r : Run α} {f : α → State → Run β} {b : β} {t : State} :
    r.bind f = .done b t ↔ ∃ a s, r = .done a s ∧ f a s = .done b t := by
  cases r <;> simp

/-- A sequence raises exactly when one of its parts does. -/
theorem Run.bind_eq_raised {α β : Type} {r : Run α} {f : α → State → Run β} {c : FaultCode} {t : State} :
    r.bind f = .raised c t ↔ r = .raised c t ∨ ∃ a s, r = .done a s ∧ f a s = .raised c t := by
  cases r <;> simp

/-- A sequence leaves its memory exactly when one of its parts does. -/
theorem Run.bind_eq_stray {α β : Type} {r : Run α} {f : α → State → Run β} {sp : Space} {x : Nat} :
    r.bind f = .stray sp x ↔ r = .stray sp x ∨ ∃ a s, r = .done a s ∧ f a s = .stray sp x := by
  cases r <;> simp

/-- What holds of the state a piece of work ends in, whether it completes or raises, and that it does not leave its memory. -/
def Run.Ends {α : Type} (P : State → Prop) : Run α → Prop
  | .done _ s => P s
  | .raised _ s => P s
  | .stray _ _ => False

theorem Run.Ends.bind {α β : Type} {P Q : State → Prop} {r : Run α} {f : α → State → Run β} (h : r.Ends P)
    (hP : ∀ s, P s → Q s) (hf : ∀ a s, r = .done a s → P s → (f a s).Ends Q) : (r.bind f).Ends Q := by
  cases r with
  | done a s => exact hf a s rfl h
  | raised c s => exact hP s h
  | stray sp a => exact h

theorem Run.Ends.mono {α : Type} {P Q : State → Prop} {r : Run α} (h : r.Ends P) (hPQ : ∀ s, P s → Q s) : r.Ends Q := by
  cases r with
  | done a s => exact hPQ s h
  | raised c s => exact hPQ s h
  | stray sp a => exact h

/-- What holds of the state a piece of work ends in, if it does not leave its memory. -/
def Run.Leaves {α : Type} (P : State → Prop) : Run α → Prop
  | .done _ s => P s
  | .raised _ s => P s
  | .stray _ _ => True

theorem Run.Leaves.bind {α β : Type} {P Q : State → Prop} {r : Run α} {f : α → State → Run β} (h : r.Leaves P)
    (hP : ∀ s, P s → Q s) (hf : ∀ a s, r = .done a s → P s → (f a s).Leaves Q) : (r.bind f).Leaves Q := by
  cases r with
  | done a s => exact hf a s rfl h
  | raised c s => exact hP s h
  | stray sp a => trivial

theorem Run.Leaves.mono {α : Type} {P Q : State → Prop} {r : Run α} (h : r.Leaves P) (hPQ : ∀ s, P s → Q s) :
    r.Leaves Q := by
  cases r with
  | done a s => exact hPQ s h
  | raised c s => exact hPQ s h
  | stray sp a => trivial

/-! ### Commands -/

theorem command_halted {i : Instr} {rule : State → Run Unit} {s : State} (h : s.halted) : command i rule s = .next s :=
  if_pos h

theorem command_running {i : Instr} {rule : State → Run Unit} {s : State} (h : ¬ s.halted) :
    command i rule s = finish (encode i) (rule s) := if_neg h

/-- A command ends in a next state in one of three ways: it was ignored, its rule completed, or its rule raised. -/
theorem command_next {i : Instr} {rule : State → Run Unit} {s t : State} (h : command i rule s = .next t) :
    (s.halted ∧ t = s) ∨ (¬ s.halted ∧ rule s = .done () t) ∨
      ¬ s.halted ∧ ∃ c u, rule s = .raised c u ∧ t = faultEntry c (encode i) u := by
  unfold command at h
  split_ifs at h with hh
  · exact .inl ⟨hh, by simpa using h.symm⟩
  · refine .inr ?_
    cases hr : rule s with
    | done a u => rw [hr] at h; simp only [finish, Host.Outcome.next.injEq] at h; exact .inl ⟨hh, by rw [h]⟩
    | raised c u => rw [hr] at h; simp only [finish, Host.Outcome.next.injEq] at h; exact .inr ⟨hh, c, u, rfl, h.symm⟩
    | stray sp a => rw [hr] at h; simp [finish] at h

/-- A command whose work stays inside its memories ends in a next state. -/
theorem command_ends {P : State → Prop} {i : Instr} {rule : State → Run Unit} {s : State} (hs : P s)
    (h : ¬ s.halted → (rule s).Ends P) (hf : ∀ c u, P u → P (faultEntry c (encode i) u)) :
    ∃ t, command i rule s = .next t ∧ P t := by
  by_cases hh : s.halted
  · exact ⟨s, command_halted hh, hs⟩
  · have he := h hh
    rw [command_running hh]
    cases hr : rule s with
    | done a u => rw [hr] at he; exact ⟨u, rfl, he⟩
    | raised c u => rw [hr] at he; exact ⟨_, rfl, hf c u he⟩
    | stray sp a => rw [hr] at he; exact he.elim

/-! ### STATUS -/

theorem status_of_code (c : FaultCode) : c.status = BitVec.ofNat 32 (1 + 16 * c.code.toNat) := by
  cases c <;> rfl

theorem faultEntry_halted (c : FaultCode) (w : Word) (s : State) : (faultEntry c w s).halted := by
  show c.status.getLsbD 0 = true
  cases c <;> decide

theorem faultEntry_statusLegal (c : FaultCode) (w : Word) (s : State) : (faultEntry c w s).StatusLegal := by
  cases c <;> (simp only [State.StatusLegal, State.faultBit, State.faultField, faultEntry_status]; decide)

theorem status_injective {c c' : FaultCode} (h : c.status = c'.status) : c = c' := by
  revert h; cases c <;> cases c' <;> decide

/-! ### The engine's memory operations -/

theorem engineRead_inside {sp : Space} {a : Nat} {s : State} (h : a < s.params.size sp) :
    engineRead sp a s = .done (s.byteAt sp a) s := if_pos h

theorem engineWrite_inside {sp : Space} {a : Nat} {b : Byte} {s : State} (h : a < s.params.size sp) :
    engineWrite sp a b s = .done () (s.setMem sp (Memory.write (s.mem sp) a b)) := if_pos h

theorem memRead_inside {sp : Space} {a n : Nat} {s : State} (h : a + n ≤ s.params.size sp) :
    memRead sp a n s = .done (s.bytesAt sp a n) s := if_pos h

theorem memWrite_inside {sp : Space} {a : Nat} {bs : List Byte} {s : State} (h : a + bs.length ≤ s.params.size sp) :
    memWrite sp a bs s = .done () (s.setMem sp (Memory.writeList (s.mem sp) a bs)) := if_pos h

theorem engineRead_done {sp : Space} {a : Nat} {s t : State} {b : Byte} (h : engineRead sp a s = .done b t) :
    t = s ∧ b = s.byteAt sp a ∧ a < s.params.size sp := by
  unfold engineRead at h; split_ifs at h with hh
  injection h with h1 h2
  exact ⟨h2.symm, h1.symm, hh⟩

theorem engineWrite_done {sp : Space} {a : Nat} {s t : State} {b : Byte} (h : engineWrite sp a b s = .done () t) :
    t = s.setMem sp (Memory.write (s.mem sp) a b) ∧ a < s.params.size sp := by
  unfold engineWrite at h; split_ifs at h with hh
  injection h with h1 h2
  exact ⟨h2.symm, hh⟩

theorem memRead_done {sp : Space} {a n : Nat} {s t : State} {bs : List Byte} (h : memRead sp a n s = .done bs t) :
    t = s ∧ bs = s.bytesAt sp a n ∧ a + n ≤ s.params.size sp := by
  unfold memRead at h; split_ifs at h with hh
  injection h with h1 h2
  exact ⟨h2.symm, h1.symm, hh⟩

theorem memWrite_done {sp : Space} {a : Nat} {s t : State} {bs : List Byte} (h : memWrite sp a bs s = .done () t) :
    t = s.setMem sp (Memory.writeList (s.mem sp) a bs) ∧ a + bs.length ≤ s.params.size sp := by
  unfold memWrite at h; split_ifs at h with hh
  injection h with h1 h2
  exact ⟨h2.symm, hh⟩

theorem engineRead_not_raised {sp : Space} {a : Nat} {s t : State} {c : FaultCode} :
    engineRead sp a s ≠ .raised c t := by unfold engineRead; split_ifs <;> simp

theorem engineWrite_not_raised {sp : Space} {a : Nat} {b : Byte} {s t : State} {c : FaultCode} :
    engineWrite sp a b s ≠ .raised c t := by unfold engineWrite; split_ifs <;> simp

theorem memRead_not_raised {sp : Space} {a n : Nat} {s t : State} {c : FaultCode} :
    memRead sp a n s ≠ .raised c t := by unfold memRead; split_ifs <;> simp

theorem memWrite_not_raised {sp : Space} {a : Nat} {bs : List Byte} {s t : State} {c : FaultCode} :
    memWrite sp a bs s ≠ .raised c t := by unfold memWrite; split_ifs <;> simp

/-! ### Operands -/

/-- IN_LEN above IN_MAX raises CapacityExceeded; otherwise it is the length. -/
theorem inputLength_cases (s : State) :
    (s.inLen.toNat > s.params.inMax ∧ inputLength s = .raised .capacityExceeded s) ∨
      (s.inLen.toNat ≤ s.params.inMax ∧ inputLength s = .done s.inLen.toNat s) := by
  unfold inputLength
  split_ifs with h
  · exact .inl ⟨h, rfl⟩
  · exact .inr ⟨by omega, rfl⟩

/-- BUF_LEN above BUF_MAX raises CapacityExceeded; otherwise it is the length. -/
theorem stagedLength_cases (s : State) :
    (s.bufLen.toNat > s.params.bufMax ∧ stagedLength s = .raised .capacityExceeded s) ∨
      (s.bufLen.toNat ≤ s.params.bufMax ∧ stagedLength s = .done s.bufLen.toNat s) := by
  unfold stagedLength
  split_ifs with h
  · exact .inl ⟨h, rfl⟩
  · exact .inr ⟨by omega, rfl⟩

theorem deliverStaged_inside {bs : List Byte} {s : State} (h : bs.length ≤ s.params.bufMax) :
    deliverStaged bs s =
      .done () ((s.setMem .buf (Memory.writeList s.bufMem 0 bs)).setBufLen (BitVec.ofNat 32 bs.length)) := by
  rw [deliverStaged, memWrite_inside (by simpa [Params.size] using h)]; rfl

/-! ### Faults of the invariant's states -/

theorem Params.Legal.inMax_lt {p : Params} (h : p.Legal) : p.inMax < 2 ^ 32 := by
  have := h.1; omega

theorem Params.Legal.bufMax_lt {p : Params} (h : p.Legal) : p.bufMax < 2 ^ 32 := by
  have := h.2.1.2; omega

theorem Params.Legal.outMax_lt {p : Params} (h : p.Legal) : p.outMax < 2 ^ 32 := by
  have := h.2.2.1.2; omega

theorem Params.Legal.outCap0_lt {p : Params} (h : p.Legal) : p.outCap0 < 2 ^ 32 := by
  have := h.2.2.2.2; have := Params.Legal.outMax_lt h; omega

/-- Fault entry keeps the invariant. -/
theorem faultEntry_inv {s : State} (h : s.Inv) (c : FaultCode) (w : Word) : (faultEntry c w s).Inv :=
  ⟨h.legal, faultEntry_statusLegal c w s, h.memories, h.reader, h.writer, h.written⟩

end Sys2Proof.Machine
end

