-- ==== Sys2Proof/Laws/Bits.lean ====
section
/-! SUPPORT. What ReadBit and WriteBit can do (40_bitio.md R120, R121), and what sequences of them do. -/

namespace Sys2Proof.Machine

/-! ### Reading -/

/-- The bit the next read returns (40_bitio.md R120). -/
def peekBit (s : State) : Bool :=
  if readLimit s ≤ s.rcur.toNat then false
  else if s.strided = false then streamBit (s.byteAt .inp (s.rcur.toNat / 8)) (s.rcur.toNat % 8)
  else if s.rcur.getLsbD 0 = false then true
  else streamBit (s.byteAt .inp (s.rcur.toNat / 16)) (s.rcur.toNat / 2 % 8)

/-- The cursor the next read leaves (40_bitio.md R120). -/
def nextRcur (s : State) : Word :=
  if readLimit s ≤ s.rcur.toNat then s.rcur else if s.strided = false then s.rcur + 1 else s.rcur + 2

@[simp] theorem setRcur_setRcur (s : State) (c c' : Word) : (s.setRcur c).setRcur c' = s.setRcur c' := rfl

@[simp] theorem setRcur_self (s : State) : s.setRcur s.rcur = s := rfl

@[simp] theorem setRcur_strided (s : State) (c : Word) : (s.setRcur c).strided = s.strided := rfl

@[simp] theorem setRcur_readLimit (s : State) (c : Word) : readLimit (s.setRcur c) = readLimit s := rfl

/-- A read whose RLEN is inside IN_MEM returns the next bit and moves only the cursor. -/
theorem readBit_inside {s : State} (h : s.rlen.toNat ≤ s.params.inMax) :
    readBit s = .done (peekBit s) (s.setRcur (nextRcur s)) := by
  unfold readBit peekBit nextRcur
  by_cases h1 : readLimit s ≤ s.rcur.toNat
  · simp [h1]
  simp only [h1, if_false]
  rcases Bool.eq_false_or_eq_true s.strided with h2 | h2
  · have hl : readLimit s = 16 * s.rlen.toNat := by simp [readLimit, h2]
    have ha : s.rcur.toNat / 16 < s.params.size .inp := by simp only [Params.size]; omega
    simp only [h2, Bool.true_eq_false, if_false, engineRead_inside ha, Run.bind_done]
    split_ifs <;> rfl
  · have hl : readLimit s = 8 * s.rlen.toNat := by simp [readLimit, h2]
    have ha : s.rcur.toNat / 8 < s.params.size .inp := by simp only [Params.size]; omega
    simp only [h2, if_true, engineRead_inside ha, Run.bind_done]

/-- In any state a read moves only the cursor, or leaves IN_MEM. -/
theorem readBit_cases (s : State) :
    (∃ b c, readBit s = .done b (s.setRcur c)) ∨ ∃ a, readBit s = .stray .inp a := by
  unfold readBit engineRead
  simp only []
  split_ifs
  · exact .inl ⟨_, s.rcur, rfl⟩
  · exact .inl ⟨_, _, rfl⟩
  · exact .inr ⟨_, rfl⟩
  · exact .inl ⟨_, _, rfl⟩
  · exact .inl ⟨_, _, rfl⟩
  · exact .inr ⟨_, rfl⟩

theorem readBits_inside (n : Nat) : ∀ {s : State}, s.rlen.toNat ≤ s.params.inMax →
    ∃ bs c, bs.length = n ∧ readBits n s = .done bs (s.setRcur c) := by
  induction n with
  | zero => intro s _; exact ⟨[], s.rcur, rfl, rfl⟩
  | succ n ih =>
    intro s h
    obtain ⟨bs, c, hl, hr⟩ := ih (s := s.setRcur (nextRcur s)) h
    exact ⟨peekBit s :: bs, c, by simp [hl], by simp [readBits, readBit_inside h, hr]⟩

/-- A reader over a first bit and others reads the first, and then stands over the others. -/
theorem standsOver_cons {s : State} {b : Bool} {bs : List Bool} {c : Word} (h : StandsOver s (b :: bs) c) :
    ∃ c', readBit s = .done b (s.setRcur c') ∧ StandsOver (s.setRcur c') bs c := by
  rw [StandsOver, List.length_cons, readBits, Run.bind_eq_done] at h
  obtain ⟨b', u, hb, h⟩ := h
  rw [Run.bind_eq_done] at h
  obtain ⟨bs', v, hbs, h⟩ := h
  simp only [Run.done.injEq, List.cons.injEq] at h
  obtain ⟨⟨rfl, rfl⟩, rfl⟩ := h
  rcases readBit_cases s with ⟨b'', c', hc⟩ | ⟨a, ha⟩
  · rw [hb] at hc
    simp only [Run.done.injEq] at hc
    obtain ⟨rfl, rfl⟩ := hc
    exact ⟨c', hb, hbs⟩
  · rw [hb] at ha; cases ha

theorem standsOver_nil {s : State} {c : Word} (h : StandsOver s [] c) : s.rcur = c := by
  simp only [StandsOver, List.length_nil, readBits, Run.done.injEq, true_and] at h
  rw [h]; rfl

theorem standsOver_append {bs bs' : List Bool} : ∀ {s : State} {c : Word}, StandsOver s (bs ++ bs') c →
    ∃ c', StandsOver s bs c' ∧ StandsOver (s.setRcur c') bs' c := by
  induction bs with
  | nil => intro s c h; exact ⟨s.rcur, rfl, h⟩
  | cons b bs ih =>
    intro s c h
    obtain ⟨c1, hb, h1⟩ := standsOver_cons h
    obtain ⟨c2, h2, h3⟩ := ih h1
    refine ⟨c2, ?_, h3⟩
    rw [StandsOver] at h2
    rw [StandsOver, List.length_cons, readBits, hb, Run.bind_done, h2]
    rfl

/-- A read takes nothing from BUF_MEM. -/
theorem readBit_setMem_buf (s : State) (m : Memory) :
    readBit (s.setMem .buf m) = (readBit s).bind fun b u => .done b (u.setMem .buf m) := by
  have hb : ∀ a, (s.setMem .buf m).byteAt .inp a = s.byteAt .inp a := fun a => byteAt_setMem_other s m (by simp) a
  have h1 : readLimit (s.setMem .buf m) = readLimit s := rfl
  have h2 : (s.setMem .buf m).strided = s.strided := rfl
  have h3 : (s.setMem .buf m).rcur = s.rcur := rfl
  have h4 : (s.setMem .buf m).params = s.params := rfl
  unfold readBit engineRead
  simp only [h1, h2, h3, h4, hb]
  split_ifs <;> rfl

theorem readBits_setMem_buf (m : Memory) : ∀ (n : Nat) (s : State),
    readBits n (s.setMem .buf m) = (readBits n s).bind fun bs u => .done bs (u.setMem .buf m)
  | 0, _ => rfl
  | n + 1, s => by
    rw [readBits, readBits, readBit_setMem_buf]
    cases readBit s with
    | raised c u => rfl
    | stray sp a => rfl
    | done b u =>
      simp only [Run.bind_done]
      rw [readBits_setMem_buf m n u]
      cases readBits n u <;> rfl

theorem standsOver_setMem_buf {s : State} {bits : List Bool} {c : Word} (m : Memory) (h : StandsOver s bits c) :
    StandsOver (s.setMem .buf m) bits c := by
  rw [StandsOver, readBits_setMem_buf, h]; rfl

/-! ### Writing -/

/-- Everything but the writer is the same: OUT_MEM, WBITS, WACC, OUT_LEN and OUT_CAP may differ. -/
def SameButWriter (s t : State) : Prop :=
  t = { s with wbits := t.wbits, wacc := t.wacc, outLen := t.outLen, outCap := t.outCap, outMem := t.outMem }

theorem SameButWriter.refl (s : State) : SameButWriter s s := rfl

theorem SameButWriter.trans {s t u : State} (h : SameButWriter s t) (h' : SameButWriter t u) : SameButWriter s u := by
  unfold SameButWriter at *
  rw [h] at h'
  exact h'

theorem accumulate_getLsbD (acc : Word) (b : Bool) (i : Nat) :
    (accumulate acc b).getLsbD i = (decide (i < 8) && (if i = 0 then b else acc.getLsbD (i - 1))) := by
  have h : (accumulate acc b).toNat = ((acc <<< 1) ||| bitWord b).toNat % 2 ^ 8 := by
    rw [accumulate, BitVec.toNat_umod]; rfl
  rw [BitVec.getLsbD, h, Nat.testBit_mod_two_pow, ← BitVec.getLsbD, BitVec.getLsbD_or, BitVec.getLsbD_shiftLeft]
  have hb : (bitWord b).getLsbD i = (decide (i = 0) && b) := by
    cases b
    · simp [bitWord]
    · show (1#32).getLsbD i = _
      rw [BitVec.getLsbD_one]; simp
  rw [hb]
  by_cases h8 : i < 8
  · by_cases h0 : i = 0
    · subst h0; simp
    · simp [h8, h0]; omega
  · simp [h8]

theorem lowBits_accumulate (acc : Word) (b : Bool) :
    ∀ k, k < 8 → lowBits (accumulate acc b) (k + 1) = lowBits acc k ++ [b]
  | 0, _ => by simp only [lowBits, accumulate_getLsbD]; simp
  | k + 1, h => by
    rw [lowBits, lowBits_accumulate acc b k (by omega), lowBits, accumulate_getLsbD]
    simp [show k + 1 < 8 from h]

theorem byteBits_setWidth (w : Word) : byteBits (w.setWidth 8) = lowBits w 8 := by
  simp [byteBits, lowBits, streamBit]

theorem accumulate_lt {acc : Word} {k : Nat} (b : Bool) (h : acc.toNat < 2 ^ k) :
    (accumulate acc b).toNat < 2 ^ (k + 1) := by
  rw [accumulate, BitVec.toNat_umod]
  refine lt_of_le_of_lt (Nat.mod_le _ _) ?_
  rw [BitVec.toNat_or]
  refine Nat.or_lt_two_pow ?_ ?_
  · rw [BitVec.toNat_shiftLeft]
    refine lt_of_le_of_lt (Nat.mod_le _ _) ?_
    rw [Nat.shiftLeft_eq, pow_succ]; omega
  · have : (bitWord b).toNat < 2 ^ 1 := by cases b <;> decide
    exact lt_of_lt_of_le this (Nat.pow_le_pow_right (by omega) (by omega))

/-- What WriteBit did, when it did not raise: one more bit, the writer's bounds kept, and no other change; OUT_MEM changes at
most at OUT_LEN. -/
structure Wrote (bits : List Bool) (s t : State) : Prop where
  inv : t.Inv
  stream : t.writtenBits = s.writtenBits ++ bits
  count : t.wbits.toNat = s.wbits.toNat + bits.length
  same : SameButWriter s t
  bytes : ∀ a, a < s.outLen.toNat ∨ t.outLen.toNat ≤ a → t.byteAt .out a = s.byteAt .out a

theorem writtenBits_congr {s t : State} (hm : t.outMem = s.outMem) (hp : t.powerCycles = s.powerCycles)
    (hl : t.outLen = s.outLen) (hw : t.wbits = s.wbits) (ha : t.wacc = s.wacc) : t.writtenBits = s.writtenBits := by
  rw [State.writtenBits, State.writtenBits, bytesAt_congr (sp := .out) (s := s) hm hp, hl, hw, ha]

/-- A full writer raises CapacityExceeded and changes nothing. -/
theorem writeBit_full {s : State} {b : Bool} (h : s.wbits.toNat % 8 = 7 ∧ s.outLen.toNat = s.params.outMax) :
    writeBit b s = .raised .capacityExceeded s := if_pos h

theorem writer_bound {s : State} (h : s.Inv) : s.wbits.toNat ≤ 8 * s.params.outMax + 7 := by
  obtain ⟨h1, -, h3, h4, -⟩ := h.writer
  omega

/-- WriteBit short of a byte boundary. -/
theorem writeBit_partial {s : State} (b : Bool) (h : s.wbits.toNat % 8 ≠ 7) :
    writeBit b s = .done () (s.setWriter (s.wbits + 1) (accumulate s.wacc b) s.outLen s.outCap) := by
  unfold writeBit
  have h1 : (s.wbits + 1).toNat % 8 ≠ 0 := by
    have := s.wbits.isLt
    have e : (1 : Word).toNat = 1 := rfl
    rw [BitVec.toNat_add, e]; omega
  rw [if_neg (fun hc => h hc.1), if_neg h1]

/-- WriteBit that completes a byte for which there is room. -/
theorem writeBit_flush {s : State} (b : Bool) (h : s.wbits.toNat % 8 = 7) (hr : s.outLen.toNat < s.params.outMax) :
    writeBit b s =
      .done () ((s.setMem .out (Memory.write s.outMem s.outLen.toNat ((accumulate s.wacc b).setWidth 8))).setWriter
        (s.wbits + 1) 0 (s.outLen + 1) (grownCap s)) := by
  unfold writeBit
  have h1 : (s.wbits + 1).toNat % 8 = 0 := by
    have := s.wbits.isLt
    have e : (1 : Word).toNat = 1 := rfl
    rw [BitVec.toNat_add, e]; omega
  have h2 : ¬ (s.wbits.toNat % 8 = 7 ∧ s.outLen.toNat = s.params.outMax) := by omega
  have h3 : s.outLen.toNat < s.params.size .out := hr
  simp only [h2, if_false, h1, if_true, engineWrite_inside h3, Run.bind_done, State.mem_out]

theorem toNat_add_one {w : Word} (h : w.toNat < 2 ^ 32 - 1) : (w + 1).toNat = w.toNat + 1 := by
  have e : (1 : Word).toNat = 1 := rfl
  rw [BitVec.toNat_add, e]; omega

theorem grownCap_toNat {s : State} (h : s.Inv) :
    (grownCap s).toNat = if s.outLen = s.outCap then min (2 * s.outCap.toNat) s.params.outMax else s.outCap.toNat := by
  unfold grownCap
  split_ifs
  · have := Params.Legal.outMax_lt h.legal
    rw [BitVec.toNat_ofNat, Nat.mod_eq_of_lt (by omega)]
  · rfl

/-- WriteBit in a state of the invariant: it raises CapacityExceeded exactly when the byte it completes has no room, and
otherwise writes the bit. -/
theorem writeBit_cases {s : State} (h : s.Inv) (b : Bool) :
    ((s.wbits.toNat % 8 = 7 ∧ s.outLen.toNat = s.params.outMax) ∧ writeBit b s = .raised .capacityExceeded s) ∨
      (¬ (s.wbits.toNat % 8 = 7 ∧ s.outLen.toNat = s.params.outMax) ∧
        ∃ t, writeBit b s = .done () t ∧ Wrote [b] s t) := by
  by_cases hf : s.wbits.toNat % 8 = 7 ∧ s.outLen.toNat = s.params.outMax
  · exact .inl ⟨hf, writeBit_full hf⟩
  refine .inr ⟨hf, ?_⟩
  obtain ⟨w1, w2, w3, w4, j, w5⟩ := h.writer
  have hom : s.params.outMax ≤ 2 ^ 27 := h.legal.2.2.1.2
  have hwb := toNat_add_one (w := s.wbits) (by omega)
  by_cases h7 : s.wbits.toNat % 8 = 7
  · have hroom : s.outLen.toNat < s.params.outMax := by omega
    have hol := toNat_add_one (w := s.outLen) (by omega)
    have hgc := grownCap_toNat h
    have hcap0 : 1 ≤ s.params.outCap0 := h.legal.2.2.2.1
    have hpos : 1 ≤ s.outCap.toNat := by
      rw [w5]
      have : 1 ≤ s.params.outCap0 * 2 ^ j := Nat.mul_pos hcap0 (by positivity)
      omega
    refine ⟨_, writeBit_flush b h7 hroom, ⟨⟨h.legal, h.status, ?_, h.reader, ?_, ?_⟩, ?_, ?_, ?_, ?_⟩⟩
    · exact memoriesFit_setMem h.memories (write_fits _ h.memories.2.2 hroom)
    · refine ⟨?_, ?_, ?_, ?_, ?_⟩
      · simp only [State.setWriter_outLen, State.setWriter_wbits]; omega
      · simp only [State.setWriter_wacc, State.setWriter_wbits]
        have : (0 : Word).toNat = 0 := rfl
        rw [this]; positivity
      · simp only [State.setWriter_outLen, State.setWriter_outCap, hol, hgc]
        split_ifs with he
        · have : s.outLen.toNat = s.outCap.toNat := by rw [he]
          omega
        · have : s.outLen.toNat ≠ s.outCap.toNat := fun e => he (BitVec.eq_of_toNat_eq e)
          omega
      · simp only [State.setWriter_outCap, hgc, State.setWriter_params, State.setMem_params]
        split_ifs <;> omega
      · simp only [State.setWriter_outCap, hgc, State.setWriter_params, State.setMem_params]
        split_ifs
        · refine ⟨j + 1, ?_⟩
          rw [w5, pow_succ, ← mul_assoc]
          omega
        · exact ⟨j, w5⟩
    · intro a ha
      simp only [State.setWriter_outLen, hol] at ha
      simp only [State.setWriter_outMem, State.setMem_out_outMem]
      by_cases e : a = s.outLen.toNat
      · subst e; simp
      · rw [lookup_write_other _ e]; exact h.written a (by omega)
    · simp only [State.writtenBits, State.setWriter_outLen, State.setWriter_wbits, State.setWriter_wacc, hol, hwb]
      rw [State.setWriter_bytesAt, show (s.wbits.toNat + 1) % 8 = 0 by omega, h7, bytesAt_add, Nat.zero_add]
      have h1 : State.bytesAt (s.setMem .out (Memory.write s.outMem s.outLen.toNat ((accumulate s.wacc b).setWidth 8)))
          .out 0 s.outLen.toNat = s.bytesAt .out 0 s.outLen.toNat := by
        refine bytesAt_eq_of fun i hi => ?_
        exact byteAt_write_other s .out _ (by omega)
      have h2 : State.bytesAt (s.setMem .out (Memory.write s.outMem s.outLen.toNat ((accumulate s.wacc b).setWidth 8)))
          .out s.outLen.toNat 1 = [(accumulate s.wacc b).setWidth 8] := by
        rw [State.bytesAt, State.bytesAt]
        exact congrArg (· :: []) (byteAt_write_same s .out _ _)
      rw [h1, h2, List.flatMap_append, List.append_assoc, List.append_assoc]
      simp [byteBits_setWidth, lowBits_accumulate s.wacc b 7 (by omega), lowBits.eq_1]
    · exact hwb
    · rfl
    · intro a ha
      simp only [State.setWriter_outLen, hol] at ha
      rw [State.setWriter_byteAt]
      exact byteAt_write_other s .out _ (by omega)
  · refine ⟨_, writeBit_partial b h7, ⟨⟨h.legal, h.status, h.memories, h.reader, ?_, h.written⟩, ?_, ?_, rfl, fun a _ => rfl⟩⟩
    · refine ⟨?_, ?_, w3, w4, j, w5⟩
      · simp only [State.setWriter_outLen, State.setWriter_wbits]; omega
      · simp only [State.setWriter_wacc, State.setWriter_wbits]
        rw [show (s.wbits + 1).toNat % 8 = s.wbits.toNat % 8 + 1 by omega]
        exact accumulate_lt b w2
    · simp only [State.writtenBits, State.setWriter_outLen, State.setWriter_wbits, State.setWriter_wacc]
      rw [State.setWriter_bytesAt, show (s.wbits + 1).toNat % 8 = s.wbits.toNat % 8 + 1 by omega,
        lowBits_accumulate s.wacc b _ (by omega)]
      simp only [List.append_assoc]
    · exact hwb

theorem Wrote.outLen {bits : List Bool} {s t : State} (hs : s.Inv) (h : Wrote bits s t) :
    s.outLen.toNat ≤ t.outLen.toNat := by
  have h1 := hs.writer.1
  have h2 := h.inv.writer.1
  have h3 := h.count
  omega

theorem Wrote.params {bits : List Bool} {s t : State} (h : Wrote bits s t) : t.params = s.params := by
  have := congrArg State.params h.same; simpa using this

theorem Wrote.trans {bs bs' : List Bool} {s t u : State} (hs : s.Inv) (h : Wrote bs s t) (h' : Wrote bs' t u) :
    Wrote (bs ++ bs') s u := by
  refine ⟨h'.inv, ?_, ?_, h.same.trans h'.same, fun a ha => ?_⟩
  · rw [h'.stream, h.stream, List.append_assoc]
  · rw [h'.count, h.count, List.length_append]; omega
  · have l1 := h.outLen hs
    have l2 := h'.outLen h.inv
    rw [h'.bytes a (by omega), h.bytes a (by omega)]

/-- Writing bits: all of them while there is room; otherwise CapacityExceeded, with the bits that fit written
(60_exceptions.md R255). The room is that of 8 × OUT_MAX + 7 bits in all (10_state.md R33). -/
theorem writeBits_cases (bits : List Bool) : ∀ {s : State}, s.Inv →
    (s.wbits.toNat + bits.length ≤ 8 * s.params.outMax + 7 ∧ ∃ t, writeBits bits s = .done () t ∧ Wrote bits s t) ∨
      (8 * s.params.outMax + 7 < s.wbits.toNat + bits.length ∧
        ∃ t, writeBits bits s = .raised .capacityExceeded t ∧
          Wrote (bits.take (8 * s.params.outMax + 7 - s.wbits.toNat)) s t) := by
  induction bits with
  | nil =>
    intro s h
    have hb := writer_bound h
    refine .inl ⟨by simpa using hb, s, rfl, ⟨h, by simp, by simp, .refl s, fun _ _ => rfl⟩⟩
  | cons b bits ih =>
    intro s h
    have hb := writer_bound h
    have hw := h.writer.1
    rcases writeBit_cases h b with ⟨hf, he⟩ | ⟨hf, t, ht, wt⟩
    · refine .inr ⟨by rw [List.length_cons]; omega, s, by rw [writeBits, he]; rfl, ?_⟩
      rw [show 8 * s.params.outMax + 7 - s.wbits.toNat = 0 by omega]
      exact ⟨h, by simp, by simp, .refl s, fun _ _ => rfl⟩
    · have hp := wt.params
      have hc := wt.count
      have hlt : s.wbits.toNat < 8 * s.params.outMax + 7 := by
        have := writer_bound wt.inv
        simp only [List.length_cons, List.length_nil] at hc
        rw [hp] at this; omega
      have hcount : t.wbits.toNat = s.wbits.toNat + 1 := by simpa using hc
      rcases ih wt.inv with ⟨hr, u, hu, wu⟩ | ⟨hr, u, hu, wu⟩
      · refine .inl ⟨by rw [List.length_cons]; rw [hp] at hr; omega, u, by rw [writeBits, ht]; exact hu, ?_⟩
        exact wt.trans h wu
      · refine .inr ⟨by rw [List.length_cons]; rw [hp] at hr; omega, u, by rw [writeBits, ht]; exact hu, ?_⟩
        rw [hp, hcount] at wu
        rw [show 8 * s.params.outMax + 7 - s.wbits.toNat = (8 * s.params.outMax + 7 - (s.wbits.toNat + 1)) + 1 by omega]
        exact wt.trans h wu

end Sys2Proof.Machine
end

