-- ==== Sys2Proof/Laws/Codec.lean ====
section
/-! SUPPORT. What the decoders can do to the state (43_codec.md R212, R216, R223), and what they return over the bits the
encoders write. -/

namespace Sys2Proof.Machine

/-! ### The decoders move only the cursor -/

/-- A reading: it completes, or raises DecodeOverflow, with only the cursor moved, or leaves IN_MEM. -/
def Reading {α : Type} (s : State) (r : Run α) : Prop :=
  (∃ a c, r = .done a (s.setRcur c)) ∨ (∃ c, r = .raised .decodeOverflow (s.setRcur c)) ∨ ∃ a, r = .stray .inp a

/-- A reading whose input is inside IN_MEM does not leave it. -/
def ReadingInside {α : Type} (s : State) (r : Run α) : Prop :=
  (∃ a c, r = .done a (s.setRcur c)) ∨ ∃ c, r = .raised .decodeOverflow (s.setRcur c)

theorem Reading.bind {α β : Type} {s : State} {r : Run α} {f : α → State → Run β} (h : Reading s r)
    (hf : ∀ a c, Reading (s.setRcur c) (f a (s.setRcur c))) : Reading s (r.bind f) := by
  rcases h with ⟨a, c, rfl⟩ | ⟨c, rfl⟩ | ⟨a, rfl⟩
  · exact hf a c
  · exact .inr (.inl ⟨c, rfl⟩)
  · exact .inr (.inr ⟨a, rfl⟩)

theorem ReadingInside.bind {α β : Type} {s : State} {r : Run α} {f : α → State → Run β} (h : ReadingInside s r)
    (hf : ∀ a c, ReadingInside (s.setRcur c) (f a (s.setRcur c))) : ReadingInside s (r.bind f) := by
  rcases h with ⟨a, c, rfl⟩ | ⟨c, rfl⟩
  · exact hf a c
  · exact .inr ⟨c, rfl⟩

theorem Reading.done {α : Type} (s : State) (a : α) : Reading s (.done a s) := .inl ⟨a, s.rcur, rfl⟩

theorem readBit_reading (s : State) : Reading s (readBit s) := by
  rcases readBit_cases s with ⟨b, c, h⟩ | ⟨a, h⟩
  · exact .inl ⟨b, c, h⟩
  · exact .inr (.inr ⟨a, h⟩)

theorem readBit_readingInside {s : State} (h : s.rlen.toNat ≤ s.params.inMax) : ReadingInside s (readBit s) :=
  .inl ⟨_, _, readBit_inside h⟩

theorem decBoundedFrom_reading (max : Word) :
    ∀ (n : Nat) (tied : Bool) (v : Word) (s : State), Reading s (decBoundedFrom max n tied v s)
  | 0, _, v, s => .done s v
  | n + 1, tied, v, s => by
    rw [decBoundedFrom]
    split_ifs
    · exact (readBit_reading s).bind fun b c => decBoundedFrom_reading max n _ _ _
    · exact decBoundedFrom_reading max n _ _ _

theorem decBounded_reading (max : Word) (s : State) : Reading s (decBounded max s) := by
  unfold decBounded
  split_ifs
  · exact .done s 0
  · exact decBoundedFrom_reading max _ _ _ s

/-- DecBounded never raises (43_codec.md R212: "It cannot fail"). -/
theorem decBoundedFrom_inside (max : Word) : ∀ (n : Nat) (tied : Bool) (v : Word) {s : State},
    s.rlen.toNat ≤ s.params.inMax → ∃ v' c, decBoundedFrom max n tied v s = .done v' (s.setRcur c)
  | 0, _, v, s, _ => ⟨v, s.rcur, rfl⟩
  | n + 1, tied, v, s, h => by
    rw [decBoundedFrom]
    split_ifs
    · rw [readBit_inside h]
      obtain ⟨v', c, hc⟩ := decBoundedFrom_inside max n (stillTied tied max n (peekBit s))
        (v ||| (bitWord (peekBit s) <<< n)) (s := s.setRcur (nextRcur s)) h
      exact ⟨v', c, hc⟩
    · exact decBoundedFrom_inside max n _ _ h

theorem decBounded_inside (max : Word) {s : State} (h : s.rlen.toNat ≤ s.params.inMax) :
    ∃ v c, decBounded max s = .done v (s.setRcur c) := by
  unfold decBounded
  split_ifs
  · exact ⟨0, s.rcur, rfl⟩
  · exact decBoundedFrom_inside max _ _ _ h

theorem decBoundedFrom_not_raised (max : Word) : ∀ (n : Nat) (tied : Bool) (v : Word) (s t : State) (c : FaultCode),
    decBoundedFrom max n tied v s ≠ .raised c t
  | 0, _, v, s, t, c => by simp [decBoundedFrom]
  | n + 1, tied, v, s, t, c => by
    rw [decBoundedFrom]
    split_ifs
    · rcases readBit_cases s with ⟨b, c', h⟩ | ⟨a, h⟩
      · rw [h]; exact decBoundedFrom_not_raised max n _ _ _ t c
      · rw [h]; simp
    · exact decBoundedFrom_not_raised max n _ _ s t c

theorem decBounded_not_raised (max : Word) (s t : State) (c : FaultCode) : decBounded max s ≠ .raised c t := by
  unfold decBounded
  split_ifs
  · simp
  · exact decBoundedFrom_not_raised max _ _ _ s t c

theorem decUnboundedLoop_reading :
    ∀ (room v k : Nat) (s : State), Reading s (decUnboundedLoop room v k s)
  | 0, v, k, s => by
    rw [decUnboundedLoop]
    refine (readBit_reading s).bind fun b c => ?_
    split_ifs
    · exact .done _ _
    · exact .inr (.inl ⟨c, rfl⟩)
  | room + 1, v, k, s => by
    rw [decUnboundedLoop]
    refine (readBit_reading s).bind fun b c => ?_
    split_ifs
    · exact .done _ _
    · exact (readBit_reading _).bind fun b' c' => decUnboundedLoop_reading room _ _ _

theorem decUnboundedLoop_readingInside :
    ∀ (room v k : Nat) {s : State}, s.rlen.toNat ≤ s.params.inMax → ReadingInside s (decUnboundedLoop room v k s)
  | 0, v, k, s, h => by
    rw [decUnboundedLoop]
    refine (readBit_readingInside h).bind fun b c => ?_
    split_ifs
    · exact .inl ⟨_, c, rfl⟩
    · exact .inr ⟨c, rfl⟩
  | room + 1, v, k, s, h => by
    rw [decUnboundedLoop]
    refine (readBit_readingInside h).bind fun b c => ?_
    split_ifs
    · exact .inl ⟨_, c, rfl⟩
    · exact (readBit_readingInside (by exact h)).bind fun b' c' => decUnboundedLoop_readingInside room _ _ (by exact h)

theorem decUnbounded_reading (s : State) : Reading s (decUnbounded s) := by
  unfold decUnbounded
  refine (decUnboundedLoop_reading 31 0 0 s).bind fun vk c => ?_
  split_ifs
  · exact .inr (.inl ⟨c, rfl⟩)
  · exact .done _ _

theorem decUnbounded_readingInside {s : State} (h : s.rlen.toNat ≤ s.params.inMax) :
    ReadingInside s (decUnbounded s) := by
  unfold decUnbounded
  refine (decUnboundedLoop_readingInside 31 0 0 h).bind fun vk c => ?_
  split_ifs
  · exact .inr ⟨c, rfl⟩
  · exact .inl ⟨_, c, rfl⟩

/-- A decoded unbounded value is in the encoder's domain (43_codec.md R216). -/
theorem decUnbounded_range {s t : State} {n : Nat} (h : decUnbounded s = .done n t) : n ≤ 2 ^ 31 - 1 := by
  unfold decUnbounded at h
  rw [Run.bind_eq_done] at h
  obtain ⟨vk, u, -, h⟩ := h
  split_ifs at h with hr
  simp only [Run.done.injEq] at h
  omega

/-- DECBUF's loop moves the cursor and writes BUF_MEM from `i` up, in a state whose input and staging memory have room. -/
theorem decBytes_inside : ∀ (n i : Nat) {s : State}, s.rlen.toNat ≤ s.params.inMax → i + n ≤ s.params.bufMax →
    ∃ bytes c, bytes.length = n ∧
      decBytes n i s = .done () ((s.setMem .buf (Memory.writeList s.bufMem i bytes)).setRcur c)
  | 0, i, s, _, _ => ⟨[], s.rcur, rfl, rfl⟩
  | n + 1, i, s, h, hi => by
    obtain ⟨v, c, hv⟩ := decBounded_inside 255 h
    have hlt : i < (s.setRcur c).params.size .buf := by show i < s.params.bufMax; omega
    obtain ⟨bytes, c', hl, hb⟩ := decBytes_inside n (i + 1)
      (s := (s.setRcur c).setMem .buf (Memory.write s.bufMem i (v.setWidth 8))) h (by show i + 1 + n ≤ s.params.bufMax; omega)
    refine ⟨v.setWidth 8 :: bytes, c', by simp [hl], ?_⟩
    rw [decBytes, hv, Run.bind_done, engineWrite_inside hlt, Run.bind_done]
    exact hb

/-- In any state DECBUF's loop, if it completes, moved the cursor and wrote BUF_MEM from `i` up, and it never raises. -/
theorem decBytes_cases : ∀ (n i : Nat) (s : State),
    (∃ bytes c, bytes.length = n ∧
      decBytes n i s = .done () ((s.setMem .buf (Memory.writeList s.bufMem i bytes)).setRcur c)) ∨
      ∃ sp a, decBytes n i s = .stray sp a
  | 0, i, s => .inl ⟨[], s.rcur, rfl, rfl⟩
  | n + 1, i, s => by
    rw [decBytes]
    rcases decBounded_reading 255 s with ⟨v, c, hv⟩ | ⟨c, hv⟩ | ⟨a, hv⟩
    · rw [hv, Run.bind_done]
      by_cases hlt : i < (s.setRcur c).params.size .buf
      · rw [engineWrite_inside hlt, Run.bind_done]
        rcases decBytes_cases n (i + 1) ((s.setRcur c).setMem .buf (Memory.write s.bufMem i (v.setWidth 8))) with
          ⟨bytes, c', hl, hb⟩ | ⟨sp, a, hb⟩
        · exact .inl ⟨v.setWidth 8 :: bytes, c', by simp [hl], hb⟩
        · exact .inr ⟨sp, a, hb⟩
      · exact .inr ⟨.buf, i, by rw [engineWrite, if_neg hlt]; rfl⟩
    · exact absurd hv (decBounded_not_raised _ _ _ _)
    · exact .inr ⟨.inp, a, by rw [hv]; rfl⟩

/-! ### Round trips -/

/-- Over the bits that the bounded encoder writes at positions below `n`, the decoder adds those bits of num. -/
theorem decBoundedFrom_bits (num max : Word) : ∀ (n : Nat) (tied : Bool) (v : Word) {s : State} {c : Word},
    StandsOver s (boundedBitsFrom num max n tied) c →
    (∀ i < n, tied = true → max.getLsbD i = false → (∀ j, i < j → j < n → (max.getLsbD j = true → num.getLsbD j = true)) →
      num.getLsbD i = false) →
    ∃ v', decBoundedFrom max n tied v s = .done v' (s.setRcur c) ∧
      ∀ i, v'.getLsbD i = (v.getLsbD i || (decide (i < n) && num.getLsbD i))
  | 0, tied, v, s, c, h, _ => by
    refine ⟨v, ?_, fun i => by simp⟩
    rw [decBoundedFrom, ← standsOver_nil h]; rfl
  | n + 1, tied, v, s, c, h, hz => by
    rw [boundedBitsFrom] at h
    rw [decBoundedFrom]
    split_ifs at h ⊢ with hc
    · obtain ⟨c1, hb, h1⟩ := standsOver_cons h
      rw [hb, Run.bind_done]
      obtain ⟨v', hv, hbits⟩ := decBoundedFrom_bits num max n _ (v ||| (bitWord (num.getLsbD n) <<< n)) h1 (by
        intro i hi ht hm hj
        simp only [stillTied, Bool.and_eq_true, Bool.not_eq_true', Bool.and_eq_false_iff] at ht
        refine hz i (by omega) ht.1 hm fun j hij hjn hmj => ?_
        by_cases e : j = n
        · subst e
          rcases ht.2 with h' | h'
          · rw [hmj] at h'; cases h'
          · simpa using h'
        · exact hj j hij (by omega) hmj)
      refine ⟨v', hv, fun i => ?_⟩
      have hbw : (bitWord (num.getLsbD n)).getLsbD (i - n) = (decide (i - n = 0) && num.getLsbD n) := by
        cases num.getLsbD n
        · simp [bitWord]
        · rw [bitWord, if_pos rfl]
          show (1#32).getLsbD (i - n) = _
          rw [BitVec.getLsbD_one]; simp
      rw [hbits, BitVec.getLsbD_or, BitVec.getLsbD_shiftLeft, hbw]
      by_cases e : i = n
      · subst e
        by_cases h32 : i < 32
        · simp [h32]
        · simp [h32, BitVec.getLsbD_of_ge num i (by omega)]
      · by_cases hlt : i < n
        · simp [hlt, show i < n + 1 by omega]
        · simp [hlt, show ¬ i < n + 1 by omega, show ¬ (i - n = 0) by omega]
    · obtain ⟨ht, hm⟩ : tied = true ∧ max.getLsbD n = false := by
        cases tied <;> cases hmn : max.getLsbD n <;> simp_all
      have hn : num.getLsbD n = false := hz n (by omega) ht hm (fun j hj hjn => by omega)
      obtain ⟨v', hv, hbits⟩ := decBoundedFrom_bits num max n tied v h (by
        intro i hi _ hmi hj
        refine hz i (by omega) ht hmi fun j hij hjn hmj => ?_
        by_cases e : j = n
        · subst e; rw [hm] at hmj; cases hmj
        · exact hj j hij (by omega) hmj)
      refine ⟨v', hv, fun i => ?_⟩
      rw [hbits]
      by_cases e : i = n
      · subst e; simp [hn]
      · by_cases hlt : i < n
        · simp [hlt, show i < n + 1 by omega]
        · simp [hlt, show ¬ i < n + 1 by omega]

/-- Over the payload bits, each after a continuation bit, the unbounded decoder's loop adds them up. -/
theorem decUnboundedLoop_payload : ∀ (payload : List Bool) (rest : List Bool) (room v k : Nat) {s : State} {c : Word},
    payload.length ≤ room → StandsOver s ((payload.flatMap fun b => [true, b]) ++ rest) c →
    ∃ c', StandsOver (s.setRcur c') rest c ∧
      decUnboundedLoop room v k s =
        decUnboundedLoop (room - payload.length) (v + payload.foldr (fun b v => 2 * v + b.toNat) 0 * 2 ^ k)
          (k + payload.length) (s.setRcur c')
  | [], rest, room, v, k, s, c, _, h => ⟨s.rcur, h, by simp⟩
  | b :: payload, rest, room, v, k, s, c, hl, h => by
    rw [List.length_cons] at hl
    obtain ⟨room, rfl⟩ : ∃ r, room = r + 1 := ⟨room - 1, by omega⟩
    rw [List.flatMap_cons, List.append_assoc] at h
    obtain ⟨c1, hb1, h1⟩ := standsOver_cons h
    obtain ⟨c2, hb2, h2⟩ := standsOver_cons h1
    obtain ⟨c3, h3, he⟩ := decUnboundedLoop_payload payload rest room (v + b.toNat * 2 ^ k) (k + 1)
      (s := (s.setRcur c1).setRcur c2) (by omega) h2
    refine ⟨c3, h3, ?_⟩
    rw [decUnboundedLoop, hb1]
    simp only [Run.bind_done, Bool.true_eq_false, if_false, hb2]
    rw [he, List.length_cons, List.foldr_cons]
    congr 1
    · omega
    · rw [pow_succ]; ring
    · omega

/-- The pairs of the unbounded code are payload bits, each after a continuation bit, of value m less its leading 1. -/
theorem unboundedPairs_payload : ∀ (k m : Nat), 2 ^ k ≤ m → m < 2 ^ (k + 1) →
    ∃ payload : List Bool, unboundedPairs k m = (payload.flatMap fun b => [true, b]) ∧ payload.length = k ∧
      payload.foldr (fun b v => 2 * v + b.toNat) 0 + 2 ^ k = m
  | 0, m, h1, h2 => ⟨[], rfl, rfl, by simp at *; omega⟩
  | k + 1, m, h1, h2 => by
    have e1 : 2 ^ (k + 1) = 2 * 2 ^ k := by rw [pow_succ]; ring
    have e2 : 2 ^ (k + 1 + 1) = 2 * 2 ^ (k + 1) := by rw [pow_succ]; ring
    obtain ⟨p, hp, hl, hv⟩ := unboundedPairs_payload k (m / 2) (by omega) (by omega)
    refine ⟨(m % 2 == 1) :: p, by rw [unboundedPairs, hp]; rfl, by simp [hl], ?_⟩
    rw [List.foldr_cons]
    rcases Nat.mod_two_eq_zero_or_one m with h | h <;> simp [h] <;> omega

theorem unboundedBits_payload {n : Nat} (hn : n < 2 ^ 31) :
    ∃ payload : List Bool, unboundedBits n = (payload.flatMap fun b => [true, b]) ++ [false] ∧ payload.length ≤ 31 ∧
      payload.foldr (fun b v => 2 * v + b.toNat) 0 + 2 ^ payload.length - 1 = n := by
  have h1 : 2 ^ Nat.log2 (n + 1) ≤ n + 1 := Nat.log2_self_le (by omega)
  have h2 : n + 1 < 2 ^ (Nat.log2 (n + 1) + 1) := Nat.lt_log2_self
  obtain ⟨p, hp, hl, hv⟩ := unboundedPairs_payload _ _ h1 h2
  refine ⟨p, by rw [unboundedBits, hp], ?_, by rw [hl]; omega⟩
  rw [hl]
  by_contra hc
  have : 2 ^ 32 ≤ 2 ^ Nat.log2 (n + 1) := Nat.pow_le_pow_right (by omega) (by omega)
  omega

/-- DecUnbounded over payload bits and a terminator. -/
theorem decUnbounded_payload {s : State} {c : Word} {payload : List Bool} (hl : payload.length ≤ 31)
    (h : StandsOver s ((payload.flatMap fun b => [true, b]) ++ [false]) c) :
    decUnbounded s =
      if payload.foldr (fun b v => 2 * v + b.toNat) 0 + 2 ^ payload.length - 1 > 2 ^ 31 - 1 then
        .raised .decodeOverflow (s.setRcur c)
      else .done (payload.foldr (fun b v => 2 * v + b.toNat) 0 + 2 ^ payload.length - 1) (s.setRcur c) := by
  obtain ⟨c', h1, he⟩ := decUnboundedLoop_payload payload [false] 31 0 0 hl h
  obtain ⟨c2, hb, h2⟩ := standsOver_cons h1
  have hc2 := standsOver_nil h2
  simp only [State.setRcur_rcur] at hc2
  have hloop : decUnboundedLoop 31 0 0 s =
      .done (payload.foldr (fun b v => 2 * v + b.toNat) 0, payload.length) (s.setRcur c) := by
    rw [he, decUnboundedLoop, hb]
    simp [hc2]
  rw [decUnbounded, hloop]
  rfl

/-- DecUnbounded over the bits of n returns n. -/
theorem decUnbounded_bits {s : State} {c : Word} {n : Nat} (hn : n < 2 ^ 31) (h : StandsOver s (unboundedBits n) c) :
    decUnbounded s = .done n (s.setRcur c) := by
  obtain ⟨p, hp, hl, hv⟩ := unboundedBits_payload hn
  rw [hp] at h
  rw [decUnbounded_payload hl h, hv, if_neg (by omega)]

/-- msb(v) is the highest position of a 1. -/
theorem msb_bounds (v : Word) (hv : v ≠ 0) : msb v < 32 ∧ 2 ^ msb v ≤ v.toNat ∧ v.toNat < 2 ^ (msb v + 1) := by
  have h0 : v.toNat ≠ 0 := fun h => hv (BitVec.eq_of_toNat_eq (by simpa using h))
  refine ⟨?_, Nat.log2_self_le h0, Nat.lt_log2_self⟩
  exact (Nat.log2_lt h0).2 v.isLt

/-- One more bit, below the bits so far, is a sum. -/
theorem or_bit_toNat {v : Word} {i : Nat} (hi : i < 32) (hz : v.toNat % 2 ^ (i+1) = 0) (b : Bool) :
    (v ||| (bitWord b <<< i)).toNat = v.toNat + b.toNat * 2 ^ i := by
  have h2 : 2 ^ i < 2 ^ 32 := Nat.pow_lt_pow_right (by omega) hi
  have e : (bitWord b <<< i).toNat = b.toNat * 2 ^ i := by
    rw [BitVec.toNat_shiftLeft, Nat.shiftLeft_eq]
    cases b
    · simp [bitWord]
    · simp only [bitWord, if_true, Bool.toNat_true]; exact Nat.mod_eq_of_lt (by simpa using h2)
  rw [BitVec.toNat_or, e]
  obtain ⟨q, hq⟩ : 2 ^ (i+1) ∣ v.toNat := Nat.dvd_of_mod_eq_zero hz
  have : v.toNat = 2 ^ (i + 1) * q := hq
  rw [this, Nat.two_pow_add_eq_or_of_lt]
  rw [pow_succ]
  cases b <;> simp

/-- The scan so far equals max while tied, and is below it after; so the value decoded is at most max. -/
theorem decBoundedFrom_le (max : Word) : ∀ (n : Nat) (tied : Bool) (v : Word) (s t : State) (r : Word), n ≤ 32 →
    v.toNat % 2 ^ n = 0 → (tied = true → v.toNat / 2 ^ n = max.toNat / 2 ^ n) → (tied = false → v.toNat / 2 ^ n < max.toNat / 2 ^ n) →
    decBoundedFrom max n tied v s = .done r t → r.toNat ≤ max.toNat
  | 0, tied, v, s, t, r, _, _, h1, h2, h => by
    rw [decBoundedFrom] at h
    injection h with h _
    subst h
    cases tied
    · have := h2 rfl; simp at this; omega
    · have := h1 rfl; simp at this; omega
  | n + 1, tied, v, s, t, r, hn, hz, h1, h2, h => by
    rw [decBoundedFrom] at h
    have hp : 2 ^ (n + 1) = 2 * 2 ^ n := by rw [pow_succ]; ring
    have hpos : 0 < 2 ^ n := by positivity
    obtain ⟨q, hq⟩ : 2 ^ (n+1) ∣ v.toNat := Nat.dvd_of_mod_eq_zero hz
    have hv1 : v.toNat / 2 ^ (n+1) = q := by rw [hq]; exact Nat.mul_div_cancel_left _ (by positivity)
    have hmax : max.toNat / 2 ^ n = 2 * (max.toNat / 2 ^ (n+1)) + (max.getLsbD n).toNat := by
      rw [BitVec.getLsbD, Nat.testBit, Nat.shiftRight_eq_div_pow, hp, Nat.mul_comm 2 (2^n), ← Nat.div_div_eq_div_mul]
      simp
      rcases Nat.mod_two_eq_zero_or_one (max.toNat / 2 ^ n) with e | e <;> simp [e] <;> omega
    split_ifs at h with hc
    · rw [Run.bind_eq_done] at h
      obtain ⟨b, u, hb, h⟩ := h
      have ho := or_bit_toNat (show n < 32 by omega) hz b
      have hd : (v ||| (bitWord b <<< n)).toNat / 2 ^ n = 2 * q + b.toNat := by
        rw [ho, hq, hp]
        rw [show 2 * 2 ^ n * q + b.toNat * 2 ^ n = (2 * q + b.toNat) * 2 ^ n by ring, Nat.mul_div_cancel _ hpos]
      refine decBoundedFrom_le max n _ _ u t r (by omega) ?_ ?_ ?_ h
      · rw [ho, hq, hp, show 2 * 2 ^ n * q + b.toNat * 2 ^ n = (2 * q + b.toNat) * 2 ^ n by ring, Nat.mul_mod_left]
      · intro ht
        rw [hd, hmax]
        simp only [stillTied, Bool.and_eq_true, Bool.not_eq_true', Bool.and_eq_false_iff] at ht
        have := h1 ht.1
        rw [hv1] at this
        rw [← this]
        rcases hc with hc | hc
        · rw [ht.1] at hc; cases hc
        · rcases ht.2 with h' | h'
          · rw [hc] at h'; cases h'
          · simp at h'; rw [hc, h']
      · intro ht
        rw [hd, hmax]
        cases htt : tied
        · have := h2 htt; rw [hv1] at this; cases b <;> cases max.getLsbD n <;> simp <;> omega
        · have := h1 htt; rw [hv1] at this
          rw [stillTied, htt] at ht
          simp at ht
          rw [ht.1, ht.2, this]; simp
    · have hm : max.getLsbD n = false := by cases hx : max.getLsbD n <;> simp_all
      have htt : tied = true := by cases tied <;> simp_all
      refine decBoundedFrom_le max n _ _ s t r (by omega) ?_ ?_ ?_ h
      · rw [hq, hp, show 2 * 2 ^ n * q = 2 ^ n * (2 * q) by ring]; exact Nat.mul_mod_right _ _
      · intro _
        rw [hmax, hm, ← h1 htt, hv1, hq, hp, show 2 * 2 ^ n * q = 2 ^ n * (2 * q) by ring, Nat.mul_div_cancel_left _ hpos]; simp
      · intro h; rw [htt] at h; cases h

theorem decBounded_le {max : Word} {s t : State} {r : Word} (h : decBounded max s = .done r t) : r.toNat ≤ max.toNat := by
  unfold decBounded at h
  split_ifs at h with h0
  · injection h with h _; subst h; simp
  · obtain ⟨h1, h2, h3⟩ := msb_bounds max h0
    refine decBoundedFrom_le max _ true 0 s t r (by omega) (by simp) (fun _ => ?_) (fun h => by cases h) h
    rw [Nat.div_eq_of_lt h3]; simp

/-- DecBounded over the bits of num returns num. -/
theorem decBounded_bits {s : State} {num max c : Word} (hle : num.toNat ≤ max.toNat)
    (hs : StandsOver s (boundedBits num max) c) : decBounded max s = .done num (s.setRcur c) := by
  unfold decBounded
  unfold boundedBits at hs
  split_ifs at hs ⊢ with h0
  · have := standsOver_nil hs
    have : num = 0 := BitVec.eq_of_toNat_eq (by rw [h0] at hle; simpa using hle)
    subst this; subst c; rfl
  · obtain ⟨h1, h2, h3⟩ := msb_bounds _ h0
    obtain ⟨v', hv, hb⟩ := decBoundedFrom_bits num max _ true 0 hs (by
      intro i hi _ hm hj
      by_contra hn
      have hn : num.getLsbD i = true := by simpa using hn
      -- num > max
      have : max.toNat < num.toNat := by
        rw [← Nat.div_add_mod max.toNat (2^(i+1)), ← Nat.div_add_mod num.toNat (2^(i+1))]
        have hle : max.toNat / 2^(i+1) ≤ num.toNat / 2^(i+1) := by
          rw [← Nat.shiftRight_eq_div_pow, ← Nat.shiftRight_eq_div_pow]
          have : max.toNat >>> (i+1) &&& num.toNat >>> (i+1) = max.toNat >>> (i+1) := by
            apply Nat.eq_of_testBit_eq
            intro k
            rw [Nat.testBit_and, Nat.testBit_shiftRight, Nat.testBit_shiftRight]
            cases hk : max.toNat.testBit (i + 1 + k)
            · simp
            · have hlt : i + 1 + k < msb max + 1 := by
                by_contra hge
                rw [Nat.testBit_lt_two_pow (lt_of_lt_of_le h3 (Nat.pow_le_pow_right (by omega) (by omega)))] at hk; cases hk
              have := hj (i+1+k) (by omega) hlt hk
              rw [BitVec.getLsbD] at this; simp [this]
          rw [← this]; exact Nat.and_le_right
        have hp : 2 ^ (i + 1) = 2 * 2 ^ i := by rw [pow_succ]; ring
        have hmod : ∀ w : Word, w.toNat % 2^(i+1) = 2 ^ i * (w.getLsbD i).toNat + w.toNat % 2 ^ i := by
          intro w
          rw [hp, Nat.mul_comm 2, Nat.mod_mul, BitVec.getLsbD, Nat.testBit, Nat.shiftRight_eq_div_pow]
          simp
          rcases Nat.mod_two_eq_zero_or_one (w.toNat / 2 ^ i) with e | e <;> (simp [e]; try omega)
        rw [hmod, hmod, hm, hn]
        simp only [Bool.toNat_true, Bool.toNat_false]
        have := Nat.mod_lt max.toNat (show 2^i > 0 by positivity)
        have := Nat.mul_le_mul_left (2^(i+1)) hle
        omega
      omega)
    have : v' = num := by
      refine BitVec.eq_of_getLsbD_eq fun i hi => ?_
      rw [hb]; simp
      intro hn
      by_contra hi
      have : num.toNat < 2 ^ i := lt_of_le_of_lt hle (lt_of_lt_of_le h3 (Nat.pow_le_pow_right (by omega) (by omega)))
      rw [BitVec.getLsbD, Nat.testBit_lt_two_pow this] at hn; cases hn
    rw [hv, this]

/-- With max = 255 the bounded code of a byte is its eight bits (43_codec.md R222). -/
theorem boundedBits_byte (b : Byte) : boundedBits (b.setWidth 32) 255 = byteBits b := by
  have : ∀ b : Fin 256, boundedBits ((BitVec.ofNat 8 b.val).setWidth 32 : Word) 255 = byteBits (BitVec.ofNat 8 b.val) := by decide +kernel
  have h := this ⟨b.toNat, b.isLt⟩
  simpa using h

/-- DECBUF's loop over the bits of some bytes stores those bytes. -/
theorem decBytes_bits : ∀ (bytes : List Byte) (i : Nat) {s : State} {c : Word}, i + bytes.length ≤ s.params.bufMax →
    StandsOver s (bytes.flatMap byteBits) c →
    decBytes bytes.length i s = .done () ((s.setMem .buf (Memory.writeList s.bufMem i bytes)).setRcur c)
  | [], i, s, c, _, h => by rw [← standsOver_nil h]; rfl
  | b :: bytes, i, s, c, hi, h => by
    rw [List.length_cons] at hi
    rw [List.flatMap_cons] at h
    obtain ⟨c', h1, h2⟩ := standsOver_append h
    rw [← boundedBits_byte] at h1
    have hb : decBounded 255 s = .done (b.setWidth 32) (s.setRcur c') :=
      decBounded_bits (by have := b.isLt; simp; omega) h1
    have hw : (b.setWidth 32 : Word).setWidth 8 = b := by simp
    rw [List.length_cons, decBytes, hb, Run.bind_done, engineWrite_inside (by show i < s.params.bufMax; omega), Run.bind_done,
      hw]
    exact decBytes_bits bytes (i + 1) (s := (s.setRcur c').setMem .buf (Memory.write s.bufMem i b))
      (by show i + 1 + bytes.length ≤ s.params.bufMax; omega) (standsOver_setMem_buf _ h2)

end Sys2Proof.Machine
end

