-- ==== Sys2Proof/Laws/Framing.lean ====
section
/-! SUPPORT. Lengths of the keystream, of wrapped and recovered bytes, and everything an unwrapping in place can do. -/

namespace Sys2Proof.Machine

@[simp] theorem digest_toList_length (d : Digest) : d.toList.length = 32 := d.length_toList

theorem keyBlocks_length : ∀ (n : Nat) (d : Digest), (keyBlocks n d.toList).length = 32 * n
  | 0, _ => rfl
  | n + 1, d => by
    rw [keyBlocks, List.length_append, keyBlocks_length n, digest_toList_length]; omega

@[simp] theorem keyStream_length (d : Digest) (n : Nat) : (keyStream d.toList n).length = n := by
  rw [keyStream, List.length_take, keyBlocks_length]; omega

/-- A list of 32 bytes is a digest's. -/
theorem digest_of_length {l : List Byte} (h : l.length = 32) : ∃ d : Digest, d.toList = l :=
  ⟨⟨l.toArray, by simpa using h⟩, rfl⟩

theorem xorBytes_length (s t : List Byte) : (xorBytes s t).length = min s.length t.length := by simp [xorBytes]

@[simp] theorem xorBytes_keyStream_length (p : List Byte) (d : Digest) :
    (xorBytes p (keyStream d.toList p.length)).length = p.length := by simp [xorBytes]

theorem lockBytes_size (p : List Byte) : (lockBytes p).length = p.length + 32 := by simp [lockBytes]

theorem trailingDigest_length {c : List Byte} (h : 32 ≤ c.length) : (trailingDigest c).length = 32 := by
  rw [trailingDigest, List.length_drop]; omega

theorem unlockCandidate_length {c : List Byte} (h : 32 ≤ c.length) : (unlockCandidate c).length = c.length - 32 := by
  obtain ⟨d, hd⟩ := digest_of_length (trailingDigest_length h)
  rw [unlockCandidate, xorBytes_length, ← hd, keyStream_length, List.length_take]; omega

/-- With 32 bytes or more, Unlock returns the candidate, and says whether its digest is the trailing one. -/
theorem unlockBytes_long {c : List Byte} (h : 32 ≤ c.length) :
    (unlockBytes c).2 = unlockCandidate c ∧
      ((unlockBytes c).1 = .ok ∧ (sha256 (unlockCandidate c)).toList = trailingDigest c ∨
        (unlockBytes c).1 = .badSum ∧ (sha256 (unlockCandidate c)).toList ≠ trailingDigest c) := by
  rw [unlockBytes, if_neg (by omega)]
  split_ifs with hd
  · exact ⟨rfl, .inl ⟨rfl, hd⟩⟩
  · exact ⟨rfl, .inr ⟨rfl, hd⟩⟩

/-- Everything an unwrapping in place can do, when the wrapped bytes are inside their memory. -/
theorem unwrapInPlace_cases {sp : Space} {n : Nat} {s : State} (h : n ≤ s.params.size sp) :
    (n < 32 ∧ unwrapInPlace sp n s = .raised .invalidFormat s) ∨
      (32 ≤ n ∧ (unlockBytes (s.bytesAt sp 0 n)).2.length = n - 32 ∧
        (((unlockBytes (s.bytesAt sp 0 n)).1 = .badSum ∧
            unwrapInPlace sp n s =
              .raised .integrityError
                (s.setMem sp (Memory.writeList (s.mem sp) 0 (unlockBytes (s.bytesAt sp 0 n)).2))) ∨
          ((unlockBytes (s.bytesAt sp 0 n)).1 = .ok ∧
            unwrapInPlace sp n s =
              .done (n - 32) (s.setMem sp (Memory.writeList (s.mem sp) 0 (unlockBytes (s.bytesAt sp 0 n)).2))))) := by
  unfold unwrapInPlace
  by_cases hn : n < 32
  · exact .inl ⟨hn, if_pos hn⟩
  refine .inr ⟨by omega, ?_⟩
  have hlen : 32 ≤ (s.bytesAt sp 0 n).length := by rw [bytesAt_length]; omega
  obtain ⟨h2, h1⟩ := unlockBytes_long hlen
  have hl : (unlockBytes (s.bytesAt sp 0 n)).2.length = n - 32 := by
    rw [h2, unlockCandidate_length hlen, bytesAt_length]
  refine ⟨hl, ?_⟩
  rw [if_neg hn, memRead_inside (by omega), Run.bind_done, memWrite_inside (by rw [hl]; omega), Run.bind_done]
  rcases h1 with ⟨h1, -⟩ | ⟨h1, -⟩
  · exact .inr ⟨h1, by rw [h1]; rfl⟩
  · exact .inl ⟨h1, by rw [h1]; rfl⟩

end Sys2Proof.Machine
end

