-- ==== Sys2Proof/Laws/Exec.lean ====
section
/-! SUPPORT. What each command can do: the rule it runs, what that rule may change and raise in any state, and that from a
state of the invariant it stays in its memories and keeps the invariant. -/

namespace Sys2Proof.Machine

/-- The rule each command but RESET runs in the common frame. -/
def ruleOf : Instr → State → Run Unit
  | .nop => fun s => .done () s
  | .reset => fun s => .done () (resetAction s)
  | .openIo a b => openRule a b
  | .seek => seekRule
  | .wrbit => wrbitRule
  | .rdbit => rdbitRule
  | .encb => encbRule
  | .decb => decbRule
  | .encu => encuRule
  | .decu => decuRule
  | .encbuf => encbufRule
  | .decbuf => decbufRule
  | .getout a b => getoutRule a b
  | .hash => hashRule
  | .lock => lockRule
  | .unlock => unlockRule

theorem exec_eq {i : Instr} (h : i ≠ .reset) (s : State) : exec i s = command i (ruleOf i) s := by
  cases i <;> first | rfl | exact absurd rfl h

/-- What a command's rule may change. -/
def Changes (s u : State) : Instr → Prop
  | .nop => u = s
  | .reset => u = resetAction s
  | .seek => u = { s with rcur := u.rcur }
  | .rdbit | .decb | .decu => u = { s with rcur := u.rcur, result := u.result }
  | .wrbit | .encb | .encu | .encbuf => SameButWriter s u
  | .openIo _ unwrap =>
    u = { s with
      inMem := u.inMem, mode := u.mode, rlen := u.rlen, rcur := u.rcur
      wbits := u.wbits, wacc := u.wacc, outLen := u.outLen, outCap := u.outCap } ∧ (unwrap = false → u.inMem = s.inMem)
  | .getout _ _ | .lock | .unlock => u = { s with bufMem := u.bufMem, bufLen := u.bufLen }
  | .decbuf => u = { s with rcur := u.rcur, result := u.result, bufMem := u.bufMem, bufLen := u.bufLen }
  | .hash => u = { s with digest := u.digest }

/-- A piece of work changes only what `P` allows and raises only what `F` lists, if it does not leave its memories. -/
def Run.Does {α : Type} (P : State → Prop) (F : List FaultCode) : Run α → Prop
  | .done _ s => P s
  | .raised c s => c ∈ F ∧ P s
  | .stray _ _ => True

theorem Run.Does.bind {α β : Type} {P Q : State → Prop} {F : List FaultCode} {r : Run α} {f : α → State → Run β}
    (h : r.Does P F) (hP : ∀ s, P s → Q s) (hf : ∀ a s, r = .done a s → P s → (f a s).Does Q F) : (r.bind f).Does Q F := by
  cases r with
  | done a s => exact hf a s rfl h
  | raised c s => exact ⟨h.1, hP s h.2⟩
  | stray sp a => trivial

/-! ### The pieces -/

theorem writeBit_does (b : Bool) (s : State) : (writeBit b s).Does (SameButWriter s) [.capacityExceeded] := by
  unfold writeBit engineWrite
  simp only []
  split_ifs
  · exact ⟨by simp, rfl⟩
  · exact rfl
  · trivial
  · exact rfl

theorem writeBits_does : ∀ (bits : List Bool) (s : State), (writeBits bits s).Does (SameButWriter s) [.capacityExceeded]
  | [], s => SameButWriter.refl s
  | b :: bits, s => by
    rw [writeBits]
    refine (writeBit_does b s).bind (fun _ h => h) fun _ u _ hu => ?_
    have h := writeBits_does bits u
    cases hr : writeBits bits u with
    | done a t => rw [hr] at h; exact hu.trans h
    | raised c t => rw [hr] at h; exact ⟨h.1, hu.trans h.2⟩
    | stray sp a => trivial

theorem Reading.does {α : Type} {s : State} {r : Run α} (h : Reading s r) :
    r.Does (fun u => u = { s with rcur := u.rcur }) [.decodeOverflow] := by
  rcases h with ⟨a, c, rfl⟩ | ⟨c, rfl⟩ | ⟨a, rfl⟩
  · exact rfl
  · exact ⟨by simp, rfl⟩
  · trivial

theorem memRead_does (sp : Space) (a n : Nat) (s : State) (F : List FaultCode) : (memRead sp a n s).Does (· = s) F := by
  unfold memRead; split_ifs
  · exact rfl
  · trivial

theorem memWrite_does (sp : Space) (a : Nat) (bs : List Byte) (s : State) (F : List FaultCode) :
    (memWrite sp a bs s).Does (· = s.setMem sp (Memory.writeList (s.mem sp) a bs)) F := by
  unfold memWrite; split_ifs
  · exact rfl
  · trivial

theorem stagedLength_does (s : State) {F : List FaultCode} (hF : .capacityExceeded ∈ F) : (stagedLength s).Does (· = s) F := by
  rcases stagedLength_cases s with ⟨-, h⟩ | ⟨-, h⟩ <;> rw [h]
  · exact ⟨hF, rfl⟩
  · exact rfl

theorem inputLength_does (s : State) {F : List FaultCode} (hF : .capacityExceeded ∈ F) : (inputLength s).Does (· = s) F := by
  rcases inputLength_cases s with ⟨-, h⟩ | ⟨-, h⟩ <;> rw [h]
  · exact ⟨hF, rfl⟩
  · exact rfl

theorem deliverStaged_does (bs : List Byte) (s : State) (F : List FaultCode) :
    (deliverStaged bs s).Does (fun u => u = { s with bufMem := u.bufMem, bufLen := u.bufLen }) F :=
  (memWrite_does _ _ _ _ _).bind (fun _ h => by rw [h]; rfl) fun _ _ _ h => by rw [h]; exact rfl

theorem unwrapInPlace_does (sp : Space) (n : Nat) (s : State) {F : List FaultCode} (h1 : .invalidFormat ∈ F)
    (h2 : .integrityError ∈ F) : (unwrapInPlace sp n s).Does (fun u => ∃ m, u = s.setMem sp m) F := by
  unfold unwrapInPlace
  split_ifs
  · exact ⟨h1, s.mem sp, by cases sp <;> rfl⟩
  refine (memRead_does _ _ _ _ _).bind (fun u h => ⟨s.mem sp, by rw [h]; cases sp <;> rfl⟩) fun c u _ hu => ?_
  subst hu
  refine (memWrite_does _ _ _ _ _).bind (fun v h => ⟨_, h⟩) fun _ v _ hv => ?_
  subst hv
  split_ifs
  · exact ⟨h2, _, rfl⟩
  · exact ⟨_, rfl⟩

/-! ### The rules -/

/-- In any state a command's rule changes at most what `Changes` says and raises at most what `mayRaise` lists. -/
theorem ruleOf_does (i : Instr) (s : State) : (ruleOf i s).Does (fun u => Changes s u i) (mayRaise i) := by
  cases i with
  | nop => exact rfl
  | reset => exact rfl
  | seek => exact rfl
  | openIo a b =>
    have hF : FaultCode.capacityExceeded ∈ mayRaise (.openIo a b) := by cases b <;> simp [mayRaise]
    refine (inputLength_does s hF).bind (fun u h => by rw [h]; exact ⟨rfl, fun _ => rfl⟩) fun n u _ hu => ?_
    subst hu
    cases b with
    | false => exact ⟨rfl, fun _ => rfl⟩
    | true =>
      refine (unwrapInPlace_does .inp n u (by simp [mayRaise]) (by simp [mayRaise])).bind ?_ ?_
      · rintro v ⟨m, rfl⟩; exact ⟨rfl, fun h => nomatch h⟩
      · rintro len v - ⟨m, rfl⟩; exact ⟨rfl, fun h => nomatch h⟩
  | wrbit =>
    show (wrbitRule s).Does _ _
    unfold wrbitRule
    split_ifs
    · exact ⟨by simp [mayRaise], rfl⟩
    · have h := writeBit_does (s.arg0.getLsbD 0) s
      cases hr : writeBit (s.arg0.getLsbD 0) s with
      | done a t => rw [hr] at h; exact h
      | raised c t => rw [hr] at h; exact ⟨by have := h.1; simp_all [mayRaise], h.2⟩
      | stray sp a => trivial
  | rdbit =>
    have h : (readBit s).Does (fun u => u = { s with rcur := u.rcur }) [] := by
      rcases readBit_cases s with ⟨b, c, h⟩ | ⟨a, h⟩ <;> rw [h]
      · exact rfl
      · trivial
    exact h.bind (fun u hu => by rw [hu]; rfl) fun b u _ hu => by rw [hu]; exact rfl
  | encb =>
    show (encbRule s).Does _ _
    unfold encbRule
    split_ifs
    · exact ⟨by simp [mayRaise], rfl⟩
    · have h := writeBits_does (boundedBits s.arg0 s.arg1) s
      cases hr : writeBits (boundedBits s.arg0 s.arg1) s with
      | done a t => rw [hr] at h; exact h
      | raised c t => rw [hr] at h; exact ⟨by have := h.1; simp_all [mayRaise], h.2⟩
      | stray sp a => trivial
  | decb =>
    have h : (decBounded s.arg1 s).Does (fun u => u = { s with rcur := u.rcur }) [] := by
      rcases decBounded_reading s.arg1 s with ⟨v, c, h⟩ | ⟨c, h⟩ | ⟨a, h⟩
      · rw [h]; exact rfl
      · exact absurd h (decBounded_not_raised _ _ _ _)
      · rw [h]; trivial
    exact h.bind (fun u hu => by rw [hu]; rfl) fun b u _ hu => by rw [hu]; exact rfl
  | encu =>
    show (encuRule s).Does _ _
    unfold encuRule
    split_ifs
    · exact ⟨by simp [mayRaise], rfl⟩
    · have h := writeBits_does (unboundedBits s.arg0.toNat) s
      cases hr : writeBits (unboundedBits s.arg0.toNat) s with
      | done a t => rw [hr] at h; exact h
      | raised c t => rw [hr] at h; exact ⟨by have := h.1; simp_all [mayRaise], h.2⟩
      | stray sp a => trivial
  | decu =>
    exact (decUnbounded_reading s).does.bind (fun u hu => by rw [hu]; rfl) fun b u _ hu => by rw [hu]; exact rfl
  | encbuf =>
    refine (stagedLength_does s (by simp [mayRaise])).bind (fun u hu => by rw [hu]; exact rfl) fun n u _ hu => ?_
    subst hu
    refine (memRead_does _ _ _ _ _).bind (fun v hv => by rw [hv]; exact rfl) fun bytes v _ hv => ?_
    subst hv
    exact writeBits_does _ v
  | decbuf =>
    have h : (decUnbounded s).Does (fun u => u = { s with rcur := u.rcur }) (mayRaise .decbuf) := by
      rcases decUnbounded_reading s with ⟨a, c, h⟩ | ⟨c, h⟩ | ⟨a, h⟩ <;> rw [h]
      · exact rfl
      · exact ⟨by simp [mayRaise], rfl⟩
      · trivial
    refine h.bind (fun u hu => by rw [hu]; rfl) fun n u _ hu => ?_
    split_ifs
    · exact ⟨by simp [mayRaise], by rw [hu]; rfl⟩
    rcases decBytes_cases n 0 u with ⟨bytes, c, -, h⟩ | ⟨sp, a, h⟩ <;> rw [h]
    · rw [hu]; exact rfl
    · trivial
  | getout a b =>
    have h : (materialize s).Does (· = s) (mayRaise (.getout a b)) :=
      (memRead_does _ _ _ _ _).bind (fun _ h => h) fun _ _ _ h => h
    refine h.bind (fun u hu => by rw [hu]; rfl) fun bytes u _ hu => ?_
    subst hu
    by_cases hc : (if a then trimZeros bytes else bytes).length + (if b then 32 else 0) > u.params.bufMax
    · rw [if_pos hc]; exact ⟨by simp [mayRaise], rfl⟩
    · rw [if_neg hc]; exact deliverStaged_does _ _ _
  | hash =>
    refine (stagedLength_does s (by simp [mayRaise])).bind (fun u hu => by rw [hu]; rfl) fun n u _ hu => ?_
    subst hu
    exact (memRead_does _ _ _ _ _).bind (fun v hv => by rw [hv]; rfl) fun m v _ hv => by rw [hv]; exact rfl
  | lock =>
    show (lockRule s).Does _ _
    unfold lockRule
    split_ifs
    · exact ⟨by simp [mayRaise], rfl⟩
    refine (memRead_does _ _ _ _ _).bind (fun v hv => by rw [hv]; rfl) fun m v _ hv => ?_
    subst hv
    exact deliverStaged_does _ _ _
  | unlock =>
    refine (stagedLength_does s (by simp [mayRaise])).bind (fun u hu => by rw [hu]; rfl) fun n u _ hu => ?_
    subst hu
    refine (unwrapInPlace_does .buf n u (by simp [mayRaise]) (by simp [mayRaise])).bind ?_ ?_
    · rintro v ⟨m, rfl⟩; rfl
    · rintro len v - ⟨m, rfl⟩; rfl

/-- Every next state a command but RESET answers: it was ignored, its rule completed, or its rule raised one of its faults. -/
theorem exec_next {i : Instr} {s t : State} (hi : i ≠ .reset) (h : exec i s = .next t) :
    (s.halted ∧ t = s) ∨ (¬ s.halted ∧ ruleOf i s = .done () t ∧ Changes s t i) ∨
      ¬ s.halted ∧ ∃ c ∈ mayRaise i, ∃ u, ruleOf i s = .raised c u ∧ Changes s u i ∧ t = faultEntry c (encode i) u := by
  rw [exec_eq hi] at h
  have hd := ruleOf_does i s
  rcases command_next h with h' | ⟨hh, h'⟩ | ⟨hh, c, u, h', rfl⟩
  · exact .inl h'
  · rw [h'] at hd; exact .inr (.inl ⟨hh, h', hd⟩)
  · rw [h'] at hd; exact .inr (.inr ⟨hh, c, hd.1, u, h', hd.2, rfl⟩)

/-! ### The invariant -/

theorem reader_inv {s : State} (h : s.Inv) (c v : Word) : State.Inv { s with rcur := c, result := v } :=
  ⟨h.legal, h.status, h.memories, h.reader, h.writer, h.written⟩

/-- Writing a memory other than OUT_MEM inside its size keeps the invariant. -/
theorem setMem_inv {s : State} {sp : Space} {m : Memory} (h : s.Inv) (hsp : sp ≠ .out)
    (hm : Memory.Fits m (s.params.size sp)) : (s.setMem sp m).Inv := by
  have hf := memoriesFit_setMem h.memories hm
  cases sp with
  | out => exact absurd rfl hsp
  | inp => exact ⟨h.legal, h.status, hf, h.reader, h.writer, h.written⟩
  | buf => exact ⟨h.legal, h.status, hf, h.reader, h.writer, h.written⟩

theorem setBufLen_inv {s : State} (h : s.Inv) (v : Word) : (s.setBufLen v).Inv :=
  ⟨h.legal, h.status, h.memories, h.reader, h.writer, h.written⟩

theorem staged_fits {s : State} (h : s.Inv) (sp : Space) : Memory.Fits (s.mem sp) (s.params.size sp) :=
  (memoriesFit_iff s).1 h.memories sp

/-- The writer of a new instance is legal: OUT_CAP = OUT_CAP0, no bit written (40_bitio.md R124). -/
theorem emptyWriter_legal {s : State} (h : s.params.Legal) : s.emptyWriter.WriterLegal := by
  have h0 : (BitVec.ofNat 32 s.params.outCap0).toNat = s.params.outCap0 := by
    have := Params.Legal.outCap0_lt h
    rw [BitVec.toNat_ofNat, Nat.mod_eq_of_lt this]
  have h1 := h.2.2.2.2
  refine ⟨by simp [State.emptyWriter], by simp [State.emptyWriter], by simp [State.emptyWriter], ?_, 0, ?_⟩
  · simpa [State.emptyWriter, h0] using h1
  · simp [State.emptyWriter, h0, h1]

theorem deliverStaged_ends {s : State} {bs : List Byte} (h : s.Inv) (hl : bs.length ≤ s.params.bufMax) :
    (deliverStaged bs s).Ends State.Inv := by
  rw [deliverStaged_inside hl]
  exact setBufLen_inv (setMem_inv h (by simp) (writeList_fits bs (staged_fits h .buf) (by simpa [Params.size] using hl))) _

theorem unwrapInPlace_ends {s : State} {sp : Space} {n : Nat} (h : s.Inv) (hsp : sp ≠ .out) (hn : n ≤ s.params.size sp) :
    (unwrapInPlace sp n s).Ends fun u => u.Inv ∧ u.params = s.params := by
  rcases unwrapInPlace_cases hn with ⟨-, e⟩ | ⟨h32, hl, ⟨-, e⟩ | ⟨-, e⟩⟩ <;> rw [e]
  · exact ⟨h, rfl⟩
  all_goals
    exact ⟨setMem_inv h hsp (writeList_fits _ (staged_fits h sp) (by rw [hl]; omega)), State.setMem_params s sp _⟩

theorem writeBits_ends {s : State} (h : s.Inv) (bits : List Bool) : (writeBits bits s).Ends State.Inv := by
  rcases writeBits_cases bits h with ⟨-, t, e, w⟩ | ⟨-, t, e, w⟩ <;> (rw [e]; exact w.inv)

/-- From a state of the invariant a command's rule stays in its memories and ends in a state of the invariant. -/
theorem ruleOf_ends (i : Instr) {s : State} (h : s.Inv) : (ruleOf i s).Ends State.Inv := by
  have hr : s.rlen.toNat ≤ s.params.inMax := h.reader.1
  cases i with
  | nop => exact h
  | reset =>
    exact ⟨h.legal, by simp [State.StatusLegal, resetAction, State.faultBit, State.faultField], h.memories,
      ⟨by simp [resetAction], by simp [resetAction]⟩, emptyWriter_legal h.legal, fun a ha => by simp [resetAction] at ha⟩
  | seek => exact reader_inv h _ _
  | openIo a b =>
    show (openRule a b s).Ends _
    have fin : ∀ (n : Nat) {u : State}, u.Inv → n ≤ u.params.inMax →
        ((u.setReader (bitWord a) (BitVec.ofNat 32 n) (bitWord a)).emptyWriter).Inv := by
      intro n u hu hn
      refine ⟨hu.legal, hu.status, hu.memories, ⟨?_, ?_⟩, emptyWriter_legal (s := u) hu.legal, fun a ha => by
        simp [State.emptyWriter] at ha⟩
      · show (BitVec.ofNat 32 n).toNat ≤ _
        have := Params.Legal.inMax_lt hu.legal
        rw [BitVec.toNat_ofNat, Nat.mod_eq_of_lt (by omega)]; exact hn
      · cases a <;> simp [bitWord, State.emptyWriter]
    unfold openRule
    rcases inputLength_cases s with ⟨-, e⟩ | ⟨hl, e⟩ <;> rw [e]
    · exact h
    rw [Run.bind_done]
    cases b with
    | false => exact fin _ h hl
    | true =>
      refine (unwrapInPlace_ends h (by simp) hl).bind (fun u hu => hu.1) fun n u hn hu => ?_
      refine fin n hu.1 ?_
      rcases unwrapInPlace_cases (sp := .inp) hl with ⟨-, e⟩ | ⟨-, -, ⟨-, e⟩ | ⟨-, e⟩⟩ <;>
        rw [e] at hn
      · cases hn
      · cases hn
      · injection hn with hn; rw [hu.2]; omega
  | wrbit =>
    show (wrbitRule s).Ends _
    unfold wrbitRule
    split_ifs
    · exact h
    · rcases writeBit_cases h (s.arg0.getLsbD 0) with ⟨-, e⟩ | ⟨-, t, e, w⟩ <;> rw [e]
      · exact h
      · exact w.inv
  | rdbit =>
    show (rdbitRule s).Ends _
    rw [rdbitRule, readBit_inside hr]
    exact reader_inv h _ _
  | encb =>
    show (encbRule s).Ends _
    unfold encbRule
    split_ifs
    · exact h
    · exact writeBits_ends h _
  | decb =>
    show (decbRule s).Ends _
    obtain ⟨v, c, e⟩ := decBounded_inside s.arg1 hr
    rw [decbRule, e]
    exact reader_inv h _ _
  | encu =>
    show (encuRule s).Ends _
    unfold encuRule
    split_ifs
    · exact h
    · exact writeBits_ends h _
  | decu =>
    show (decuRule s).Ends _
    rw [decuRule]
    rcases decUnbounded_readingInside hr with ⟨v, c, e⟩ | ⟨c, e⟩ <;> rw [e]
    · exact reader_inv h _ _
    · exact reader_inv h c s.result
  | encbuf =>
    show (encbufRule s).Ends _
    unfold encbufRule
    rcases stagedLength_cases s with ⟨-, e⟩ | ⟨hl, e⟩ <;> rw [e]
    · exact h
    rw [Run.bind_done, memRead_inside (by simpa [Params.size] using hl)]
    exact writeBits_ends h _
  | decbuf =>
    show (decbufRule s).Ends _
    unfold decbufRule
    rcases decUnbounded_readingInside hr with ⟨n, c, e⟩ | ⟨c, e⟩ <;> rw [e]
    · rw [Run.bind_done]
      have hc : (s.setRcur c).Inv := reader_inv h c s.result
      split_ifs with hn
      · exact hc
      obtain ⟨bytes, c', hl, e⟩ := decBytes_inside n 0 (s := s.setRcur c) hr (by simp at hn ⊢; omega)
      rw [e]
      have hm : ((s.setRcur c).setMem .buf (Memory.writeList (s.setRcur c).bufMem 0 bytes)).Inv :=
        setMem_inv hc (by simp) (writeList_fits _ (staged_fits hc .buf) (by rw [hl]; simp [Params.size] at hn ⊢; omega))
      exact reader_inv (setBufLen_inv hm _) _ _
    · exact reader_inv h c s.result
  | getout a b =>
    show (getoutRule a b s).Ends _
    have ho : s.outLen.toNat ≤ s.params.outMax := le_trans h.writer.2.2.1 h.writer.2.2.2.1
    rw [getoutRule, materialize, memRead_inside (by simpa [Params.size] using ho), Run.bind_done, Run.bind_done]
    by_cases hc : (if a then trimZeros (s.bytesAt .out 0 s.outLen.toNat ++ partialByte s)
        else s.bytesAt .out 0 s.outLen.toNat ++ partialByte s).length + (if b then 32 else 0) > s.params.bufMax
    · rw [if_pos hc]; exact h
    · rw [if_neg hc]
      refine deliverStaged_ends h ?_
      cases a <;> cases b <;> simp [outputBytes, lockBytes_size] at hc ⊢ <;> omega
  | hash =>
    show (hashRule s).Ends _
    unfold hashRule
    rcases stagedLength_cases s with ⟨-, e⟩ | ⟨hl, e⟩ <;> rw [e]
    · exact h
    rw [Run.bind_done, memRead_inside (by simpa [Params.size] using hl)]
    exact ⟨h.legal, h.status, h.memories, h.reader, h.writer, h.written⟩
  | lock =>
    show (lockRule s).Ends _
    unfold lockRule
    split_ifs with hl
    · exact h
    rw [memRead_inside (by simp [Params.size]; omega)]
    exact deliverStaged_ends h (by rw [lockBytes_size, bytesAt_length]; omega)
  | unlock =>
    show (unlockRule s).Ends _
    unfold unlockRule
    rcases stagedLength_cases s with ⟨-, e⟩ | ⟨hl, e⟩ <;> rw [e]
    · exact h
    refine (unwrapInPlace_ends h (by simp) hl).bind (fun u hu => hu.1) fun n u _ hu => setBufLen_inv hu.1 _

end Sys2Proof.Machine
end

