-- ==== Sys2Proof/Laws/Cursor.lean ====
section
/-! SUPPORT. Where reads leave the cursor (10_state.md R45): one read stays in the bounds, so everything built of reads does. -/

namespace Sys2Proof.Machine

/-- A reader of legal size whose cursor is in the bounds. -/
def CursorKept (s : State) : Prop := s.params.Legal ∧ s.rlen.toNat ≤ s.params.inMax ∧ s.CursorInBounds

theorem nextRcur_inBounds {s : State} (h : CursorKept s) : (s.setRcur (nextRcur s)).CursorInBounds := by
  obtain ⟨hp, hl, hc⟩ := h
  have h27 : s.rlen.toNat ≤ 2 ^ 27 := le_trans hl hp.1
  have e1 : (1 : Word).toNat = 1 := rfl
  have e2 : (2 : Word).toNat = 2 := rfl
  have ht := s.rcur.isLt
  unfold State.CursorInBounds at hc ⊢
  unfold nextRcur readLimit State.strided
  simp only [State.setRcur_mode, State.setRcur_rcur, State.setRcur_rlen]
  by_cases hm : s.mode.getLsbD 0 = true
  · rw [if_pos hm] at hc
    simp only [hm, if_true, Bool.true_eq_false, if_false]
    split_ifs
    · exact hc
    · rw [BitVec.toNat_add, e2]; omega
  · rw [if_neg hm] at hc
    simp only [Bool.not_eq_true] at hm
    simp only [hm, Bool.false_eq_true, if_false, if_true]
    split_ifs
    · exact hc
    · rw [BitVec.toNat_add, e1]; omega

theorem readBit_cursor {s : State} (h : CursorKept s) : (readBit s).Ends CursorKept := by
  rw [readBit_inside h.2.1]
  exact ⟨h.1, h.2.1, nextRcur_inBounds h⟩

theorem decBoundedFrom_cursor (max : Word) : ∀ (n : Nat) (tied : Bool) (v : Word) {s : State}, CursorKept s →
    (decBoundedFrom max n tied v s).Ends CursorKept
  | 0, _, _, _, h => h
  | n + 1, tied, v, s, h => by
    rw [decBoundedFrom]
    split_ifs
    · exact (readBit_cursor h).bind (fun _ hu => hu) fun _ _ _ hu => decBoundedFrom_cursor max n _ _ hu
    · exact decBoundedFrom_cursor max n _ _ h

theorem decBounded_cursor (max : Word) {s : State} (h : CursorKept s) : (decBounded max s).Ends CursorKept := by
  unfold decBounded
  split_ifs
  · exact h
  · exact decBoundedFrom_cursor max _ _ _ h

theorem decUnboundedLoop_cursor : ∀ (room v k : Nat) {s : State}, CursorKept s →
    (decUnboundedLoop room v k s).Ends CursorKept
  | 0, v, k, s, h => by
    rw [decUnboundedLoop]
    refine (readBit_cursor h).bind (fun _ hu => hu) fun _ _ _ hu => ?_
    split_ifs <;> exact hu
  | room + 1, v, k, s, h => by
    rw [decUnboundedLoop]
    refine (readBit_cursor h).bind (fun _ hu => hu) fun _ _ _ hu => ?_
    split_ifs
    · exact hu
    · exact (readBit_cursor hu).bind (fun _ hv => hv) fun _ _ _ hv => decUnboundedLoop_cursor room _ _ hv

theorem decUnbounded_cursor {s : State} (h : CursorKept s) : (decUnbounded s).Ends CursorKept := by
  unfold decUnbounded
  refine (decUnboundedLoop_cursor 31 0 0 h).bind (fun _ hu => hu) fun _ _ _ hu => ?_
  split_ifs <;> exact hu

theorem decBytes_cursor : ∀ (n i : Nat) {s : State}, CursorKept s → (decBytes n i s).Leaves CursorKept
  | 0, _, _, h => h
  | n + 1, i, s, h => by
    rw [decBytes]
    have hd := decBounded_cursor 255 h
    cases hr : decBounded 255 s with
    | raised c u => rw [hr] at hd; exact hd
    | stray sp a => trivial
    | done v u =>
      rw [hr] at hd
      rw [Run.bind_done]
      by_cases hi : i < u.params.size .buf
      · rw [engineWrite_inside hi, Run.bind_done]; exact decBytes_cursor n (i + 1) hd
      · rw [engineWrite, if_neg hi]; trivial

end Sys2Proof.Machine
end

