-- ==== Sys2Proof/Laws/Encoding.lean ====
section
/-! SUPPORT. The command word and its fields determine each other (30_encoding.md R90), and what the decoder of the fields does. -/

namespace Sys2Proof

theorem flagBit_getLsbD (b : Bool) : (flagBit b).getLsbD 0 = b := by cases b <;> rfl

/-- The bits of a packed word, field by field (30_encoding.md R90). -/
theorem pack_getLsbD (f : CmdFields) (i : Nat) :
    f.pack.getLsbD i =
      if i < 8 then f.opc.getLsbD i
      else if i < 9 then (flagBit f.f0).getLsbD (i - 8)
      else if i < 10 then (flagBit f.f1).getLsbD (i - 8 - 1)
      else if i < 16 then f.fres.getLsbD (i - 8 - 1 - 1)
      else f.res.getLsbD (i - 8 - 1 - 1 - 6) := by
  unfold CmdFields.pack
  simp only [BitVec.getLsbD_append]
  by_cases h1 : i < 8
  · simp only [h1, if_true]
  have e2 : (i - 8 < 1) = (i < 9) := by apply propext; omega
  have e3 : (i - 8 - 1 < 1) = (i < 10) := by apply propext; omega
  have e4 : (i - 8 - 1 - 1 < 6) = (i < 16) := by apply propext; omega
  simp only [h1, if_false, e2, e3, e4]

theorem parse_pack (f : CmdFields) : CmdFields.parse f.pack = f := by
  obtain ⟨opc, f0, f1, fres, res⟩ := f
  rw [CmdFields.parse, CmdFields.mk.injEq]
  refine ⟨?_, ?_, ?_, ?_, ?_⟩
  · refine BitVec.eq_of_getLsbD_eq fun i hi => ?_
    rw [BitVec.getLsbD_extractLsb', pack_getLsbD, Nat.zero_add]
    simp only [hi, decide_true, Bool.true_and, if_true]
  · rw [pack_getLsbD]; exact flagBit_getLsbD f0
  · rw [pack_getLsbD]; exact flagBit_getLsbD f1
  · refine BitVec.eq_of_getLsbD_eq fun i hi => ?_
    rw [BitVec.getLsbD_extractLsb', pack_getLsbD, if_neg (by omega), if_neg (by omega), if_neg (by omega),
      if_pos (by omega), show 10 + i - 8 - 1 - 1 = i by omega]
    simp only [hi, decide_true, Bool.true_and]
  · refine BitVec.eq_of_getLsbD_eq fun i hi => ?_
    rw [BitVec.getLsbD_extractLsb', pack_getLsbD, if_neg (by omega), if_neg (by omega), if_neg (by omega),
      if_neg (by omega), show 16 + i - 8 - 1 - 1 - 6 = i by omega]
    simp only [hi, decide_true, Bool.true_and]

theorem pack_parse (w : Word) : (CmdFields.parse w).pack = w := by
  refine BitVec.eq_of_getLsbD_eq fun i hi => ?_
  rw [pack_getLsbD, CmdFields.parse]
  simp only [BitVec.getLsbD_extractLsb']
  split_ifs with h1 h2 h3 h4
  · simp only [h1, decide_true, Bool.true_and, Nat.zero_add]
  · obtain rfl : i = 8 := by omega
    exact flagBit_getLsbD _
  · obtain rfl : i = 9 := by omega
    exact flagBit_getLsbD _
  · rw [show 10 + (i - 8 - 1 - 1) = i by omega, decide_eq_true (by omega), Bool.true_and]
  · rw [show 16 + (i - 8 - 1 - 1 - 6) = i by omega, decide_eq_true (by omega), Bool.true_and]

theorem pack_injective {f g : CmdFields} (h : f.pack = g.pack) : f = g := by
  rw [← parse_pack f, h, parse_pack]

theorem fields_injective {i j : Instr} (h : i.fields = j.fields) : i = j := by
  rw [Instr.fields, Instr.fields, CmdFields.mk.injEq] at h
  obtain ⟨h1, h2, h3, -, -⟩ := h
  cases i <;> cases j <;> simp_all [Instr.opcode, Instr.flags]

/-- What the selection of a command by its opcode and flags does, for each of the 256 opcodes: it gives the command with that
opcode, whose flags are the word's if it takes flags, or the opcode is not in the table. -/
theorem selectCommand_spec (opc : BitVec 8) (f0 f1 : Bool) :
    (selectCommand opc f0 f1 = none ∧ assignedOpcodes.contains opc = false) ∨
      ∃ i, selectCommand opc f0 f1 = some i ∧ i.opcode = opc ∧ assignedOpcodes.contains opc = true ∧
        i.flags = if flaggedOpcodes.contains opc then (f0, f1) else (false, false) := by
  have key : ∀ opc : Fin 256, ∀ f0 f1 : Bool,
      (match selectCommand (BitVec.ofFin opc) f0 f1 with
        | none => !assignedOpcodes.contains (BitVec.ofFin opc)
        | some i => i.opcode == BitVec.ofFin opc && assignedOpcodes.contains (BitVec.ofFin opc) &&
            (i.flags == if flaggedOpcodes.contains (BitVec.ofFin opc) then (f0, f1) else (false, false))) = true := by
    decide +kernel
  have h := key opc.toFin f0 f1
  rw [show BitVec.ofFin opc.toFin = opc from rfl] at h
  cases hs : selectCommand opc f0 f1 with
  | none => rw [hs] at h; exact .inl ⟨rfl, by simpa using h⟩
  | some i =>
    rw [hs] at h
    simp only [Bool.and_eq_true, beq_iff_eq] at h
    exact .inr ⟨i, rfl, h.1.1, h.1.2, h.2⟩

theorem instr_opcode_assigned (i : Instr) : assignedOpcodes.contains i.opcode = true := by
  cases i <;> rfl

/-- Decoding of fields succeeds exactly on the fields of a command. -/
theorem decodeFields_ok (f : CmdFields) (i : Instr) : decodeFields f = .ok i ↔ f = i.fields := by
  obtain ⟨opc, f0, f1, fres, res⟩ := f
  unfold decodeFields
  by_cases hr : res = 0
  swap
  · have : ({ opc, f0, f1, fres, res } : CmdFields).resOk = false := by simpa [CmdFields.resOk] using hr
    rw [if_pos this]
    refine ⟨fun h => by simp at h, fun h => ?_⟩
    rw [Instr.fields, CmdFields.mk.injEq] at h
    exact absurd h.2.2.2.2 hr
  by_cases hf : fres = 0
  swap
  · have : ({ opc, f0, f1, fres, res } : CmdFields).fresOk = false := by simpa [CmdFields.fresOk] using hf
    rw [if_neg (by simp [CmdFields.resOk, hr]), if_pos this]
    refine ⟨fun h => by simp at h, fun h => ?_⟩
    rw [Instr.fields, CmdFields.mk.injEq] at h
    exact absurd h.2.2.2.1 hf
  subst hr hf
  rw [if_neg (by simp [CmdFields.resOk]), if_neg (by simp [CmdFields.fresOk])]
  rcases selectCommand_spec opc f0 f1 with ⟨hn, hna⟩ | ⟨j, hs, ho, ha, hfl⟩
  · rw [hn]
    refine ⟨fun h => by simp at h, fun h => ?_⟩
    rw [Instr.fields, CmdFields.mk.injEq] at h
    rw [h.1, instr_opcode_assigned] at hna
    cases hna
  · rw [hs]
    simp only [CmdFields.flag0Ok, CmdFields.flag1Ok]
    have hj : j.fields = { opc := opc, f0 := j.flags.1, f1 := j.flags.2, fres := 0, res := 0 } := by
      rw [Instr.fields, ho]
    have hopc : ∀ k : Instr, k.opcode = opc → k.flags = j.flags → k = j := fun k h1 h2 =>
      fields_injective (by rw [Instr.fields, Instr.fields, h1, h2, ho])
    have hi : (({ opc := opc, f0 := f0, f1 := f1, fres := 0, res := 0 } : CmdFields) = i.fields) ↔
        opc = i.opcode ∧ f0 = i.flags.1 ∧ f1 = i.flags.2 := by
      rw [Instr.fields, CmdFields.mk.injEq]; tauto
    rw [hi]
    rcases Bool.eq_false_or_eq_true (flaggedOpcodes.contains opc) with hfo | hfo
    · rw [hfo, if_pos rfl] at hfl
      simp only [hfo, Bool.or_true, Bool.true_eq_false, if_false, Except.ok.injEq]
      constructor
      · intro h
        subst h
        exact ⟨ho.symm, by rw [hfl], by rw [hfl]⟩
      · rintro ⟨h1, h2, h3⟩
        exact (hopc i h1.symm (by rw [hfl, h2, h3])).symm
    · simp only [hfo, Bool.false_eq_true, if_false] at hfl
      have hni : opc = i.opcode → i.flags = (false, false) := by
        intro h
        rw [h] at hfo
        revert hfo
        cases i <;> simp [Instr.opcode, Instr.flags, flaggedOpcodes]
      simp only [hfo, Bool.or_false]
      cases f0 <;> cases f1
      · simp only [Bool.not_false, Bool.true_eq_false, if_false, Except.ok.injEq]
        constructor
        · intro h; subst h; exact ⟨ho.symm, by rw [hfl], by rw [hfl]⟩
        · rintro ⟨h1, h2, h3⟩
          exact (hopc i h1.symm (by rw [hfl, hni h1])).symm
      all_goals
        simp only [Bool.not_false, Bool.not_true, Bool.true_eq_false, if_false, if_true, reduceCtorEq, false_iff]
        rintro ⟨h1, h2, h3⟩
        rw [hni h1] at h2 h3
        simp at h2 h3

end Sys2Proof
end

