-- ==== Sys2Proof/Laws/PerInstr.lean ====
section
/-! SUPPORT. The encoding of each command: its word is well formed, its fields are the command's, and it decodes to it. -/

namespace Sys2Proof.Laws.Encoding

open Sys2Proof

/-- What holds of the encoding of every command (30_encoding.md R90, R93, R94). -/
def Statement (i : Instr) : Prop :=
  i.wf = true ∧ CmdFields.parse (encode i) = i.fields ∧ decode (encode i) = .ok i

theorem of_wf {i : Instr} (h : i.wf = true) : Statement i :=
  ⟨h, parse_pack i.fields, by rw [decode, decodeFields_ok, encode]; exact parse_pack i.fields⟩

theorem nop : Statement .nop := of_wf rfl
theorem reset : Statement .reset := of_wf rfl
theorem openIo (strided unwrap : Bool) : Statement (.openIo strided unwrap) :=
  of_wf (by cases strided <;> cases unwrap <;> rfl)
theorem seek : Statement .seek := of_wf rfl
theorem wrbit : Statement .wrbit := of_wf rfl
theorem rdbit : Statement .rdbit := of_wf rfl
theorem encb : Statement .encb := of_wf rfl
theorem decb : Statement .decb := of_wf rfl
theorem encu : Statement .encu := of_wf rfl
theorem decu : Statement .decu := of_wf rfl
theorem encbuf : Statement .encbuf := of_wf rfl
theorem decbuf : Statement .decbuf := of_wf rfl
theorem getout (trimz wrap : Bool) : Statement (.getout trimz wrap) :=
  of_wf (by cases trimz <;> cases wrap <;> rfl)
theorem hash : Statement .hash := of_wf rfl
theorem lock : Statement .lock := of_wf rfl
theorem unlock : Statement .unlock := of_wf rfl

end Sys2Proof.Laws.Encoding
end

