-- ==== Sys2Proof/Laws/Step.lean ====
section
/-! SUPPORT. The host's side of a step: where addresses lead, and what one pending input does to a state of the invariant. -/

namespace Sys2Proof.Machine

/-- OMK_BASE is the address of CMD (20_memory.md R62). -/
theorem locate_base (p : Params) : locate p p.base = some (.reg .cmd) := by
  simp [locate, locationAt, regAt]

/-- A byte of a window is inside its memory. -/
theorem windowAt_some {p : Params} {sp sp' : Space} {off a : Nat} (h : windowAt p sp' off = some (.memByte sp a)) :
    sp = sp' ∧ off = windowBase sp + a ∧ a < p.size sp := by
  unfold windowAt at h
  split_ifs at h with hc
  injection h with h
  injection h with h1 h2
  subst h1
  exact ⟨rfl, by omega, by omega⟩

/-- A byte of a memory that has an address is inside its memory. -/
theorem locate_inside {p : Params} {addr : Word} {sp : Space} {a : Nat} (h : locate p addr = some (.memByte sp a)) :
    a < p.size sp := by
  unfold locate at h
  split_ifs at h
  unfold locationAt at h
  split_ifs at h
  · cases hr : regAt (addr.toNat - p.base.toNat) <;> rw [hr] at h <;> simp at h
  · simp at h
  · simp only [Option.or_eq_some_iff] at h
    rcases h with (h | ⟨-, h⟩) | ⟨-, h⟩ <;> exact (windowAt_some h).2.2

/-- From a state of the invariant every command ends in a next state of the invariant. -/
theorem exec_ends (i : Instr) {s : State} (h : s.Inv) : ∃ t, exec i s = .next t ∧ t.Inv := by
  by_cases hi : i = .reset
  · subst hi; exact ⟨_, rfl, ruleOf_ends .reset h⟩
  · rw [exec_eq hi]; exact command_ends h (fun _ => ruleOf_ends i h) fun c u hu => faultEntry_inv hu c _

/-- So does a CMD write of any word. -/
theorem performWord_ends (w : Word) {s : State} (h : s.Inv) : ∃ t, performWord w s = .next t ∧ t.Inv := by
  unfold performWord
  cases decode w with
  | ok i => exact exec_ends i h
  | error e =>
    simp only [illegalCommand]
    split_ifs
    · exact ⟨s, rfl, h⟩
    · exact ⟨_, rfl, faultEntry_inv h _ _⟩

end Sys2Proof.Machine
end

