-- ==== Sys2Proof/Tests/Slice0.lean ====
section
/-! SUPPORT. Tests: the well-formedness checks, decoding of words written out from the spec, one step of each command with the
spec's own examples, and a witness for the hypotheses of each statement. -/

namespace Sys2Proof.Tests

-- One theorem at a time: the kernel's evaluations of the tests need much memory when they run side by side.
set_option Elab.async false

open Sys2Proof Sys2Proof.Machine

/-! ### Small states -/

/-- One part of the next state, if there is one. -/
def part {α : Type} (o : Host.Outcome State Fault Refusal) (f : State → α) : Option α :=
  match o with
  | .next s => some (f s)
  | .fault _ => none
  | .refused _ => none

/-- A reader over some bytes. -/
def reading (bytes : List Byte) (mode rcur : Word) : State :=
  { State.reset with
    inMem := Memory.writeList [] 0 bytes, inLen := BitVec.ofNat 32 bytes.length
    rlen := BitVec.ofNat 32 bytes.length, mode := mode, rcur := rcur }

/-- Staged bytes. -/
def staged (bytes : List Byte) : State :=
  { State.reset with bufMem := Memory.writeList [] 0 bytes, bufLen := BitVec.ofNat 32 bytes.length }

/-- A writer after some whole bytes and `k` bits in WACC. -/
def writing (bytes : List Byte) (k : Nat) (wacc : Word) : State :=
  { State.reset with
    outMem := Memory.writeList [] 0 bytes, outLen := BitVec.ofNat 32 bytes.length
    wbits := BitVec.ofNat 32 (8 * bytes.length + k), wacc := wacc }

/-- Operands. -/
def args (a0 a1 : Word) (s : State) : State := { s with arg0 := a0, arg1 := a1 }

/-- A halted block, after an ENCB with ARG0 > ARG1 (45_control.md R241's example). -/
def stopped : State := { State.reset with status := 0x41, finfo := 0x20 }

/-- The smallest block. -/
def tiny : Params := { inMax := 4, bufMax := 32, outMax := 1, outCap0 := 1, base := 0 }

/-- The smallest block with no room for one more bit. -/
def full : State :=
  { State.resetWith tiny with outMem := [(0, 0xFF)], outLen := 1, wbits := 15, wacc := 0x55 }

/-- "abc". -/
def abc : List Byte := [0x61, 0x62, 0x63]

/-- The LOCK example's result (42_framing.md R193): "abc" wrapped. -/
def lockedAbc : List Byte :=
  [0xdb, 0x1a, 0x75,
   0xba, 0x78, 0x16, 0xbf, 0x8f, 0x01, 0xcf, 0xea, 0x41, 0x41, 0x40, 0xde, 0x5d, 0xae, 0x22, 0x23,
   0xb0, 0x03, 0x61, 0xa3, 0x96, 0x17, 0x7a, 0x9c, 0xb4, 0x10, 0xff, 0x61, 0xf2, 0x00, 0x15, 0xad]

/-- The digest of the empty message, which is also the wrapped empty message (42_framing.md R191). -/
def lockedEmpty : List Byte :=
  [0xe3, 0xb0, 0xc4, 0x42, 0x98, 0xfc, 0x1c, 0x14, 0x9a, 0xfb, 0xf4, 0xc8, 0x99, 0x6f, 0xb9, 0x24,
   0x27, 0xae, 0x41, 0xe4, 0x64, 0x9b, 0x93, 0x4c, 0xa4, 0x95, 0x99, 0x1b, 0x78, 0x52, 0xb8, 0x55]

/-! ### Well-formedness: one ill-formed term for each check (30_encoding.md R93, R96) -/

theorem test_wf_good : ({ opc := 0x30, f0 := true, f1 := true, fres := 0, res := 0 } : CmdFields).wf = true := by decide
theorem test_wf_res : ({ opc := 0x00, f0 := false, f1 := false, fres := 0, res := 1 } : CmdFields).wf = false := by decide
theorem test_wf_fres : ({ opc := 0x02, f0 := false, f1 := false, fres := 1, res := 0 } : CmdFields).wf = false := by decide
theorem test_wf_opc : ({ opc := 0x43, f0 := false, f1 := false, fres := 0, res := 0 } : CmdFields).wf = false := by decide
theorem test_wf_flag0 : ({ opc := 0x20, f0 := true, f1 := false, fres := 0, res := 0 } : CmdFields).wf = false := by decide
theorem test_wf_flag1 : ({ opc := 0x40, f0 := false, f1 := true, fres := 0, res := 0 } : CmdFields).wf = false := by decide

/-! ### Decoding: words written out from 30_encoding.md R94 and the rules of the commands -/

theorem test_decode_nop : decode 0b00000000000000000000000000000000 = .ok .nop := by decide
theorem test_decode_reset : decode 0b00000000000000000000000000000001 = .ok .reset := by decide
theorem test_decode_open : decode 0b00000000000000000000000000000010 = .ok (.openIo false false) := by decide
theorem test_decode_open_strided : decode 0b00000000000000000000000100000010 = .ok (.openIo true false) := by decide
theorem test_decode_open_unlock : decode 0b00000000000000000000001000000010 = .ok (.openIo false true) := by decide
theorem test_decode_seek : decode 0b00000000000000000000000000000011 = .ok .seek := by decide
theorem test_decode_wrbit : decode 0b00000000000000000000000000010000 = .ok .wrbit := by decide
theorem test_decode_rdbit : decode 0b00000000000000000000000000010001 = .ok .rdbit := by decide
theorem test_decode_encb : decode 0b00000000000000000000000000100000 = .ok .encb := by decide
theorem test_decode_decb : decode 0b00000000000000000000000000100001 = .ok .decb := by decide
theorem test_decode_encu : decode 0b00000000000000000000000000100010 = .ok .encu := by decide
theorem test_decode_decu : decode 0b00000000000000000000000000100011 = .ok .decu := by decide
theorem test_decode_encbuf : decode 0b00000000000000000000000000100100 = .ok .encbuf := by decide
theorem test_decode_decbuf : decode 0b00000000000000000000000000100101 = .ok .decbuf := by decide
theorem test_decode_getout : decode 0b00000000000000000000000000110000 = .ok (.getout false false) := by decide
theorem test_decode_getout_trimz : decode 0b00000000000000000000000100110000 = .ok (.getout true false) := by decide
theorem test_decode_getout_lock : decode 0b00000000000000000000001000110000 = .ok (.getout false true) := by decide
theorem test_decode_hash : decode 0b00000000000000000000000001000000 = .ok .hash := by decide
theorem test_decode_lock : decode 0b00000000000000000000000001000001 = .ok .lock := by decide
theorem test_decode_unlock : decode 0b00000000000000000000000001000010 = .ok .unlock := by decide
theorem test_decode_bad_opcode : decode 0x00000004 = .error .unassignedOpcode := by decide
theorem test_decode_bad_high : decode 0x80000000 = .error .reservedHigh := by decide
theorem test_decode_bad_fres : decode 0x00008002 = .error .reservedFlags := by decide
theorem test_decode_bad_flag0 : decode 0x00000120 = .error .flag0NotAllowed := by decide
theorem test_decode_bad_flag1 : decode 0x00000240 = .error .flag1NotAllowed := by decide
theorem test_decode_table_word : decodeTableWord 32 0x330 = some (.getout true true) := by decide

/-! ### One step: a word placed after reset is the next step's (log 5) -/

theorem test_fetch_seek :
    part (step (({ State.reset with arg0 := 9 } : State).withFetchWord 32 0x03)) State.rcur = some 9 := by decide +kernel
theorem test_fetch_illegal :
    part (step (State.reset.withFetchWord 32 0x43)) (fun t => (t.status, t.finfo)) = some (0x11, 0x43) := by decide +kernel

/-! ### Commands: the spec's own examples -/

/-- 30_encoding.md R97: NOP does nothing while halted. -/
theorem test_nop_halted : part (exec .nop stopped) State.status = some 0x41 := by decide +kernel
/-- 45_control.md R241, Example. -/
theorem test_reset_clears_fault :
    part (exec .reset stopped) (fun t => (t.status, t.finfo, t.outCap)) = some (0, 0, 4) := by decide +kernel
/-- 40_bitio.md R124, Example. -/
theorem test_open_strided :
    part (exec (.openIo true false) { reading [0xA5] 0 0 with rlen := 0 }) (fun t => (t.mode, t.rlen, t.rcur, t.wbits)) =
      some (1, 1, 1, 0) := by decide +kernel
/-- 40_bitio.md R124: InvalidFormat below 32 bytes. -/
theorem test_open_unlock_short :
    part (exec (.openIo false true) { State.reset with inLen := 31 }) (fun t => (t.status, t.finfo)) =
      some (0x21, 0x202) := by decide +kernel
/-- 40_bitio.md R125, Example. -/
theorem test_seek : part (exec .seek (args 4 0 (reading [0xA5] 1 1))) State.rcur = some 4 := by decide +kernel
/-- 40_bitio.md R125, Example: an even strided cursor reads the constant 1. -/
theorem test_rdbit_even : part (exec .rdbit (reading [0x00] 1 4)) (fun t => (t.result, t.rcur)) = some (1, 6) := by
  decide +kernel
/-- 40_bitio.md R127, Example: read 10 of 18. -/
theorem test_rdbit_dense : part (exec .rdbit (reading [0xA5, 0x3C] 0 10)) (fun t => (t.result, t.rcur)) = some (1, 11) := by
  decide +kernel
/-- 40_bitio.md R121: the eighth bit of 0xA5 flushes it. -/
theorem test_wrbit_flush :
    part (exec .wrbit (args 1 0 (writing [] 7 0x52))) (fun t => (t.wbits, t.wacc, t.outLen, t.byteAt .out 0)) =
      some (8, 0, 1, 0xA5) := by decide +kernel
/-- 40_bitio.md R126: ARG0 = 2 is no bit. -/
theorem test_wrbit_contract : part (exec .wrbit (args 2 0 State.reset)) (fun t => (t.status, t.finfo)) = some (0x41, 0x10) := by
  decide +kernel
/-- 43_codec.md R218, Example: 4 of 5 is 1, 0. -/
theorem test_encb : part (exec .encb (args 4 5 State.reset)) (fun t => (t.wbits, t.wacc)) = some (2, 2) := by decide +kernel
/-- 43_codec.md R218, Example: 3 of 5 is 0, 1, 1. -/
theorem test_encb_untied : part (exec .encb (args 3 5 State.reset)) (fun t => (t.wbits, t.wacc)) = some (3, 3) := by
  decide +kernel
/-- 43_codec.md R219, Example. -/
theorem test_decb : part (exec .decb (args 0 5 (reading [0x80] 0 0))) (fun t => (t.result, t.rcur)) = some (4, 2) := by
  decide +kernel
/-- 43_codec.md R220, Example: 5 is 1, 0, 1, 1, 0. -/
theorem test_encu : part (exec .encu (args 5 0 State.reset)) (fun t => (t.wbits, t.wacc)) = some (5, 0b10110) := by
  decide +kernel
/-- 43_codec.md R221, Example. -/
theorem test_decu : part (exec .decu (reading [0xB0] 0 0)) (fun t => (t.result, t.rcur)) = some (5, 5) := by decide +kernel
/-- 43_codec.md R221, Corner cases: 0xFF gives 30 with RCUR = 8. -/
theorem test_decu_past_end : part (exec .decu (reading [0xFF] 0 0)) (fun t => (t.result, t.rcur)) = some (30, 8) := by
  decide +kernel
/-- 43_codec.md R222, Example: "hi" in 19 bits. -/
theorem test_encbuf :
    part (exec .encbuf (staged [0x68, 0x69])) (fun t => (t.wbits, t.byteAt .out 0, t.byteAt .out 1, t.wacc)) =
      some (19, 0xCD, 0x0D, 1) := by decide +kernel
/-- 43_codec.md R223, Example. -/
theorem test_decbuf :
    part (exec .decbuf (reading [0xCD, 0x0D, 0x20] 0 0)) (fun t => (t.bufLen, t.result, t.rcur, t.bufMem)) =
      some (2, 2, 19, [(0, 0x68), (1, 0x69)]) := by decide +kernel
/-- 40_bitio.md R128, Example. -/
theorem test_getout_trimz :
    part (exec (.getout true false) (writing [0xB3, 0xCD, 0x0D] 3 0x1)) (fun t => (t.bufLen, t.bytesAt .buf 0 4)) =
      some (4, [0xB3, 0xCD, 0x0D, 0x20]) := by decide +kernel
/-- 40_bitio.md R128, Corner cases: nothing written, wrapped, is SHA256 of nothing. -/
theorem test_getout_lock_empty :
    part (exec (.getout false true) State.reset) (fun t => (t.bufLen, t.bytesAt .buf 0 32)) = some (32, lockedEmpty) := by
  decide +kernel
/-- 41_hash.md R164, Example. -/
theorem test_hash : part (exec .hash (staged abc)) (fun t => t.digest.toList) = some (lockedAbc.drop 3) := by decide +kernel
/-- 42_framing.md R193, Example. -/
theorem test_lock : part (exec .lock (staged abc)) (fun t => (t.bufLen, t.bytesAt .buf 0 35)) = some (35, lockedAbc) := by
  decide +kernel
/-- 42_framing.md R194, Example. -/
theorem test_unlock : part (exec .unlock (staged lockedAbc)) (fun t => (t.bufLen, t.bytesAt .buf 0 3)) = some (3, abc) := by
  decide +kernel
/-- 42_framing.md R194, Example: 31 bytes. -/
theorem test_unlock_short :
    part (exec .unlock { State.reset with bufLen := 31 }) (fun t => (t.status, t.finfo, t.bufLen)) = some (0x21, 0x42, 31) := by
  decide +kernel

/-! ### The host assembly -/

/-- 30_encoding.md R101, Example. -/
theorem test_assemble_cmd : assembleLine 0 [] "cmd GETOUT.trimz.lock ; flags" = some [.access (.write32 0 0x330)] := by
  decide +kernel
/-- 30_encoding.md R102: `load BUF, b0 b1`. -/
theorem test_assemble_load :
    assembleLine 0 [] "load BUF, 0x68 105" =
      some [.access (.write8 0x20000000 0x68), .access (.write8 0x20000001 0x69), .access (.write32 0x1C 2)] := by
  decide +kernel

/-! ### Witnesses: states and operands that meet the hypotheses of the statements, clause by clause -/

theorem witness_inv_reset : State.reset.Inv :=
  ⟨by decide, by decide, ⟨fits_nil _, fits_nil _, fits_nil _⟩, by decide, ⟨rfl, by decide, by decide, by decide, 0, rfl⟩,
    by unfold State.OutputWritten; decide⟩

theorem witness_inv_full : full.Inv :=
  ⟨by decide, by decide, ⟨fits_nil _, fits_nil _, by decide⟩, by decide, ⟨rfl, by decide, by decide, by decide, 0, rfl⟩,
    by unfold State.OutputWritten; decide⟩

/-- Any command word, as the next input. -/
def fed (w : Word) (s : State) : State := s.withFetchWord 32 w.toNat

theorem witness_IllegalWordsRaise :
    ¬ State.reset.halted ∧ (0x00010000 : Word).extractLsb' 16 16 ≠ 0 ∧ (0x00000400 : Word).extractLsb' 10 6 ≠ 0 ∧
    (0x04 : Word).extractLsb' 0 8 ∉ assignedOpcodes ∧ (0xFF : Word).extractLsb' 0 8 ∉ assignedOpcodes ∧
    (0x120 : Word).getLsbD 8 = true ∧ (0x240 : Word).getLsbD 9 = true := by decide

theorem witness_StepRunsDecodedCommand :
    (fed 0x40 State.reset).pending = [cmdWrite State.reset.params 0x40] ∧ decode 0x40 = .ok .hash ∧
    (fed 0x40 State.reset).pending = [.access (.write32 0 0x40)] := by decide

theorem witness_CmdWriteDispatch :
    stopped.halted ∧ (0x40 : Word) ≠ 1 ∧ ¬ State.reset.halted ∧
    (∃ r ∈ opcodeMap, (0x330 : Word) &&& r.mask = r.pattern) ∧ ∀ r ∈ opcodeMap, (0x43 : Word) &&& r.mask ≠ r.pattern := by
  decide +kernel

theorem witness_FaultEntryRecords :
    ¬ State.reset.halted ∧ wrbitRule (args 2 0 State.reset) = .raised .contractViolation (args 2 0 State.reset) := by
  decide +kernel

theorem witness_PowerOnResetStep :
    ({ State.reset with pending := [.powerOnReset] } : State).pending = .powerOnReset :: [] := rfl

theorem witness_SeekCompletes : ¬ (args 0xFFFFFFFF 0 State.reset).halted := by decide

/-- The exhausted cursor, the last dense one, and the last even and odd strided ones. -/
theorem witness_RdbitCompletes :
    ¬ (reading [0xA5] 0 8).halted ∧ (reading [0xA5] 0 8).rlen.toNat ≤ (reading [0xA5] 0 8).params.inMax ∧
    readLimit (reading [0xA5] 0 8) ≤ (reading [0xA5] 0 8).rcur.toNat ∧
    (reading [0xA5] 0 7).rcur.toNat < readLimit (reading [0xA5] 0 7) ∧ (reading [0xA5] 0 7).mode.getLsbD 0 = false ∧
    (reading [0xA5] 1 14).rcur.toNat < readLimit (reading [0xA5] 1 14) ∧ (reading [0xA5] 1 14).mode.getLsbD 0 = true ∧
    (reading [0xA5] 1 14).rcur.toNat % 2 = 0 ∧
    (reading [0xA5] 1 15).rcur.toNat < readLimit (reading [0xA5] 1 15) ∧ (reading [0xA5] 1 15).rcur.toNat % 2 = 1 := by
  decide

theorem witness_WrbitCommand :
    ¬ full.halted ∧ (args 2 0 State.reset).arg0.toNat > 1 ∧
    (full.arg0.toNat ≤ 1 ∧ full.wbits.toNat % 8 = 7 ∧ full.outLen.toNat = full.params.outMax) ∧
    ((args 1 0 State.reset).arg0.toNat ≤ 1 ∧ (args 1 0 State.reset).wbits.toNat % 8 ≠ 7) ∧
    (writing [] 7 0x52).wbits.toNat % 8 = 7 ∧ (writing [] 7 0x52).outLen.toNat < (writing [] 7 0x52).params.outMax := by
  decide

/-- ARG0 just above ARG1; equal to it, with room; and no room for one bit. -/
theorem witness_EncbCommand :
    (args 1 1 State.reset).Inv ∧ (args 1 1 full).Inv ∧ ¬ (args 1 1 full).halted ∧
    (args 6 5 State.reset).arg0.toNat > (args 6 5 State.reset).arg1.toNat ∧
    (boundedBits 1 1).length ≤ 8 * State.reset.params.outMax + 7 - State.reset.wbits.toNat ∧
    8 * full.params.outMax + 7 - full.wbits.toNat < (boundedBits 1 1).length :=
  have h := witness_inv_reset
  have h' := witness_inv_full
  ⟨⟨h.legal, h.status, h.memories, h.reader, h.writer, h.written⟩,
    ⟨h'.legal, h'.status, h'.memories, h'.reader, h'.writer, h'.written⟩, by decide, by decide, by decide, by decide⟩

theorem witness_EncuCommand :
    State.reset.Inv ∧ full.Inv ∧ ¬ full.halted ∧ (args 0x80000000 0 State.reset).arg0.toNat > 0x7FFFFFFF ∧
    (args 0x7FFFFFFF 0 State.reset).arg0.toNat ≤ 0x7FFFFFFF ∧
    (unboundedBits 0x7FFFFFFF).length ≤ 8 * State.reset.params.outMax + 7 - State.reset.wbits.toNat ∧
    8 * full.params.outMax + 7 - full.wbits.toNat < (unboundedBits 0).length :=
  ⟨witness_inv_reset, witness_inv_full, by decide, by decide, by decide, by decide +kernel, by decide +kernel⟩

theorem witness_EncbufCommand :
    State.reset.Inv ∧ full.Inv ∧ ¬ full.halted ∧
    ({ State.reset with bufLen := 1025 } : State).bufLen.toNat > State.reset.params.bufMax ∧
    ({ State.reset with bufLen := 1024 } : State).bufLen.toNat ≤ State.reset.params.bufMax ∧
    full.bufLen.toNat ≤ full.params.bufMax ∧
    (unboundedBits 0).length ≤ 8 * State.reset.params.outMax + 7 - State.reset.wbits.toNat ∧
    8 * full.params.outMax + 7 - full.wbits.toNat < (unboundedBits 0).length :=
  ⟨witness_inv_reset, witness_inv_full, by decide, by decide, by decide, by decide, by decide +kernel, by decide +kernel⟩

theorem witness_DecbCompletes :
    ¬ (reading [0x80] 0 0).halted ∧ (reading [0x80] 0 0).rlen.toNat ≤ (reading [0x80] 0 0).params.inMax ∧
    (reading [0x80] 0 0).arg1 = 0 ∧ readLimit (reading [0x80] 0 8) ≤ (reading [0x80] 0 8).rcur.toNat := by decide

theorem witness_BoundedRoundTrip :
    ¬ (args 0 5 (reading [0x80] 0 0)).halted ∧ (4 : Word).toNat ≤ (args 0 5 (reading [0x80] 0 0)).arg1.toNat ∧
    StandsOver (args 0 5 (reading [0x80] 0 0)) (boundedBits 4 (args 0 5 (reading [0x80] 0 0)).arg1) 2 := by
  unfold StandsOver; decide +kernel

/-- Eight bytes of ones: 31 payload bits and then a continuation bit 1; with bit 62 cleared, a value above 2^31 - 1. -/
def ones : List Byte := List.replicate 8 0xFF

theorem witness_DecuCommand :
    ¬ (reading [0xB0] 0 0).halted ∧
    StandsOver (reading [0xB0] 0 0) (([false, true].flatMap fun b => [true, b]) ++ [false]) 5 ∧
    StandsOver (reading (ones.set 7 0xFC) 0 0)
      (((List.replicate 31 true).flatMap fun b => [true, b]) ++ [false]) 63 ∧
    (2 ^ 31 - 1 < (List.replicate 31 true).foldr (fun b v => 2 * v + b.toNat) 0 + 2 ^ 31 - 1) ∧
    StandsOver (reading ones 0 0) (((List.replicate 31 true).flatMap fun b => [true, b]) ++ [true]) 63 := by
  unfold StandsOver; decide +kernel

theorem witness_UnboundedRoundTrip :
    ¬ (reading [0xB0] 0 0).halted ∧ 5 < 2 ^ 31 ∧ StandsOver (reading [0xB0] 0 0) (unboundedBits 5) 5 := by
  unfold StandsOver; decide +kernel

/-- A length in range, the least length out of range (33 in the smallest block), and a length code above 2^31 - 1. -/
theorem witness_DecbufCommand :
    ¬ (reading [0xCD, 0x0D, 0x20] 0 0).halted ∧ (reading [0xCD, 0x0D, 0x20] 0 0).params.Legal ∧ tiny.Legal ∧
    StandsOver (reading [0xCD, 0x0D, 0x20] 0 0) (unboundedBits 2 ++ [0x68, 0x69].flatMap byteBits) 19 ∧
    tiny.bufMax < 33 ∧
    StandsOver { reading [0xBA, 0x80] 0 0 with params := tiny } (unboundedBits 33) 11 ∧
    StandsOver (reading ones 0 0) (((List.replicate 31 true).flatMap fun b => [true, b]) ++ [true]) 63 ∧
    StandsOver (reading (ones.set 7 0xFC) 0 0)
      (((List.replicate 31 true).flatMap fun b => [true, b]) ++ [false]) 63 := by
  unfold StandsOver; decide +kernel

/-- Wrapping nothing fills the smallest BUF_MEM exactly; wrapping two bytes does not fit. -/
theorem witness_GetoutCommand :
    ¬ full.halted ∧ full.outLen.toNat ≤ full.params.outMax ∧ (lockBytes []).length ≤ tiny.bufMax ∧
    full.params.bufMax < (lockBytes [0xFF, 0xAA]).length := by decide +kernel

theorem witness_OpenCommand :
    ¬ State.reset.halted ∧ ({ State.reset with inLen := 1025 } : State).inLen.toNat > State.reset.params.inMax ∧
    ({ State.reset with inLen := 1024 } : State).inLen.toNat ≤ State.reset.params.inMax ∧
    ({ State.reset with inLen := 31 } : State).inLen.toNat < 32 ∧
    (unlockBytes ((reading (List.replicate 32 0) 0 0).bytesAt .inp 0 32)).1 = .badSum ∧
    (unlockBytes ((reading lockedEmpty 0 0).bytesAt .inp 0 32)).1 = .ok := by decide +kernel

theorem witness_HashCommand :
    ¬ State.reset.halted ∧ ({ State.reset with bufLen := 1024 } : State).bufLen.toNat ≤ State.reset.params.bufMax ∧
    State.reset.params.bufMax < ({ State.reset with bufLen := 1025 } : State).bufLen.toNat := by decide

theorem witness_LockCommand :
    ¬ State.reset.halted ∧ ({ State.reset with bufLen := 992 } : State).bufLen.toNat + 32 ≤ State.reset.params.bufMax ∧
    State.reset.params.bufMax < ({ State.reset with bufLen := 993 } : State).bufLen.toNat + 32 := by decide

theorem witness_UnlockCommand :
    ¬ State.reset.halted ∧ State.reset.params.bufMax < ({ State.reset with bufLen := 1025 } : State).bufLen.toNat ∧
    ({ State.reset with bufLen := 31 } : State).bufLen.toNat < 32 ∧
    (unlockBytes ((staged (List.replicate 32 0)).bytesAt .buf 0 32)).1 = .badSum ∧
    (unlockBytes ((staged lockedEmpty).bytesAt .buf 0 32)).1 = .ok := by decide +kernel

theorem witness_TrimZerosDropsTrailingZeros : (trimZeros [0xB3, 0x00, 0x01, 0x00, 0x00]).getLast? = some 0x01 := by decide

theorem witness_ScheduleRecurrence : (List.replicate 64 (0 : Byte)).length = 64 := by decide

/-- The length just below 32 bytes, the digest that is the trailing one, and one that is not. -/
theorem witness_UnlockAcceptsOnlyLocked :
    unlockBytes lockedAbc = (.ok, abc) ∧ (List.replicate 31 (0 : Byte)).length < 32 ∧ 32 ≤ lockedEmpty.length ∧
    (sha256 (unlockBytes lockedEmpty).2).toList = lockedEmpty.drop (lockedEmpty.length - 32) ∧
    (sha256 (unlockBytes (0 :: lockedEmpty)).2).toList ≠ (0 :: lockedEmpty).drop ((0 :: lockedEmpty).length - 32) := by
  decide +kernel

theorem witness_BoundedBits : (5 : Word) ≠ 0 ∧ (4 : Word).toNat ≤ (5 : Word).toNat ∧ (4 : Word) ≠ 5 := by decide

theorem witness_UnboundedBitCount : 2 ^ 31 ≤ 0x7FFFFFFF + 1 ∧ 0x7FFFFFFF + 1 < 2 ^ (31 + 1) := by decide

/-- The four reading commands end in a state that is not halted. -/
theorem witness_DecodedResultsInRange :
    ¬ (args 0 5 (reading [0xCD, 0x0D, 0x20] 0 0)).halted ∧ (reading [0xCD, 0x0D, 0x20] 0 0).params.Legal ∧
    part (exec .rdbit (args 0 5 (reading [0xCD, 0x0D, 0x20] 0 0))) State.faultBit = some false ∧
    part (exec .decb (args 0 5 (reading [0xCD, 0x0D, 0x20] 0 0))) State.faultBit = some false ∧
    part (exec .decu (args 0 5 (reading [0xCD, 0x0D, 0x20] 0 0))) State.faultBit = some false ∧
    part (exec .decbuf (args 0 5 (reading [0xCD, 0x0D, 0x20] 0 0))) State.faultBit = some false := by decide +kernel

/-- 42_framing.md R192: a wrong digest is BADSUM, with the candidate: 0 XOR the first keystream byte. -/
theorem test_unlock_badsum : unlockBytes (0 :: lockedEmpty) = (.badSum, [0xe3]) := by decide +kernel

/-- Eleven bits, the last three of them 0. -/
def trailing : State := writing [0xFF] 3 0

theorem witness_inv_trailing : trailing.Inv :=
  ⟨by decide, by decide, ⟨fits_nil _, fits_nil _, by decide⟩, by decide, ⟨rfl, by decide, by decide, by decide, 0, rfl⟩,
    by unfold State.OutputWritten; decide⟩

/-- A writer whose trimmed bytes are fewer, so that its last three bits are read past the end of the input. -/
theorem witness_WrittenStreamReadsBack_trimmed :
    trailing.Inv ∧ materialize trailing = .done [0xFF, 0x00] trailing ∧ trimZeros [0xFF, 0x00] = [0xFF] ∧
    (reading [0xFF] 0 0).params.Legal ∧ (reading [0xFF] 0 0).rlen.toNat ≤ (reading [0xFF] 0 0).params.inMax ∧
    (reading [0xFF] 0 0).rlen.toNat = [0xFF].length ∧ (reading [0xFF] 0 0).bytesAt .inp 0 1 = [0xFF] ∧
    (reading [0xFF] 0 0).mode = 0 ∧ (reading [0xFF] 0 0).rcur = 0 :=
  ⟨witness_inv_trailing, by decide +kernel, by decide, by decide, by decide, by decide, by decide +kernel, rfl, rfl⟩

/-- The bytes of the smallest writer, dense and strided, whole and trimmed. -/
theorem witness_WrittenStreamReadsBack :
    full.Inv ∧ materialize full = .done [0xFF, 0xAA] full ∧
    (reading [0xFF, 0xAA] 0 0).params.Legal ∧ (reading [0xFF, 0xAA] 0 0).rlen.toNat = [0xFF, 0xAA].length ∧
    (reading [0xFF, 0xAA] 1 1).bytesAt .inp 0 2 = [0xFF, 0xAA] ∧ trimZeros [0xFF, 0xAA] = [0xFF, 0xAA] ∧
    (reading [0xFF, 0xAA] 1 1).mode = 1 ∧ (reading [0xFF, 0xAA] 1 1).rcur = 1 :=
  ⟨witness_inv_full, by decide +kernel, by decide, by decide, by decide +kernel, by decide, rfl, rfl⟩

/-- The last cursor in the bounds, dense and strided, and an OPEN that ends without a fault. -/
theorem witness_ReaderFrame :
    (reading [0xA5] 0 8).params.Legal ∧ (reading [0xA5] 0 8).rlen.toNat ≤ (reading [0xA5] 0 8).params.inMax ∧
    (reading [0xA5] 0 8).CursorInBounds ∧ (reading [0xA5] 1 17).CursorInBounds ∧ ¬ (reading [0xA5] 1 16).CursorInBounds ∧
    part (exec .rdbit (reading [0xA5] 1 15)) State.rcur = some 17 ∧
    part (exec (.openIo true false) (reading [0xA5] 0 0)) State.faultBit = some false := by decide +kernel

theorem witness_LockThenUnlockRestores :
    ¬ (staged abc).halted ∧ (staged abc).params.Legal ∧ (staged abc).bufLen.toNat + 32 ≤ (staged abc).params.bufMax := by
  decide

/-- Every command but RESET answers a next state, here from the reset state; so do the frames' other cases. -/
theorem witness_frames :
    State.reset.params.Legal ∧
    ∀ i ∈ [Instr.nop, .reset, .openIo false false, .seek, .wrbit, .rdbit, .encb, .decb, .encu, .decu, .encbuf, .decbuf,
        .getout false false, .hash, .lock, .openIo true true, .getout true true, .unlock],
      (part (exec i State.reset) State.params).isSome = true := by decide +kernel

theorem witness_FaultsRecordWordAndCode :
    part (exec .unlock State.reset) (fun t => (t.status, t.finfo)) = some (0x21, 0x42) ∧ Instr.unlock ≠ .reset := by
  decide +kernel

theorem witness_StepKeepsInvariant :
    (fed 0x10 State.reset).Inv ∧ part (step (fed 0x10 State.reset)) State.wbits = some 1 :=
  have h := witness_inv_reset
  ⟨⟨h.legal, h.status, h.memories, h.reader, h.writer, h.written⟩, by decide +kernel⟩

theorem witness_ResetHasInvariant : Params.reference.Legal ∧ tiny.Legal := by decide

theorem witness_AddressMap :
    tiny.Legal ∧ tiny.base.toNat ≤ (0x3C : Word).toNat ∧
    locate { tiny with base := 0x40 } 0x7C = some (.reg .id) ∧ locate { tiny with base := 0x40 } 0x3F = none ∧
    locationAt tiny 0x3C = some (.reg .id) ∧ locationAt tiny 0x3D = some .insideReg ∧
    locationAt tiny 0x5F = some (.digestByte 31) ∧ locationAt tiny 0x60 = none ∧
    locationAt tiny 0x10000003 = some (.memByte .inp 3) ∧ locationAt tiny 0x10000004 = none ∧
    locationAt tiny 0x2000001F = some (.memByte .buf 31) ∧ locationAt tiny 0x30000000 = some (.memByte .out 0) ∧
    locationAt tiny 0x30000001 = none := by decide +kernel

theorem witness_HostRegisterWrites :
    locate tiny 0x0C = some (.reg .arg0) ∧ locate tiny 0x10 = some (.reg .arg1) ∧ locate tiny 0x18 = some (.reg .inLen) ∧
    locate tiny 0x1C = some (.reg .bufLen) ∧ locate tiny 0x04 = some (.reg .status) ∧
    locate tiny 0x30000000 = some (.memByte .out 0) ∧ locate tiny 0x40 = some (.digestByte 0) := by decide +kernel

/-- A state whose next input is a host access. -/
def asked (op : HostOp) : State := { State.reset with pending := [.access op, .access op] }

theorem witness_HostByteWriteStores :
    (asked (.write8 0x100003FF 7)).pending = .access (.write8 0x100003FF 7) :: [.access (.write8 0x100003FF 7)] ∧
    locate State.reset.params 0x100003FF = some (.memByte .inp 1023) ∧
    locate State.reset.params 0x20000000 = some (.memByte .buf 0) := by decide +kernel

theorem witness_HostReadsReturnTwiceTheSame :
    (asked (.read32 0x3C)).pending = .access (.read32 0x3C) :: .access (.read32 0x3C) :: [] ∧
    locate State.reset.params 0x3C = some (.reg .id) ∧
    (asked (.read8 0x30000000)).pending = .access (.read8 0x30000000) :: .access (.read8 0x30000000) :: [] ∧
    locate State.reset.params 0x30000000 = some (.memByte .out 0) ∧
    locate State.reset.params 0x5F = some (.digestByte 31) := by decide +kernel

theorem witness_HostAccessRefusals :
    (asked (.read32 0x60)).pending = .access (.read32 0x60) :: [.access (.read32 0x60)] ∧
    (asked (.write8 0x60 0)).pending = .access (.write8 0x60 0) :: [.access (.write8 0x60 0)] ∧
    locate State.reset.params 0x60 = none ∧ locate State.reset.params 0x3E = some .insideReg ∧
    locate State.reset.params 0x10000400 = none ∧ locate State.reset.params 0x10000000 = some (.memByte .inp 0) ∧
    locate State.reset.params 0x40 = some (.digestByte 0) ∧ locate State.reset.params 0x00 = some (.reg .cmd) := by
  decide +kernel

theorem witness_PseudoEncbPerforms :
    State.reset.params.base.toNat + 0x40 ≤ 2 ^ 32 ∧
    ({ State.reset with pending := Pseudo.expand 0 (.encb 3 5) } : State).pending =
      Pseudo.expand State.reset.params.base (.encb 3 5) ++ [] := by decide +kernel

theorem witness_OutCapNeverMatters :
    part (exec .wrbit (args 1 0 (writing [] 7 0x52))) State.outCap = some 4 := by decide +kernel

/-- Every byte that the lengths name has been written. -/
theorem witness_PowerOnContentsNeverMatter :
    (∀ a < 3, (Memory.lookup (staged abc).bufMem a).isSome = true) ∧ (staged abc).bufLen.toNat = 3 ∧
    (staged abc).inLen.toNat = 0 ∧ (staged abc).rlen.toNat = 0 ∧ (staged abc).outLen.toNat = 0 ∧
    part (exec .hash (staged abc)) (fun t => t.digest.toList) = some (lockedAbc.drop 3) := by decide +kernel

end Sys2Proof.Tests
end

section
/-! PROOFS. What a host write does at each kind of location (10_state.md R48, 20_memory.md R71). -/

namespace Sys2Proof.Machine

/-! ### A host write, by the location it leads to -/

/-- At a 32-bit register the host's 32-bit write is `writeReg`, whatever else the state holds. -/
theorem hostAccess_write32_reg {s : State} {addr : Word} {r : Reg} (h : locate s.params addr = some (.reg r)) (w : Word) :
    hostAccess (.write32 addr w) s = writeReg r w s := by
  simp only [hostAccess, hostWrite32, h]

theorem hostAccess_write8_outMem {s : State} {addr : Word} {a : Nat} (h : locate s.params addr = some (.memByte .out a))
    (b : Byte) : hostAccess (.write8 addr b) s = .next s := by
  simp only [hostAccess, hostWrite8, h]

theorem hostAccess_write8_digest {s : State} {addr : Word} {j : Fin 32} (h : locate s.params addr = some (.digestByte j))
    (b : Byte) : hostAccess (.write8 addr b) s = .next s := by
  simp only [hostAccess, hostWrite8, h]

/-! ### A write to a register -/

/-- The registers that ignore a host write (10_state.md R48). -/
def readOnlyRegs : List Reg :=
  [.status, .finfo, .result, .mode, .rlen, .rcur, .wbits, .wacc, .outLen, .outCap, .id]

theorem writeReg_of_mem_readOnlyRegs {r : Reg} (h : r ∈ readOnlyRegs) (w : Word) (s : State) : writeReg r w s = .next s := by
  cases r with
  | cmd | arg0 | arg1 | inLen | bufLen => simp [readOnlyRegs] at h
  | status | finfo | result | mode | rlen | rcur | wbits | wacc | outLen | outCap | id => rfl

@[simp] theorem writeReg_arg0 (w : Word) (s : State) : writeReg .arg0 w s = .next (s.setArg0 w) := rfl
@[simp] theorem writeReg_arg1 (w : Word) (s : State) : writeReg .arg1 w s = .next (s.setArg1 w) := rfl
@[simp] theorem writeReg_inLen (w : Word) (s : State) : writeReg .inLen w s = .next (s.setInLen w) := rfl
@[simp] theorem writeReg_bufLen (w : Word) (s : State) : writeReg .bufLen w s = .next (s.setBufLen w) := rfl

/-- Settles O54: a register's case is `writeReg`'s equation for it, and the two byte cases are the write's own. -/
theorem hostRegisterWrites : Obligations.HostRegisterWrites := by
  intro s addr
  refine ⟨fun w r hr => ?_, fun b _ h => hostAccess_write8_outMem h b, fun b _ h => hostAccess_write8_digest h b⟩
  rw [hostAccess_write32_reg hr]
  refine ⟨?_, ?_, ?_, ?_, fun h => writeReg_of_mem_readOnlyRegs h w s⟩
  · rintro rfl; exact writeReg_arg0 w s
  · rintro rfl; exact writeReg_arg1 w s
  · rintro rfl; exact writeReg_inLen w s
  · rintro rfl; exact writeReg_bufLen w s

end Sys2Proof.Machine
end

section
/-! PROOFS. The opcode map, the illegal words and the dispatch of a CMD write (30_encoding.md R93 to R96). -/

namespace Sys2Proof

/-! ### Decoding a word -/

theorem decode_eq_ok_iff {w : Word} {i : Instr} : decode w = .ok i ↔ w = encode i := by
  rw [decode, decodeFields_ok, encode]
  exact ⟨fun h => by rw [← h, pack_parse], fun h => by rw [h, parse_pack]⟩

/-- The decoder of the fields refuses exactly those that are not well formed: its checks are those of `CmdFields.wf`. -/
theorem decodeFields_error_iff (f : CmdFields) : (∃ e, decodeFields f = .error e) ↔ f.wf = false := by
  rcases selectCommand_spec f.opc f.f0 f.f1 with ⟨hnone, hna⟩ | ⟨i, hsome, -, ha, -⟩
  · have hopc : f.opcOk = false := hna
    simp only [decodeFields, hnone, CmdFields.wf, hopc]
    split_ifs <;> simp
  · have hopc : f.opcOk = true := ha
    simp only [decodeFields, hsome, CmdFields.wf, hopc]
    split_ifs with hres hfres h0 h1
    · simp [hres]
    · simp [hfres]
    · simp [h0]
    · simp [h1]
    · simp [hres, hfres, h0, h1]

/-- A word's fields fail a check exactly when the word is one of those that R96 lists. -/
theorem parse_wf_eq_false_iff (w : Word) :
    (CmdFields.parse w).wf = false ↔
      w.extractLsb' 16 16 ≠ 0 ∨ w.extractLsb' 10 6 ≠ 0 ∨ w.extractLsb' 0 8 ∉ assignedOpcodes ∨
        ((w.getLsbD 8 = true ∨ w.getLsbD 9 = true) ∧ w.extractLsb' 0 8 ≠ 0x02 ∧ w.extractLsb' 0 8 ≠ 0x30) := by
  simp only [CmdFields.wf, CmdFields.resOk, CmdFields.fresOk, CmdFields.opcOk, CmdFields.flag0Ok, CmdFields.flag1Ok,
    CmdFields.parse, flaggedOpcodes, Bool.and_eq_false_iff, beq_eq_false_iff_ne, List.contains_eq_mem,
    decide_eq_false_iff_not, Bool.or_eq_false_iff, Bool.not_eq_false', List.mem_cons, List.not_mem_nil, or_false, not_or]
  tauto

/-! ### The rows of the opcode map -/

/-- The row of a command without flags: the whole word is fixed. -/
def fixedRow (i : Instr) : OpcodeRow := ⟨0xFFFFFFFF, encode i, fun _ => i⟩

/-- The row of a command with flags: every bit but F0 and F1 is fixed. -/
def flaggedRow (c : Bool → Bool → Instr) : OpcodeRow :=
  ⟨0xFFFFFCFF, encode (c false false), fun w => c (w.getLsbD 8) (w.getLsbD 9)⟩

theorem opcodeMap_eq : opcodeMap =
    [fixedRow .nop, fixedRow .reset, flaggedRow .openIo, fixedRow .seek, fixedRow .wrbit, fixedRow .rdbit, fixedRow .encb,
      fixedRow .decb, fixedRow .encu, fixedRow .decu, fixedRow .encbuf, fixedRow .decbuf, flaggedRow .getout,
      fixedRow .hash, fixedRow .lock, fixedRow .unlock] := rfl

theorem flagMask_getLsbD : ∀ i < 32, (0xFFFFFCFF : Word).getLsbD i = (i != 8 && i != 9) := by decide

/-- The mask of a flagged row clears F0 and F1 and keeps every other field. -/
theorem pack_and_flagMask (f : CmdFields) :
    f.pack &&& 0xFFFFFCFF = CmdFields.pack { f with f0 := false, f1 := false } := by
  refine BitVec.eq_of_getLsbD_eq fun i hi => ?_
  rw [BitVec.getLsbD_and, flagMask_getLsbD i hi, pack_getLsbD, pack_getLsbD]
  split_ifs with h8 h9 h10 h16
  · simp [show i ≠ 8 by omega, show i ≠ 9 by omega]
  · obtain rfl : i = 8 := by omega
    simp [flagBit]
  · obtain rfl : i = 9 := by omega
    simp [flagBit]
  · simp [show i ≠ 8 by omega, show i ≠ 9 by omega]
  · simp [show i ≠ 8 by omega, show i ≠ 9 by omega]

theorem fixedRow_selects_iff (i : Instr) (w : Word) :
    w &&& (fixedRow i).mask = (fixedRow i).pattern ↔ w = encode ((fixedRow i).command w) := by
  show w &&& BitVec.allOnes 32 = encode i ↔ w = encode i
  rw [BitVec.and_allOnes]

theorem flaggedRow_selects_iff {c : Bool → Bool → Instr}
    (hc : ∀ a b, (c a b).fields = { (c false false).fields with f0 := a, f1 := b }) (w : Word) :
    w &&& (flaggedRow c).mask = (flaggedRow c).pattern ↔ w = encode ((flaggedRow c).command w) := by
  show w &&& 0xFFFFFCFF = encode (c false false) ↔ w = encode (c (w.getLsbD 8) (w.getLsbD 9))
  constructor
  · intro h
    rw [← pack_parse w, pack_and_flagMask] at h
    have hf := pack_injective h
    rw [encode, hc, ← hf]
    exact (pack_parse w).symm
  · intro h
    rw [h, encode, pack_and_flagMask, hc, encode, hc false false]

/-- Each row selects exactly the words of the commands it names. -/
theorem opcodeMap_selects_iff {r : OpcodeRow} (hr : r ∈ opcodeMap) (w : Word) :
    w &&& r.mask = r.pattern ↔ w = encode (r.command w) := by
  revert r
  simp only [opcodeMap_eq, List.forall_mem_cons, List.not_mem_nil, false_implies, implies_true, and_true,
    fixedRow_selects_iff, flaggedRow_selects_iff (c := .openIo) fun _ _ => rfl,
    flaggedRow_selects_iff (c := .getout) fun _ _ => rfl]

/-- Every command is named by a row, for its own word. -/
theorem exists_row_of_instr (i : Instr) : ∃ r ∈ opcodeMap, r.command (encode i) = i := by
  cases i with
  | openIo a b => exact ⟨flaggedRow .openIo, by simp [opcodeMap_eq], by cases a <;> cases b <;> rfl⟩
  | getout a b => exact ⟨flaggedRow .getout, by simp [opcodeMap_eq], by cases a <;> cases b <;> rfl⟩
  | nop | reset | seek | wrbit | rdbit | encb | decb | encu | decu | encbuf | decbuf | hash | lock | unlock =>
    exact ⟨fixedRow _, by simp [opcodeMap_eq], rfl⟩

/-- A word that selects a row decodes to the row's command. -/
theorem decode_of_selects {r : OpcodeRow} (hr : r ∈ opcodeMap) {w : Word} (h : w &&& r.mask = r.pattern) :
    decode w = .ok (r.command w) :=
  decode_eq_ok_iff.2 ((opcodeMap_selects_iff hr w).1 h)

/-- Settles O2: a row selects exactly the words of its commands, and every command has a row. -/
theorem decodeFollowsOpcodeMap : Obligations.DecodeFollowsOpcodeMap := by
  intro w i
  constructor
  · intro h
    obtain rfl := decode_eq_ok_iff.1 h
    obtain ⟨r, hr, hi⟩ := exists_row_of_instr i
    exact ⟨r, hr, (opcodeMap_selects_iff hr _).2 (by rw [hi]), hi⟩
  · rintro ⟨r, hr, hsel, rfl⟩
    exact decode_of_selects hr hsel

end Sys2Proof

namespace Sys2Proof.Machine

/-! ### A CMD write, by what the word decodes to -/

theorem performWord_of_decode_ok {w : Word} {i : Instr} (h : decode w = .ok i) (s : State) : performWord w s = exec i s := by
  rw [performWord, h]

theorem performWord_of_decode_error {w : Word} {e : Illegal} (h : decode w = .error e) (s : State) :
    performWord w s = illegalCommand w s := by
  rw [performWord, h]

theorem illegalCommand_halted (w : Word) {s : State} (h : s.halted) : illegalCommand w s = .next s := if_pos h

theorem illegalCommand_running (w : Word) {s : State} (h : ¬ s.halted) :
    illegalCommand w s = .next { s with status := 0x11, finfo := w } := if_neg h

theorem performWord_reset (s : State) : performWord 0x00000001 s = .next (resetAction s) :=
  performWord_of_decode_ok (i := .reset) (decode_eq_ok_iff.2 rfl) s

/-- While halted a word other than RESET's has no effect, whether it is a command or not (30_encoding.md R95, R97). -/
theorem performWord_halted {w : Word} {s : State} (h : s.halted) (hw : w ≠ 0x00000001) : performWord w s = .next s := by
  cases hd : decode w with
  | error e => rw [performWord_of_decode_error hd, illegalCommand_halted w h]
  | ok i =>
    have hi : i ≠ .reset := fun hi => hw (by rw [decode_eq_ok_iff.1 hd, hi]; rfl)
    rw [performWord_of_decode_ok hd, exec_eq hi, command_halted h]

/-- Settles O4: the decoder's checks are the words R96 lists, and a refused word goes to `illegalCommand`. -/
theorem illegalWordsRaise : Obligations.IllegalWordsRaise := by
  intro w opc illegal
  have hiff : illegal ↔ ∃ e, decode w = .error e :=
    (parse_wf_eq_false_iff w).symm.trans (decodeFields_error_iff _).symm
  refine ⟨hiff, fun s hs hill => ?_⟩
  obtain ⟨e, he⟩ := hiff.1 hill
  rw [performWord_of_decode_error he, illegalCommand_running w hs]

/-- Settles O7: the four cases of R95, by what the word decodes to; a word that selects no row is refused by O2. -/
theorem cmdWriteDispatch : Obligations.CmdWriteDispatch := by
  intro s w
  refine ⟨?_, performWord_halted, fun _ r hr hsel => performWord_of_decode_ok (decode_of_selects hr hsel) s, ?_⟩
  · rintro - rfl
    exact performWord_reset s
  · intro hs hnone
    cases hd : decode w with
    | error e => rw [performWord_of_decode_error hd, illegalCommand_running w hs]
    | ok i =>
      obtain ⟨r, hr, hsel, -⟩ := (decodeFollowsOpcodeMap w i).1 hd
      exact absurd hsel (hnone r hr)

end Sys2Proof.Machine
end

section
/-! PROOFS. The commands of Bit Cursor I/O: SEEK, RDBIT, WRBIT, GETOUT, OPEN, and TrimZeros (40_bitio.md R120 to R128). -/

namespace Sys2Proof.Machine

/-! ### A running command, by how its rule ends -/

theorem exec_of_done (i : Instr) {s t : State} (hi : i ≠ .reset) (hs : ¬ s.halted) (h : ruleOf i s = .done () t) :
    exec i s = .next t := by
  rw [exec_eq hi, command_running hs, h, finish]

theorem exec_of_raised (i : Instr) {c : FaultCode} {s t : State} (hi : i ≠ .reset) (hs : ¬ s.halted)
    (h : ruleOf i s = .raised c t) : exec i s = .next (faultEntry c (encode i) t) := by
  rw [exec_eq hi, command_running hs, h, finish]

/-! ### SEEK -/

/-- Settles O14: the rule of SEEK is the one register write. -/
theorem seekCompletes : Obligations.SeekCompletes := fun _ hs => exec_of_done .seek nofun hs rfl

/-! ### RDBIT -/

theorem getLsbD_zero_eq_mod_two (w : Word) : w.getLsbD 0 = decide (w.toNat % 2 = 1) := by
  rw [BitVec.getLsbD, Nat.testBit_zero]

theorem peekBit_exhausted {s : State} (h : readLimit s ≤ s.rcur.toNat) : peekBit s = false := if_pos h

theorem nextRcur_exhausted {s : State} (h : readLimit s ≤ s.rcur.toNat) : nextRcur s = s.rcur := if_pos h

theorem peekBit_dense {s : State} (h : s.rcur.toNat < readLimit s) (hd : s.strided = false) :
    peekBit s = streamBit (s.byteAt .inp (s.rcur.toNat / 8)) (s.rcur.toNat % 8) := by
  rw [peekBit, if_neg (by omega), if_pos hd]

theorem nextRcur_dense {s : State} (h : s.rcur.toNat < readLimit s) (hd : s.strided = false) :
    nextRcur s = s.rcur + 1 := by
  rw [nextRcur, if_neg (by omega), if_pos hd]

theorem peekBit_strided_even {s : State} (h : s.rcur.toNat < readLimit s) (hd : s.strided = true)
    (he : s.rcur.toNat % 2 = 0) : peekBit s = true := by
  rw [peekBit, if_neg (by omega), if_neg (by simp [hd]), if_pos (by rw [getLsbD_zero_eq_mod_two, he]; rfl)]

theorem peekBit_strided_odd {s : State} (h : s.rcur.toNat < readLimit s) (hd : s.strided = true)
    (ho : s.rcur.toNat % 2 = 1) :
    peekBit s = streamBit (s.byteAt .inp (s.rcur.toNat / 16)) (s.rcur.toNat / 2 % 8) := by
  rw [peekBit, if_neg (by omega), if_neg (by simp [hd]), if_neg (by rw [getLsbD_zero_eq_mod_two, ho]; decide)]

theorem nextRcur_strided {s : State} (h : s.rcur.toNat < readLimit s) (hd : s.strided = true) :
    nextRcur s = s.rcur + 2 := by
  rw [nextRcur, if_neg (by omega), if_neg (by simp [hd])]

/-- RDBIT returns the next bit and moves the cursor past it, in every state whose input is inside IN_MEM. -/
theorem exec_rdbit {s : State} (hs : ¬ s.halted) (hl : s.rlen.toNat ≤ s.params.inMax) :
    exec .rdbit s = .next { s with rcur := nextRcur s, result := bitWord (peekBit s) } :=
  exec_of_done .rdbit nofun hs (by rw [ruleOf, rdbitRule, readBit_inside hl]; rfl)

/-- Settles O15: `exec_rdbit`, with the next bit and the next cursor of each of the four kinds of read. -/
theorem rdbitCompletes : Obligations.RdbitCompletes := by
  intro s hs hl c limit
  rw [exec_rdbit hs hl]
  refine ⟨fun h => ?_, fun h hd => ?_, fun h hd he => ?_, fun h hd ho => ?_⟩
  · rw [peekBit_exhausted h, nextRcur_exhausted h]; rfl
  · rw [peekBit_dense h hd, nextRcur_dense h hd]; rfl
  · rw [peekBit_strided_even h hd he, nextRcur_strided h hd]; rfl
  · rw [peekBit_strided_odd h hd ho, nextRcur_strided h hd]; rfl

/-! ### WRBIT -/

theorem wrbitRule_violation {s : State} (h : s.arg0.toNat > 1) : wrbitRule s = .raised .contractViolation s := if_pos h

theorem wrbitRule_bit {s : State} (h : s.arg0.toNat ≤ 1) : wrbitRule s = writeBit (s.arg0.getLsbD 0) s :=
  if_neg (by omega)

/-- Shifting a bit into WACC is doubling and adding, modulo 2^8 (40_bitio.md R121). -/
theorem accumulate_eq_ofNat (acc : Word) (b : Bool) :
    accumulate acc b = BitVec.ofNat 32 ((2 * acc.toNat + b.toNat) % 256) := by
  have hdisj : acc <<< 1 &&& bitWord b = 0#32 := by
    cases b
    · simp [bitWord]
    · ext i hi; cases i <;> simp [bitWord]
  have hb : (bitWord b).toNat = b.toNat := by cases b <;> rfl
  refine BitVec.eq_of_toNat_eq ?_
  rw [accumulate, ← BitVec.add_eq_or_of_and_eq_zero _ _ hdisj, BitVec.toNat_umod, BitVec.toNat_add, hb,
    BitVec.toNat_shiftLeft, BitVec.toNat_ofNat, Nat.shiftLeft_eq]
  show _ % 256 = _
  omega

theorem accumulate_arg {s : State} (h : s.arg0.toNat ≤ 1) :
    accumulate s.wacc (s.arg0.getLsbD 0) = BitVec.ofNat 32 ((2 * s.wacc.toNat + s.arg0.toNat) % 256) := by
  have hb : (s.arg0.getLsbD 0).toNat = s.arg0.toNat := by
    rw [getLsbD_zero_eq_mod_two]
    interval_cases s.arg0.toNat <;> rfl
  rw [accumulate_eq_ofNat, hb]

/-- Settles O16: the rule's first check, and then WriteBit full, inside a byte, and completing one. -/
theorem wrbitCommand : Obligations.WrbitCommand := by
  intro s hs acc
  refine ⟨fun h => ?_, fun h h7 hfull => ?_, fun h h7 => ?_, fun h h7 hroom => ?_⟩
  · exact exec_of_raised .wrbit nofun hs (wrbitRule_violation h)
  · exact exec_of_raised .wrbit nofun hs ((wrbitRule_bit h).trans (writeBit_full ⟨h7, hfull⟩))
  · rw [exec_of_done .wrbit nofun hs ((wrbitRule_bit h).trans (writeBit_partial _ h7)), accumulate_arg h]
    rfl
  · rw [exec_of_done .wrbit nofun hs ((wrbitRule_bit h).trans (writeBit_flush _ h7 hroom)),
      accumulate_arg h, BitVec.setWidth_ofNat_of_le (by omega)]
    rfl

/-! ### TrimZeros -/

theorem trimZeros_eq_rdropWhile (bytes : List Byte) : trimZeros bytes = bytes.rdropWhile (· == 0) := rfl

/-- Settles O30: what TrimZeros drops is the longest run of zero bytes at the end. -/
theorem trimZerosDropsTrailingZeros : Obligations.TrimZerosDropsTrailingZeros := by
  intro bytes
  rw [trimZeros_eq_rdropWhile]
  constructor
  · have hzero : ∀ b ∈ bytes.rtakeWhile (· == 0), b = 0 := fun b hb => by simpa using List.mem_rtakeWhile_imp hb
    exact ⟨_, by rw [← List.eq_replicate_of_mem hzero, List.rdropWhile_append_rtakeWhile]⟩
  · intro b hb
    obtain ⟨hne, rfl⟩ := List.mem_getLast?_eq_getLast hb
    simpa using List.rdropWhile_last_not (· == 0) bytes hne

/-! ### GETOUT -/

/-- The written bits as whole bytes: what Materialize returns (40_bitio.md R122). -/
def wholeBytes (s : State) : List Byte := s.bytesAt .out 0 s.outLen.toNat ++ partialByte s

theorem materialize_inside {s : State} (h : s.outLen.toNat ≤ s.params.outMax) :
    materialize s = .done (wholeBytes s) s := by
  rw [materialize, memRead_inside (by simpa [Params.size] using h), Run.bind_done, wholeBytes]

theorem partialByte_eq (s : State) :
    partialByte s = if s.wbits.toNat % 8 = 0 then []
      else [BitVec.ofNat 8 (s.wacc.toNat * 2 ^ (8 - s.wbits.toNat % 8))] := by
  have hpad : ∀ n, (s.wacc <<< n).setWidth 8 = BitVec.ofNat 8 (s.wacc.toNat * 2 ^ n) := fun n =>
    BitVec.eq_of_toNat_eq (by simp [Nat.shiftLeft_eq])
  rw [partialByte, hpad]

theorem outputBytes_length (trimz wrap : Bool) (bytes : List Byte) :
    (outputBytes trimz wrap bytes).length =
      (if trimz then trimZeros bytes else bytes).length + if wrap then 32 else 0 := by
  cases wrap
  · rfl
  · exact lockBytes_size _

/-- GETOUT checks the number of the bytes it delivers, and then delivers them. -/
theorem getoutRule_inside (trimz wrap : Bool) {s : State} (h : s.outLen.toNat ≤ s.params.outMax) :
    getoutRule trimz wrap s =
      if (outputBytes trimz wrap (wholeBytes s)).length > s.params.bufMax then .raised .capacityExceeded s
      else deliverStaged (outputBytes trimz wrap (wholeBytes s)) s := by
  rw [getoutRule, materialize_inside h, Run.bind_done, outputBytes_length]

/-- Settles O25: the bytes delivered are `outputBytes` of `wholeBytes`, and the rule's check is on their number. -/
theorem getoutCommand : Obligations.GetoutCommand := by
  intro trimz wrap s hs hout k whole trimmed bytes
  have hbytes : outputBytes trimz wrap (wholeBytes s) = bytes := by rw [wholeBytes, partialByte_eq]; rfl
  have hrule := getoutRule_inside trimz wrap hout
  rw [hbytes] at hrule
  refine ⟨fun h => ?_, fun h => ?_⟩
  · rw [if_neg (by omega), deliverStaged_inside h] at hrule
    exact exec_of_done (.getout trimz wrap) nofun hs hrule
  · rw [if_pos h] at hrule
    exact exec_of_raised (.getout trimz wrap) nofun hs hrule

/-! ### OPEN -/

/-- The state OPEN ends in: the reader over the first `len` bytes of the input, and an empty writer. -/
def opened (strided : Bool) (len : Nat) (s : State) : State :=
  (s.setReader (bitWord strided) (BitVec.ofNat 32 len) (bitWord strided)).emptyWriter

theorem inputLength_above {s : State} (h : s.inLen.toNat > s.params.inMax) :
    inputLength s = .raised .capacityExceeded s := if_pos h

theorem inputLength_inside {s : State} (h : s.inLen.toNat ≤ s.params.inMax) :
    inputLength s = .done s.inLen.toNat s := if_neg (by omega)

theorem openRule_exceeded (strided unwrap : Bool) {s : State} (h : s.inLen.toNat > s.params.inMax) :
    openRule strided unwrap s = .raised .capacityExceeded s := by
  rw [openRule, inputLength_above h, Run.bind_raised]

theorem openRule_plain (strided : Bool) {s : State} (h : s.inLen.toNat ≤ s.params.inMax) :
    openRule strided false s = .done () (opened strided s.inLen.toNat s) := by
  rw [openRule, inputLength_inside h]; rfl

theorem openRule_unwrap (strided : Bool) {s : State} (h : s.inLen.toNat ≤ s.params.inMax) :
    openRule strided true s =
      (unwrapInPlace .inp s.inLen.toNat s).bind fun len t => .done () (opened strided len t) := by
  rw [openRule, inputLength_inside h]; rfl

theorem unwrapInPlace_short {sp : Space} {n : Nat} {s : State} (h : n < 32) :
    unwrapInPlace sp n s = .raised .invalidFormat s := if_pos h

theorem unwrapInPlace_badSum {sp : Space} {n : Nat} {s : State} (hn : n ≤ s.params.size sp) (h32 : 32 ≤ n)
    (hr : (unlockBytes (s.bytesAt sp 0 n)).1 = .badSum) :
    unwrapInPlace sp n s =
      .raised .integrityError (s.setMem sp (Memory.writeList (s.mem sp) 0 (unlockBytes (s.bytesAt sp 0 n)).2)) := by
  rcases unwrapInPlace_cases hn with ⟨hlt, -⟩ | ⟨-, -, ⟨-, h⟩ | ⟨hok, -⟩⟩
  · omega
  · exact h
  · rw [hr] at hok; cases hok

theorem unwrapInPlace_ok {sp : Space} {n : Nat} {s : State} (hn : n ≤ s.params.size sp) (h32 : 32 ≤ n)
    (hr : (unlockBytes (s.bytesAt sp 0 n)).1 = .ok) :
    unwrapInPlace sp n s =
      .done (n - 32) (s.setMem sp (Memory.writeList (s.mem sp) 0 (unlockBytes (s.bytesAt sp 0 n)).2)) := by
  rcases unwrapInPlace_cases hn with ⟨hlt, -⟩ | ⟨-, -, ⟨hbad, -⟩ | ⟨-, h⟩⟩
  · omega
  · rw [hr] at hbad; cases hbad
  · exact h

/-- Settles O26: the length check, the plain open, and with UNLOCK the three ends of unwrapping in place. -/
theorem openCommand : Obligations.OpenCommand := by
  intro strided unwrap s hs n r start w
  refine ⟨fun h => ?_, ?_, ?_, ?_, ?_⟩
  · exact exec_of_raised (.openIo strided unwrap) nofun hs (openRule_exceeded strided unwrap h)
  · rintro h rfl
    rw [exec_of_done (.openIo strided false) nofun hs (openRule_plain strided h), opened, BitVec.ofNat_toNat,
      BitVec.setWidth_eq]
    rfl
  · rintro h rfl h32
    exact exec_of_raised (.openIo strided true) nofun hs
      (by rw [ruleOf, openRule_unwrap strided h, unwrapInPlace_short h32]; rfl)
  · rintro h rfl h32 hbad
    exact exec_of_raised (.openIo strided true) nofun hs
      (by rw [ruleOf, openRule_unwrap strided h, unwrapInPlace_badSum (sp := .inp) h h32 hbad]; rfl)
  · rintro h rfl h32 hok
    exact exec_of_done (.openIo strided true) nofun hs
      (by rw [ruleOf, openRule_unwrap strided h, unwrapInPlace_ok (sp := .inp) h h32 hok]; rfl)

end Sys2Proof.Machine
end

section
/-! PROOFS. The message schedule and the HASH command (41_hash.md R157, R158, R164). -/

namespace Sys2Proof.Machine

/-! ### The words of a block -/

theorem wordsOf_length : ∀ bytes : List Byte, (wordsOf bytes).length = bytes.length / 4
  | [] | [_] | [_, _] | [_, _, _] => by simp [wordsOf]
  | _ :: _ :: _ :: _ :: bytes => by simp [wordsOf, wordsOf_length bytes]; omega

/-- Word t of a block is its bytes 4t to 4t + 3, big-endian. -/
theorem wordsOf_getD : ∀ (bytes : List Byte) (t : Nat), 4 * t + 3 < bytes.length →
    (wordsOf bytes).getD t 0 =
      bytes.getD (4 * t) 0 ++ bytes.getD (4 * t + 1) 0 ++ bytes.getD (4 * t + 2) 0 ++ bytes.getD (4 * t + 3) 0
  | [], _, h | [_], _, h | [_, _], _, h | [_, _, _], _, h => by simp at h
  | _ :: _ :: _ :: _ :: _, 0, _ => rfl
  | _ :: _ :: _ :: _ :: bytes, t + 1, h => wordsOf_getD bytes t (by simp at h; omega)

/-! ### The schedule, one word at a time -/

/-- The word the recurrence gives after the words `ws`, which are held latest first (41_hash.md R158). -/
def nextWord (ws : List Word) : Word :=
  smallSigma1 (ws.getD 1 0) + ws.getD 6 0 + smallSigma0 (ws.getD 14 0) + ws.getD 15 0

/-- The words `w`, in order, meet the recurrence from word 16 on (41_hash.md R158). -/
def MeetsRecurrence (w : List Word) : Prop :=
  ∀ t, 16 ≤ t → t < w.length →
    w.getD t 0 =
      smallSigma1 (w.getD (t - 2) 0) + w.getD (t - 7) 0 + smallSigma0 (w.getD (t - 15) 0) + w.getD (t - 16) 0

theorem extendSchedule_succ : ∀ (n : Nat) (ws : List Word),
    extendSchedule (n + 1) ws = nextWord (extendSchedule n ws) :: extendSchedule n ws
  | 0, _ => rfl
  | n + 1, ws => extendSchedule_succ n (nextWord ws :: ws)

theorem extendSchedule_length (n : Nat) (ws : List Word) : (extendSchedule n ws).length = ws.length + n := by
  induction n with
  | zero => rfl
  | succ n ih => rw [extendSchedule_succ, List.length_cons, ih, Nat.add_assoc]

theorem suffix_extendSchedule (n : Nat) (ws : List Word) : ws <:+ extendSchedule n ws := by
  induction n with
  | zero => exact List.suffix_rfl
  | succ n ih => rw [extendSchedule_succ]; exact ih.trans (List.suffix_cons _ _)

/-- The words held so far stay where they are, and the new last word is the one the recurrence gives. -/
theorem MeetsRecurrence.snoc {ws : List Word} (hlen : 16 ≤ ws.length) (h : MeetsRecurrence ws.reverse) :
    MeetsRecurrence (nextWord ws :: ws).reverse := by
  intro t h16 ht
  have hold : ∀ k < ws.length, (nextWord ws :: ws).reverse.getD k 0 = ws.reverse.getD k 0 := fun k hk => by
    rw [List.reverse_cons, List.getD_append _ _ _ _ (by simpa using hk)]
  rw [List.length_reverse, List.length_cons] at ht
  rw [hold (t - 2) (by omega), hold (t - 7) (by omega), hold (t - 15) (by omega), hold (t - 16) (by omega)]
  rcases Nat.lt_or_eq_of_le (Nat.le_of_lt_succ ht) with hlt | rfl
  · rw [hold t hlt]
    exact h t h16 (by simpa using hlt)
  · have hnew : (nextWord ws :: ws).reverse.getD ws.length 0 = nextWord ws := by simp
    have hlast : ∀ k < 16, ws.reverse.getD (ws.length - (k + 1)) 0 = ws.getD k 0 := fun k hk => by
      rw [List.getD_reverse _ (by omega)]
      congr 1; omega
    rw [hnew, hlast 1 (by omega), hlast 6 (by omega), hlast 14 (by omega), hlast 15 (by omega), nextWord]

theorem extendSchedule_meetsRecurrence {ws : List Word} (hlen : ws.length = 16) (n : Nat) :
    MeetsRecurrence (extendSchedule n ws).reverse := by
  induction n with
  | zero => intro t h16 ht; rw [List.length_reverse, extendSchedule, hlen] at ht; omega
  | succ n ih =>
    rw [extendSchedule_succ]
    exact ih.snoc (by rw [extendSchedule_length]; omega)

/-! ### The schedule of a block -/

theorem wordsOf_prefix_schedule (block : List Byte) : wordsOf block <+: schedule block := by
  simpa [schedule] using List.reverse_prefix.2 (suffix_extendSchedule 48 (wordsOf block).reverse)

theorem schedule_length (block : List Byte) : (schedule block).length = block.length / 4 + 48 := by
  rw [schedule, List.length_reverse, extendSchedule_length, List.length_reverse, wordsOf_length]

/-- Settles O32: the block's words are the schedule's first 16, and each word added keeps the recurrence. -/
theorem scheduleRecurrence : Obligations.ScheduleRecurrence := by
  intro block hblock
  have hwords : (wordsOf block).length = 16 := by rw [wordsOf_length, hblock]
  have hlen : (schedule block).length = 64 := by rw [schedule_length, hblock]
  refine ⟨hlen, fun t ht => ?_, fun t h16 h64 => ?_⟩
  · obtain ⟨rest, hrest⟩ := wordsOf_prefix_schedule block
    rw [← hrest, List.getD_append _ _ _ _ (by omega), wordsOf_getD block t (by omega)]
  · exact extendSchedule_meetsRecurrence (by rw [List.length_reverse, hwords]) 48 t h16 (by rw [← schedule]; omega)

/-! ### HASH -/

theorem stagedLength_above {s : State} (h : s.params.bufMax < s.bufLen.toNat) :
    stagedLength s = .raised .capacityExceeded s := if_pos h

theorem stagedLength_inside {s : State} (h : s.bufLen.toNat ≤ s.params.bufMax) :
    stagedLength s = .done s.bufLen.toNat s := if_neg (by omega)

theorem hashRule_exceeded {s : State} (h : s.params.bufMax < s.bufLen.toNat) :
    hashRule s = .raised .capacityExceeded s := by
  rw [hashRule, stagedLength_above h, Run.bind_raised]

theorem hashRule_inside {s : State} (h : s.bufLen.toNat ≤ s.params.bufMax) :
    hashRule s = .done () (s.setDigest (sha256 (s.bytesAt .buf 0 s.bufLen.toNat))) := by
  rw [hashRule, stagedLength_inside h, Run.bind_done, memRead_inside (by simpa [Params.size] using h), Run.bind_done]

/-- Settles O27: the check on BUF_LEN, and then the staged bytes are read and their digest is written. -/
theorem hashCommand : Obligations.HashCommand := fun _ hs =>
  ⟨fun h => exec_of_done .hash nofun hs (hashRule_inside h),
    fun h => exec_of_raised .hash nofun hs (hashRule_exceeded h)⟩

end Sys2Proof.Machine
end

section
/-! PROOFS. Checksum framing: the layout of Lock, and the LOCK and UNLOCK commands (42_framing.md R191, R193, R194). -/

namespace Sys2Proof.Machine

/-! ### Lock -/

/-- Inside both sequences, byte i of the exclusive or is the exclusive or of their bytes i. -/
theorem xorBytes_getElem? {s t : List Byte} {i : Nat} (hs : i < s.length) (ht : i < t.length) :
    (xorBytes s t)[i]? = some (s.getD i 0 ^^^ t.getD i 0) := by
  simp [xorBytes, hs, ht]

theorem lockBytes_drop_length (p : List Byte) : (lockBytes p).drop p.length = (sha256 p).toList :=
  List.drop_left' (xorBytes_keyStream_length p (sha256 p))

theorem lockBytes_getElem?_of_lt {p : List Byte} {i : Nat} (hi : i < p.length) :
    (lockBytes p)[i]? = some (p.getD i 0 ^^^ (keyStream (sha256 p).toList p.length).getD i 0) := by
  rw [lockBytes, List.getElem?_append_left (by simpa using hi), xorBytes_getElem? hi (by simpa using hi)]

/-- Settles O36: the wrapped bytes are as many as the keystream's, and the digest stands after them. -/
theorem lockLayout : Obligations.LockLayout := fun p =>
  ⟨lockBytes_size p, fun _ => lockBytes_getElem?_of_lt, lockBytes_drop_length p⟩

/-! ### LOCK -/

theorem lockRule_exceeded {s : State} (h : s.params.bufMax < s.bufLen.toNat + 32) :
    lockRule s = .raised .capacityExceeded s := if_pos h

/-- With room for the digest the staged bytes are read, and the wrapped bytes delivered in their place. -/
theorem lockRule_inside {s : State} (h : s.bufLen.toNat + 32 ≤ s.params.bufMax) :
    lockRule s = deliverStaged (lockBytes (s.bytesAt .buf 0 s.bufLen.toNat)) s := by
  rw [lockRule, if_neg (by omega), memRead_inside (by simp only [Params.size]; omega), Run.bind_done]

/-- Settles O28: the check on BUF_LEN + 32, and then the wrapped bytes, 32 more than the staged ones, fit. -/
theorem lockCommand : Obligations.LockCommand := by
  intro s hs n
  refine ⟨fun h => ?_, fun h => exec_of_raised .lock nofun hs (lockRule_exceeded h)⟩
  have hlen : (lockBytes (s.bytesAt .buf 0 n)).length = n + 32 := by rw [lockBytes_size, bytesAt_length]
  have hrule := (lockRule_inside h).trans (deliverStaged_inside (hlen.trans_le h))
  rw [hlen] at hrule
  exact exec_of_done .lock nofun hs hrule

/-! ### UNLOCK -/

theorem unlockRule_exceeded {s : State} (h : s.params.bufMax < s.bufLen.toNat) :
    unlockRule s = .raised .capacityExceeded s := by
  rw [unlockRule, stagedLength_above h, Run.bind_raised]

theorem unlockRule_inside {s : State} (h : s.bufLen.toNat ≤ s.params.bufMax) :
    unlockRule s =
      (unwrapInPlace .buf s.bufLen.toNat s).bind fun len t => .done () (t.setBufLen (BitVec.ofNat 32 len)) := by
  rw [unlockRule, stagedLength_inside h, Run.bind_done]

/-- Settles O29: the check on BUF_LEN, and then the three ends of unwrapping in place. -/
theorem unlockCommand : Obligations.UnlockCommand := by
  intro s hs n r
  refine ⟨fun h => ?_, fun h h32 => ?_, fun h h32 hbad => ?_, fun h h32 hok => ?_⟩
  · exact exec_of_raised .unlock nofun hs (unlockRule_exceeded h)
  · exact exec_of_raised .unlock nofun hs
      (by rw [ruleOf, unlockRule_inside h, unwrapInPlace_short h32, Run.bind_raised])
  · exact exec_of_raised .unlock nofun hs
      (by rw [ruleOf, unlockRule_inside h, unwrapInPlace_badSum (sp := .buf) h h32 hbad, Run.bind_raised])
  · exact exec_of_done .unlock nofun hs
      (by rw [ruleOf, unlockRule_inside h, unwrapInPlace_ok (sp := .buf) h h32 hok, Run.bind_done]; rfl)

end Sys2Proof.Machine
end

section
/-! PROOFS. The codec's commands: ENCB, ENCU and ENCBUF append a code to the written bits, DECU and DECBUF read one
(43_codec.md R216, R218, R220 to R223). -/

namespace Sys2Proof.Machine

/-! ### A command that writes bits -/

/-- How many more bits the writer takes: 8 × OUT_MAX + 7 in all (10_state.md R33). -/
def writerRoom (s : State) : Nat := 8 * s.params.outMax + 7 - s.wbits.toNat

theorem SameButWriter.status {s t : State} (h : SameButWriter s t) : t.status = s.status := by
  rw [SameButWriter] at h
  rw [h]

theorem SameButWriter.finfo {s t : State} (h : SameButWriter s t) : t.finfo = s.finfo := by
  rw [SameButWriter] at h
  rw [h]

theorem writeBits_of_le_room {s : State} (hinv : s.Inv) {bits : List Bool} (hroom : bits.length ≤ writerRoom s) :
    ∃ t, writeBits bits s = .done () t ∧ Wrote bits s t := by
  have hbound := writer_bound hinv
  unfold writerRoom at hroom
  rcases writeBits_cases bits hinv with ⟨-, h⟩ | ⟨hfull, -⟩
  · exact h
  · omega

theorem writeBits_of_room_lt {s : State} (hinv : s.Inv) {bits : List Bool} (hroom : writerRoom s < bits.length) :
    ∃ t, writeBits bits s = .raised .capacityExceeded t ∧ Wrote (bits.take (writerRoom s)) s t := by
  unfold writerRoom at hroom
  rcases writeBits_cases bits hinv with ⟨hfits, -⟩ | ⟨-, h⟩
  · omega
  · exact h

/-- A running command whose rule writes bits for which there is room appends them all. -/
theorem exec_appends_all (i : Instr) {s : State} {bits : List Bool} (hi : i ≠ .reset) (hs : ¬ s.halted) (hinv : s.Inv)
    (hrule : ruleOf i s = writeBits bits s) (hroom : bits.length ≤ writerRoom s) :
    ∃ t, exec i s = .next t ∧ t.writtenBits = s.writtenBits ++ bits ∧
      t.wbits.toNat = s.wbits.toNat + bits.length ∧ t.status = s.status ∧ t.finfo = s.finfo := by
  obtain ⟨t, ht, wrote⟩ := writeBits_of_le_room hinv hroom
  exact ⟨t, exec_of_done i hi hs (hrule.trans ht), wrote.stream, wrote.count, wrote.same.status, wrote.same.finfo⟩

/-- A running command whose rule writes more bits than there is room for appends as many as fit, and raises
CapacityExceeded. -/
theorem exec_appends_room (i : Instr) {s : State} {bits : List Bool} (hi : i ≠ .reset) (hs : ¬ s.halted) (hinv : s.Inv)
    (hrule : ruleOf i s = writeBits bits s) (hroom : writerRoom s < bits.length) :
    ∃ t, exec i s = .next t ∧ t.writtenBits = s.writtenBits ++ bits.take (writerRoom s) ∧
      t.wbits.toNat = s.wbits.toNat + writerRoom s ∧ t.status = 0x61 ∧ t.finfo = encode i := by
  obtain ⟨t, ht, wrote⟩ := writeBits_of_room_lt hinv hroom
  have hcount := wrote.count
  rw [List.length_take_of_le hroom.le] at hcount
  have hstream : (faultEntry .capacityExceeded (encode i) t).writtenBits = t.writtenBits :=
    writtenBits_congr rfl rfl rfl rfl rfl
  exact ⟨_, exec_of_raised i hi hs (hrule.trans ht), hstream.trans wrote.stream, hcount, rfl, rfl⟩

/-! ### ENCB -/

theorem encbRule_violation {s : State} (h : s.arg0.toNat > s.arg1.toNat) :
    encbRule s = .raised .contractViolation s := if_pos h

theorem encbRule_code {s : State} (h : s.arg0.toNat ≤ s.arg1.toNat) :
    encbRule s = writeBits (boundedBits s.arg0 s.arg1) s := if_neg (by omega)

/-- Settles O17: the check on ARG0, and then the rule writes the bits of the bounded code. -/
theorem encbCommand : Obligations.EncbCommand := fun _ hs hinv =>
  ⟨fun h => exec_of_raised .encb nofun hs (encbRule_violation h),
    fun h => exec_appends_all .encb nofun hs hinv (encbRule_code h),
    fun h => exec_appends_room .encb nofun hs hinv (encbRule_code h)⟩

/-! ### ENCU -/

theorem encuRule_violation {s : State} (h : s.arg0.toNat > 0x7FFFFFFF) :
    encuRule s = .raised .contractViolation s := if_pos h

theorem encuRule_code {s : State} (h : s.arg0.toNat ≤ 0x7FFFFFFF) :
    encuRule s = writeBits (unboundedBits s.arg0.toNat) s := if_neg (by omega)

/-- Settles O18: the check on ARG0, and then the rule writes the bits of the unbounded code. -/
theorem encuCommand : Obligations.EncuCommand := fun _ hs hinv =>
  ⟨fun h => exec_of_raised .encu nofun hs (encuRule_violation h),
    fun h => exec_appends_all .encu nofun hs hinv (encuRule_code h),
    fun h => exec_appends_room .encu nofun hs hinv (encuRule_code h)⟩

/-! ### ENCBUF -/

/-- The bits ENCBUF writes, each byte's bounded code being its eight bits. -/
theorem bufferBits_eq (bytes : List Byte) :
    bufferBits bytes = unboundedBits bytes.length ++ bytes.flatMap byteBits := by
  simp only [bufferBits, boundedBits_byte]

theorem encbufRule_exceeded {s : State} (h : s.params.bufMax < s.bufLen.toNat) :
    encbufRule s = .raised .capacityExceeded s := by
  rw [encbufRule, stagedLength_above h, Run.bind_raised]

theorem encbufRule_code {s : State} (h : s.bufLen.toNat ≤ s.params.bufMax) :
    encbufRule s =
      writeBits (unboundedBits s.bufLen.toNat ++ (s.bytesAt .buf 0 s.bufLen.toNat).flatMap byteBits) s := by
  rw [encbufRule, stagedLength_inside h, Run.bind_done, memRead_inside (by simpa [Params.size] using h), Run.bind_done,
    bufferBits_eq, bytesAt_length]

/-- Settles O19: the check on BUF_LEN, and then the rule writes the length's code and each staged byte's eight bits. -/
theorem encbufCommand : Obligations.EncbufCommand := fun _ hs hinv =>
  ⟨fun h => exec_of_raised .encbuf nofun hs (encbufRule_exceeded h),
    fun h => exec_appends_all .encbuf nofun hs hinv (encbufRule_code h),
    fun h => exec_appends_room .encbuf nofun hs hinv (encbufRule_code h)⟩

/-! ### DecUnbounded over any code -/

/-- The number v of payload bits, lowest first (43_codec.md R216). -/
abbrev payloadValue (payload : List Bool) : Nat := payload.foldr (fun b v => 2 * v + b.toNat) 0

/-- The payload bits, each after its continuation bit (43_codec.md R216). -/
abbrev payloadCode (payload : List Bool) : List Bool := payload.flatMap fun b => [true, b]

section
variable {s : State} {c : Word} {payload : List Bool}

theorem decUnbounded_value (hlen : payload.length ≤ 31) (h : StandsOver s (payloadCode payload ++ [false]) c)
    (hr : payloadValue payload + 2 ^ payload.length - 1 ≤ 2 ^ 31 - 1) :
    decUnbounded s = .done (payloadValue payload + 2 ^ payload.length - 1) (s.setRcur c) :=
  (decUnbounded_payload hlen h).trans (if_neg (Nat.not_lt.2 hr))

theorem decUnbounded_overflow (hlen : payload.length ≤ 31) (h : StandsOver s (payloadCode payload ++ [false]) c)
    (hr : 2 ^ 31 - 1 < payloadValue payload + 2 ^ payload.length - 1) :
    decUnbounded s = .raised .decodeOverflow (s.setRcur c) :=
  (decUnbounded_payload hlen h).trans (if_pos hr)

/-- The 32nd continuation bit finds no room for a payload bit after it. -/
theorem decUnbounded_continued (hlen : payload.length = 31) (h : StandsOver s (payloadCode payload ++ [true]) c) :
    decUnbounded s = .raised .decodeOverflow (s.setRcur c) := by
  obtain ⟨c₁, hlast, hloop⟩ := decUnboundedLoop_payload payload [true] 31 0 0 hlen.le h
  obtain ⟨c₂, hread, hend⟩ := standsOver_cons hlast
  obtain rfl : c₂ = c := standsOver_nil hend
  rw [decUnbounded, hloop, hlen, Nat.sub_self, decUnboundedLoop, hread]
  rfl

end

/-! ### DECU -/

theorem decuRule_done {s t : State} {n : Nat} (h : decUnbounded s = .done n t) :
    decuRule s = .done () (t.setResult (BitVec.ofNat 32 n)) := by
  rw [decuRule, h, Run.bind_done]

theorem decuRule_raised {s t : State} {c : FaultCode} (h : decUnbounded s = .raised c t) :
    decuRule s = .raised c t := by
  rw [decuRule, h, Run.bind_raised]

/-- Settles O22: the three ends of DecUnbounded over a code, each with the cursor after the last bit read. -/
theorem decuCommand : Obligations.DecuCommand := fun _ _ _ hs hlen =>
  ⟨fun h hr => exec_of_done .decu nofun hs (decuRule_done (decUnbounded_value hlen h hr)),
    fun h hr => exec_of_raised .decu nofun hs (decuRule_raised (decUnbounded_overflow hlen h hr)),
    fun h h31 => exec_of_raised .decu nofun hs (decuRule_raised (decUnbounded_continued h31 h))⟩

/-! ### DECBUF -/

theorem decbufRule_raised {s t : State} {c : FaultCode} (h : decUnbounded s = .raised c t) :
    decbufRule s = .raised c t := by
  rw [decbufRule, h, Run.bind_raised]

theorem decbufRule_exceeded {s t : State} {n : Nat} (h : decUnbounded s = .done n t) (hn : t.params.bufMax < n) :
    decbufRule s = .raised .capacityExceeded t := by
  rw [decbufRule, h, Run.bind_done, if_pos hn]

/-- Over the code of a length and the bits of as many bytes, the length's cursor is where the bytes begin. -/
theorem decbufRule_bytes {s : State} {c : Word} {bytes : List Byte} (hp : s.params.Legal)
    (hlen : bytes.length ≤ s.params.bufMax)
    (h : StandsOver s (unboundedBits bytes.length ++ bytes.flatMap byteBits) c) :
    decbufRule s =
      .done () { s with
        rcur := c, bufMem := Memory.writeList s.bufMem 0 bytes
        bufLen := BitVec.ofNat 32 bytes.length, result := BitVec.ofNat 32 bytes.length } := by
  obtain ⟨c₁, hlength, hbytes⟩ := standsOver_append h
  have hmax : s.params.bufMax ≤ 2 ^ 27 := hp.2.1.2
  have hfits : ¬ bytes.length > (s.setRcur c₁).params.bufMax := by rw [State.setRcur_params]; omega
  rw [decbufRule, decUnbounded_bits (by omega) hlength, Run.bind_done, if_neg hfits,
    decBytes_bits bytes 0 (by omega) hbytes, Run.bind_done]
  rfl

/-- Settles O24: the bytes over a length that fits, the check on a length that does not, and DecUnbounded's two faults. -/
theorem decbufCommand : Obligations.DecbufCommand := fun _ _ hs hp =>
  ⟨fun _ hlen h => exec_of_done .decbuf nofun hs (decbufRule_bytes hp hlen h),
    fun _ hmax hn h => exec_of_raised .decbuf nofun hs (decbufRule_exceeded (decUnbounded_bits hn h) hmax),
    fun _ hlen =>
      ⟨fun h hr => exec_of_raised .decbuf nofun hs (decbufRule_raised (decUnbounded_overflow hlen h hr)),
        fun h h31 => exec_of_raised .decbuf nofun hs (decbufRule_raised (decUnbounded_continued h31 h))⟩⟩

end Sys2Proof.Machine
end

section
/-! PROOFS. The control commands: RESET, and NOP (45_control.md R240, R241). -/

namespace Sys2Proof.Machine

/-! ### RESET -/

/-- RESET runs outside the common frame of `command`, so nothing is asked about the halted state (30_encoding.md R95). -/
theorem exec_reset (s : State) : exec .reset s = .next (resetAction s) := rfl

/-- Settles O11: RESET is the reset action, whose fields are the reset values. -/
theorem resetCompletes : Obligations.ResetCompletes := exec_reset

/-! ### NOP -/

/-- While halted a command other than RESET has no effect (60_exceptions.md R252). -/
theorem exec_of_halted {i : Instr} {s : State} (hi : i ≠ .reset) (hs : s.halted) : exec i s = .next s :=
  (exec_eq hi s).trans (command_halted hs)

/-- Settles O13: a halted block ignores NOP, and in a running one its rule is done at once. -/
theorem nopCompletes : Obligations.NopCompletes := by
  intro s
  by_cases hs : s.halted
  · exact exec_of_halted nofun hs
  · exact exec_of_done .nop nofun hs rfl

end Sys2Proof.Machine
end

section
/-! PROOFS. Fault entry: what it writes, and the end of a command whose rule raises (60_exceptions.md R250, R251, R255). -/

namespace Sys2Proof.Machine

/-- The codes of R250 are below 16, so FAULT and CODE are disjoint bits of STATUS and their `or` is a sum. -/
theorem FaultCode.status_eq_add (c : FaultCode) : c.status = 1 + 16 * c.code := by cases c <;> decide

/-- Fault entry writes STATUS and FINFO and no other field (60_exceptions.md R251). -/
theorem faultEntry_eq (c : FaultCode) (w : Word) (s : State) :
    faultEntry c w s = { s with status := 1 + 16 * c.code, finfo := w } :=
  congrArg (fun v => s.setFault v w) c.status_eq_add

/-- A raise keeps the state its rule had built, and fault entry with the command's word follows (60_exceptions.md R255). -/
theorem command_of_raised {i : Instr} {rule : State → Run Unit} {s u : State} {c : FaultCode} (hs : ¬ s.halted)
    (h : rule s = .raised c u) : command i rule s = .next (faultEntry c (encode i) u) := by
  rw [command_running hs, h, finish]

/-- Settles O8: `faultEntry_eq` at each code, the halted state with FAULT_IRQ its FAULT bit, and the raise of any rule. -/
theorem faultEntryRecords : Obligations.FaultEntryRecords := by
  intro w s
  refine ⟨faultEntry_eq _ w s, faultEntry_eq _ w s, faultEntry_eq _ w s, faultEntry_eq _ w s, faultEntry_eq _ w s,
    faultEntry_eq _ w s, fun c => ⟨faultEntry_halted c w s, faultEntry_halted c w s⟩, fun i rule c u hs hraise => ?_⟩
  rw [command_of_raised hs hraise, faultEntry_eq]

end Sys2Proof.Machine
end

section
/-! PROOFS. The round trip of the command word, and the rows of the opcode map (30_encoding.md R93, R94). -/

namespace Sys2Proof

/-- Settles O1: the decoder of the fields succeeds on a command's fields alone, and a word and its fields determine each
other. -/
theorem decodeEncodeExact : Obligations.DecodeEncodeExact := fun _ _ => decode_eq_ok_iff

/-- Two rows that one word selects agree on the bits that both of them fix. -/
theorem patterns_agree_of_selects {r r' : OpcodeRow} {w : Word} (h : w &&& r.mask = r.pattern)
    (h' : w &&& r'.mask = r'.pattern) : r.pattern &&& r'.mask = r'.pattern &&& r.mask := by
  rw [← h, ← h', BitVec.and_assoc, BitVec.and_assoc, BitVec.and_comm r.mask]

/-- Settles O3: every two rows differ in a bit that both of them fix. -/
theorem opcodeRowsDoNotOverlap : Obligations.OpcodeRowsDoNotOverlap := by
  have hdiffer : opcodeMap.Pairwise fun r r' => r.pattern &&& r'.mask ≠ r'.pattern &&& r.mask := by decide
  exact hdiffer.imp fun hne w h => hne (patterns_agree_of_selects h.1 h.2)

/-- Settles O5: each word is the word of its command. -/
theorem opcodeWordsDecode : Obligations.OpcodeWordsDecode := by
  simp only [Obligations.OpcodeWordsDecode, decode_eq_ok_iff]
  decide

end Sys2Proof
end

section
/-! PROOFS. A step from a state of the invariant: it ends in a state of the invariant or is refused, and never leaves a
memory (20_memory.md R61; 10_state.md sections 3 and 5). -/

namespace Sys2Proof.Machine

/-- The step ends in a next state of the invariant, or the access is refused; it does not fault. -/
def EndsLegally : Host.Outcome State Fault Refusal → Prop
  | .next t => t.Inv
  | .fault _ => False
  | .refused _ => True

/-! ### The host's updates -/

theorem setPending_inv {s : State} (h : s.Inv) (l : List Input) : (s.setPending l).Inv :=
  ⟨h.legal, h.status, h.memories, h.reader, h.writer, h.written⟩

theorem addReply_inv {s : State} (h : s.Inv) (r : Reply) : (s.addReply r).Inv :=
  ⟨h.legal, h.status, h.memories, h.reader, h.writer, h.written⟩

theorem setArg0_inv {s : State} (h : s.Inv) (v : Word) : (s.setArg0 v).Inv :=
  ⟨h.legal, h.status, h.memories, h.reader, h.writer, h.written⟩

theorem setArg1_inv {s : State} (h : s.Inv) (v : Word) : (s.setArg1 v).Inv :=
  ⟨h.legal, h.status, h.memories, h.reader, h.writer, h.written⟩

theorem setInLen_inv {s : State} (h : s.Inv) (v : Word) : (s.setInLen v).Inv :=
  ⟨h.legal, h.status, h.memories, h.reader, h.writer, h.written⟩

/-- The host's byte write to a memory it may write is inside that memory, because the byte has an address. -/
theorem write_located_inv {s : State} (h : s.Inv) {addr : Word} {sp : Space} {a : Nat}
    (hl : locate s.params addr = some (.memByte sp a)) (hsp : sp ≠ .out) (b : Byte) :
    (s.setMem sp (Memory.write (s.mem sp) a b)).Inv :=
  setMem_inv h hsp (write_fits b (staged_fits h sp) (locate_inside hl))

/-- The state of a block at reset: no bit written, OUT_CAP = OUT_CAP0, and no byte of memory listed (10_state.md R49). -/
theorem resetWith_inv {p : Params} (h : p.Legal) : (State.resetWith p).Inv where
  legal := h
  status := by simp only [State.StatusLegal, State.faultBit, State.faultField, State.resetWith]; decide
  memories := ⟨fits_nil _, fits_nil _, fits_nil _⟩
  reader := ⟨Nat.zero_le _, Nat.zero_le _⟩
  writer := emptyWriter_legal (s := State.resetWith p) h
  written := fun _ ha => absurd ha (Nat.not_lt_zero _)

/-- Settles O51: the reset writer is the empty one, and the memories list nothing. -/
theorem resetHasInvariant : Obligations.ResetHasInvariant := fun _ => resetWith_inv

/-- Power-on reset is the reset state of the same parameters, but for the model's own fields, which the invariant does not
name. -/
theorem powerOnAction_inv {s : State} (h : s.Inv) : (powerOnAction s).Inv :=
  have h0 := resetWith_inv h.legal
  ⟨h0.legal, h0.status, h0.memories, h0.reader, h0.writer, h0.written⟩

/-! ### One input -/

theorem writeReg_endsLegally {s : State} (h : s.Inv) (r : Reg) (w : Word) : EndsLegally (writeReg r w s) := by
  cases r with
  | cmd =>
    obtain ⟨t, ht, hinv⟩ := performWord_ends w h
    rw [writeReg, ht]
    exact hinv
  | arg0 => exact setArg0_inv h w
  | arg1 => exact setArg1_inv h w
  | inLen => exact setInLen_inv h w
  | bufLen => exact setBufLen_inv h w
  | status | finfo | result | mode | rlen | rcur | wbits | wacc | outLen | outCap | id => exact h

theorem hostAccess_endsLegally {s : State} (h : s.Inv) (op : HostOp) : EndsLegally (hostAccess op s) := by
  cases op with
  | write32 addr w =>
    rw [hostAccess, hostWrite32]
    split
    · exact writeReg_endsLegally h _ w
    all_goals trivial
  | read32 addr =>
    rw [hostAccess, hostRead32]
    split
    · exact addReply_inv h _
    all_goals trivial
  | write8 addr b =>
    rw [hostAccess, hostWrite8]
    split
    · next hl => exact write_located_inv h hl nofun b
    · next hl => exact write_located_inv h hl nofun b
    · exact h
    · exact h
    all_goals trivial
  | read8 addr =>
    rw [hostAccess, hostRead8]
    split
    · exact addReply_inv h _
    · exact addReply_inv h _
    all_goals trivial

theorem step_endsLegally {s : State} (h : s.Inv) : EndsLegally (step s) := by
  rw [step, performNext]
  split
  · exact h
  · next x rest _ =>
    cases x with
    | access op => exact hostAccess_endsLegally (setPending_inv h rest) op
    | powerOnReset => exact powerOnAction_inv (setPending_inv h rest)

/-- Settles O50: whichever next state the step answers, `step_endsLegally` gives it the invariant. -/
theorem stepKeepsInvariant : Obligations.StepKeepsInvariant := by
  intro s t h hstep
  have hend := step_endsLegally h
  rwa [hstep] at hend

/-- Settles O52: a step that ends legally is no fault. -/
theorem stepNeverLeavesMemory : Obligations.StepNeverLeavesMemory := by
  intro s r h hstep
  have hend := step_endsLegally h
  rwa [hstep] at hend

end Sys2Proof.Machine
end

section
/-! PROOFS. Checksum framing as functions: the keystream byte by byte, and that Unlock undoes Lock and accepts nothing else
(42_framing.md R190 to R192, R195). -/

namespace Sys2Proof.Machine

/-! ### The keystream -/

/-- One link of the chain: the hash of a block (42_framing.md R190). -/
abbrev nextBlock (b : Digest) : Digest := sha256 b.toList

/-- Byte i of the chained blocks is byte i mod 32 of block i div 32. -/
theorem keyBlocks_getElem? : ∀ (n : Nat) (cs : Digest) (i : Nat), i < 32 * n →
    (keyBlocks n cs.toList)[i]? = (nextBlock^[i / 32] cs).toList[i % 32]?
  | 0, _, _, h => absurd h (by omega)
  | n + 1, cs, i, h => by
    rw [keyBlocks]
    by_cases hi : i < 32
    · rw [List.getElem?_append_left (by simpa using hi), Nat.div_eq_of_lt hi, Nat.mod_eq_of_lt hi]
      rfl
    · rw [List.getElem?_append_right (by simpa using hi), digest_toList_length,
        keyBlocks_getElem? n (nextBlock cs) (i - 32) (by omega), ← Function.iterate_succ_apply,
        show ((i - 32) / 32).succ = i / 32 by omega, show (i - 32) % 32 = i % 32 by omega]

/-- Settles O35: the keystream is the first bytes of enough blocks. -/
theorem keyStreamBytes : Obligations.KeyStreamBytes := by
  intro cs n
  refine ⟨keyStream_length cs n, fun i hi => ?_⟩
  rw [keyStream, List.getElem?_take_of_lt hi, keyBlocks_getElem? _ cs i (by omega)]

/-! ### Unlock -/

/-- The exclusive or with the same keystream twice is nothing. -/
theorem xorBytes_xorBytes_cancel {s t : List Byte} (h : s.length ≤ t.length) : xorBytes (xorBytes s t) t = s := by
  refine List.ext_getElem (by simp only [xorBytes_length]; omega) fun i h₁ h₂ => ?_
  simp [xorBytes]

theorem unlockBytes_short {c : List Byte} (h : c.length < 32) : unlockBytes c = (.badFormat, []) := if_pos h

theorem unlockBytes_ok {c : List Byte} (h : 32 ≤ c.length) (hd : (sha256 (unlockCandidate c)).toList = trailingDigest c) :
    unlockBytes c = (.ok, unlockCandidate c) := by
  rw [unlockBytes, if_neg (by omega), if_pos hd]

theorem unlockBytes_badSum {c : List Byte} (h : 32 ≤ c.length)
    (hd : (sha256 (unlockCandidate c)).toList ≠ trailingDigest c) : unlockBytes c = (.badSum, unlockCandidate c) := by
  rw [unlockBytes, if_neg (by omega), if_neg hd]

/-- Unlock answers OK only with 32 bytes or more, with the candidate, whose digest is the trailing one. -/
theorem of_unlockBytes_eq_ok {c p : List Byte} (h : unlockBytes c = (.ok, p)) :
    32 ≤ c.length ∧ p = unlockCandidate c ∧ (sha256 p).toList = trailingDigest c := by
  by_cases hlen : c.length < 32
  · rw [unlockBytes_short hlen] at h; cases h
  by_cases hd : (sha256 (unlockCandidate c)).toList = trailingDigest c
  · rw [unlockBytes_ok (by omega) hd] at h
    cases h
    exact ⟨by omega, rfl, hd⟩
  · rw [unlockBytes_badSum (by omega) hd] at h; cases h

theorem trailingDigest_lockBytes (p : List Byte) : trailingDigest (lockBytes p) = (sha256 p).toList := by
  rw [trailingDigest, lockBytes_size, Nat.add_sub_cancel, lockBytes_drop_length]

theorem unlockCandidate_lockBytes (p : List Byte) : unlockCandidate (lockBytes p) = p := by
  rw [unlockCandidate, trailingDigest_lockBytes, lockBytes_size, Nat.add_sub_cancel, lockBytes,
    List.take_left' (xorBytes_keyStream_length p _), xorBytes_xorBytes_cancel (by simp)]

/-- Settles O37: the candidate of wrapped bytes is what was wrapped, and their trailing digest its digest. -/
theorem unlockOfLock : Obligations.UnlockOfLock := by
  intro p
  rw [unlockBytes_ok (by rw [lockBytes_size]; omega), unlockCandidate_lockBytes]
  rw [unlockCandidate_lockBytes, trailingDigest_lockBytes]

/-- Wrapping a candidate whose digest is the trailing one gives the wrapped bytes back. -/
theorem lockBytes_unlockCandidate {c : List Byte} (h : 32 ≤ c.length)
    (hd : (sha256 (unlockCandidate c)).toList = trailingDigest c) : lockBytes (unlockCandidate c) = c := by
  rw [lockBytes, hd, unlockCandidate_length h]
  have hks : (keyStream (trailingDigest c) (c.length - 32)).length = c.length - 32 := by rw [← hd, keyStream_length]
  rw [unlockCandidate, xorBytes_xorBytes_cancel (by rw [hks, List.length_take]; omega), trailingDigest,
    List.take_append_drop]

/-- Below the last 32 bytes the candidate is the wrapped byte XOR the keystream's. -/
theorem unlockCandidate_getElem? {c : List Byte} {i : Nat} (h : 32 ≤ c.length) (hi : i < c.length - 32) :
    (unlockCandidate c)[i]? = some (c.getD i 0 ^^^ (keyStream (trailingDigest c) (c.length - 32)).getD i 0) := by
  obtain ⟨d, hd⟩ := digest_of_length (trailingDigest_length h)
  rw [unlockCandidate, ← hd, xorBytes_getElem? (by rw [List.length_take]; omega) (by rwa [keyStream_length])]
  simp [List.getD, List.getElem?_take_of_lt hi]

/-- Settles O38: Unlock's two checks, the candidate's bytes, and that Lock undoes an Unlock that answers OK. -/
theorem unlockAcceptsOnlyLocked : Obligations.UnlockAcceptsOnlyLocked := by
  refine ⟨fun c p h => ?_, fun c => unlockBytes_short, fun c h => ?_⟩
  · obtain ⟨hlen, rfl, hd⟩ := of_unlockBytes_eq_ok h
    exact (lockBytes_unlockCandidate hlen hd).symm
  · intro n cs p
    have hp : p = unlockCandidate c := (unlockBytes_long h).1
    rw [hp]
    exact ⟨unlockCandidate_length h, fun i => unlockCandidate_getElem? h,
      fun hd => by rw [unlockBytes_ok h hd], fun hd => by rw [unlockBytes_badSum h hd]⟩

/-! ### LOCK and then UNLOCK -/

/-- Bytes stored in a memory are the ones it holds there. -/
theorem bytesAt_of_mem_eq_writeList {t : State} {sp : Space} {m : Memory} {a : Nat} {bs : List Byte} {n : Nat}
    (hn : bs.length = n) (h : t.mem sp = Memory.writeList m a bs) : t.bytesAt sp a n = bs := by
  subst hn
  refine List.ext_getElem (by simp) fun i _ hi => ?_
  rw [getElem_bytesAt, State.byteAt, h, lookup_writeList_inside bs hi]

/-- The state LOCK ends in: the staged bytes wrapped in place (42_framing.md R193). -/
def lockedState (s : State) : State :=
  { s with
    bufMem := Memory.writeList s.bufMem 0 (lockBytes (s.bytesAt .buf 0 s.bufLen.toNat))
    bufLen := BitVec.ofNat 32 (s.bufLen.toNat + 32) }

section
variable {s : State} (hp : s.params.Legal) (hroom : s.bufLen.toNat + 32 ≤ s.params.bufMax)
include hp hroom

theorem lockedState_bufLen : (lockedState s).bufLen.toNat = s.bufLen.toNat + 32 := by
  have hmax := Params.Legal.bufMax_lt hp
  rw [lockedState, BitVec.toNat_ofNat, Nat.mod_eq_of_lt (by omega)]

theorem lockedState_bytesAt :
    (lockedState s).bytesAt .buf 0 (lockedState s).bufLen.toNat = lockBytes (s.bytesAt .buf 0 s.bufLen.toNat) := by
  rw [lockedState_bufLen hp hroom]
  exact bytesAt_of_mem_eq_writeList (by rw [lockBytes_size, bytesAt_length]) rfl

end

/-- Settles O44: BUF_MEM holds the wrapped bytes after LOCK, so UNLOCK answers what was wrapped, and stores it. -/
theorem lockThenUnlockRestores : Obligations.LockThenUnlockRestores := by
  intro s hs hp hroom
  have hlen := lockedState_bufLen hp hroom
  obtain ⟨-, -, -, hunlock⟩ := unlockCommand (lockedState s) hs
  rw [lockedState_bytesAt hp hroom, unlockOfLock, hlen, Nat.add_sub_cancel] at hunlock
  refine ⟨lockedState s, _, (lockCommand s hs).1 hroom, hunlock hroom (by omega) rfl, hs, by simp, ?_⟩
  exact bytesAt_of_mem_eq_writeList (bytesAt_length s .buf _ 0) rfl

end Sys2Proof.Machine
end

section
/-! PROOFS. What each command writes, over all commands (30_encoding.md section 4), and what it records when it faults
(60_exceptions.md sections 2 and 3). -/

namespace Sys2Proof.Machine

/-! ### Every next state of a command -/

theorem changes_refl {i : Instr} (hi : i ≠ .reset) (s : State) : Changes s s i := by
  cases i with
  | reset => exact absurd rfl hi
  | openIo a b => exact ⟨rfl, fun _ => rfl⟩
  | nop | seek | wrbit | rdbit | encb | decb | encu | decu | encbuf | decbuf | getout a b | hash | lock | unlock => rfl

/-- Every next state of a command is one that its rule may change to, but for STATUS and FINFO. -/
theorem exec_changes {i : Instr} {s t : State} (h : exec i s = .next t) :
    ∃ u status finfo, Changes s u i ∧ t = u.setFault status finfo := by
  by_cases hi : i = .reset
  · subst hi
    injection h with h
    exact ⟨resetAction s, 0, 0, rfl, h.symm⟩
  · rcases exec_next hi h with ⟨-, rfl⟩ | ⟨-, -, hc⟩ | ⟨-, c, -, u, -, hc, rfl⟩
    · exact ⟨t, t.status, t.finfo, changes_refl hi t, rfl⟩
    · exact ⟨t, t.status, t.finfo, hc, rfl⟩
    · exact ⟨u, c.status, encode i, hc, rfl⟩

/-! ### What a rule leaves unchanged: one lemma for each line of the operand table -/

section
variable {i : Instr} {s u : State} (h : Changes s u i)
include h

theorem Changes.fault (hi : i ≠ .reset) : u.status = s.status ∧ u.finfo = s.finfo := by
  cases i with
  | reset => exact absurd rfl hi
  | openIo a b => rw [h.1]; exact ⟨rfl, rfl⟩
  | nop | seek | wrbit | rdbit | encb | decb | encu | decu | encbuf | decbuf | getout a b | hash | lock | unlock =>
    rw [h]; exact ⟨rfl, rfl⟩

theorem Changes.platform :
    u.params = s.params ∧ u.powerCycles = s.powerCycles ∧ u.pending = s.pending ∧ u.replies = s.replies := by
  cases i with
  | openIo a b => rw [h.1]; exact ⟨rfl, rfl, rfl, rfl⟩
  | nop | reset | seek | wrbit | rdbit | encb | decb | encu | decu | encbuf | decbuf | getout a b | hash | lock | unlock =>
    rw [h]; exact ⟨rfl, rfl, rfl, rfl⟩

theorem Changes.operands (hi : i ≠ .reset) : u.arg0 = s.arg0 ∧ u.arg1 = s.arg1 ∧ u.inLen = s.inLen := by
  cases i with
  | reset => exact absurd rfl hi
  | openIo a b => rw [h.1]; exact ⟨rfl, rfl, rfl⟩
  | nop | seek | wrbit | rdbit | encb | decb | encu | decu | encbuf | decbuf | getout a b | hash | lock | unlock =>
    rw [h]; exact ⟨rfl, rfl, rfl⟩

theorem Changes.digest (hi : i ∉ [Instr.reset, .hash]) : u.digest = s.digest := by
  cases i with
  | reset | hash => simp at hi
  | openIo a b => rw [h.1]
  | nop | seek | wrbit | rdbit | encb | decb | encu | decu | encbuf | decbuf | getout a b | lock | unlock => rw [h]

theorem Changes.result (hi : i ∉ [Instr.reset, .rdbit, .decb, .decu, .decbuf]) : u.result = s.result := by
  cases i with
  | reset | rdbit | decb | decu | decbuf => simp at hi
  | openIo a b => rw [h.1]
  | nop | seek | wrbit | encb | encu | encbuf | getout a b | hash | lock | unlock => rw [h]

theorem Changes.staged (hg : ∀ a b, i ≠ .getout a b) (hi : i ∉ [Instr.lock, .unlock, .decbuf]) :
    u.bufMem = s.bufMem ∧ (i ≠ .reset → u.bufLen = s.bufLen) := by
  cases i with
  | getout a b => exact absurd rfl (hg a b)
  | lock | unlock | decbuf => simp at hi
  | reset => rw [h]; exact ⟨rfl, fun hr => absurd rfl hr⟩
  | openIo a b => rw [h.1]; exact ⟨rfl, fun _ => rfl⟩
  | nop | seek | wrbit | rdbit | encb | decb | encu | decu | encbuf | hash => rw [h]; exact ⟨rfl, fun _ => rfl⟩

theorem Changes.reader (ho : ∀ a b, i ≠ .openIo a b) (hi : i ≠ .reset) : u.mode = s.mode ∧ u.rlen = s.rlen := by
  cases i with
  | openIo a b => exact absurd rfl (ho a b)
  | reset => exact absurd rfl hi
  | nop | seek | wrbit | rdbit | encb | decb | encu | decu | encbuf | decbuf | getout a b | hash | lock | unlock =>
    rw [h]; exact ⟨rfl, rfl⟩

theorem Changes.cursor (ho : ∀ a b, i ≠ .openIo a b) (hi : i ∉ [Instr.reset, .seek, .rdbit, .decb, .decu, .decbuf]) :
    u.rcur = s.rcur := by
  cases i with
  | openIo a b => exact absurd rfl (ho a b)
  | reset | seek | rdbit | decb | decu | decbuf => simp at hi
  | nop | wrbit | encb | encu | encbuf | getout a b | hash | lock | unlock => rw [h]

theorem Changes.writer (ho : ∀ a b, i ≠ .openIo a b) (hi : i ∉ [Instr.reset, .wrbit, .encb, .encu, .encbuf]) :
    u.wbits = s.wbits ∧ u.wacc = s.wacc ∧ u.outLen = s.outLen ∧ u.outCap = s.outCap := by
  cases i with
  | openIo a b => exact absurd rfl (ho a b)
  | reset | wrbit | encb | encu | encbuf => simp at hi
  | nop | seek | rdbit | decb | decu | decbuf | getout a b | hash | lock | unlock => rw [h]; exact ⟨rfl, rfl, rfl, rfl⟩

theorem Changes.inMem (ho : ∀ a, i ≠ .openIo a true) : u.inMem = s.inMem := by
  cases i with
  | openIo a b =>
    cases b with
    | true => exact absurd rfl (ho a)
    | false => exact h.2 rfl
  | reset => rw [h, resetAction_inMem]
  | nop | seek | wrbit | rdbit | encb | decb | encu | decu | encbuf | decbuf | getout a b | hash | lock | unlock => rw [h]

theorem Changes.outMem (hi : i ∉ [Instr.wrbit, .encb, .encu, .encbuf]) : u.outMem = s.outMem := by
  cases i with
  | wrbit | encb | encu | encbuf => simp at hi
  | reset => rw [h, resetAction_outMem]
  | openIo a b => rw [h.1]
  | nop | seek | rdbit | decb | decu | decbuf | getout a b | hash | lock | unlock => rw [h]

end

/-- Settles O49: no entry of the operand table is STATUS or FINFO, so the rule's changes are the command's. -/
theorem onlyListedCommandsWrite : Obligations.OnlyListedCommandsWrite := by
  intro i s t h
  obtain ⟨u, status, finfo, hu, rfl⟩ := exec_changes h
  exact ⟨hu.platform, hu.operands, hu.digest, hu.result, hu.staged, hu.reader, hu.cursor, hu.writer, hu.inMem, hu.outMem⟩

/-! ### What a fault records -/

/-- Settles O9: a rule leaves STATUS and FINFO alone, and what it raises is listed for its command. -/
theorem faultsRecordWordAndCode : Obligations.FaultsRecordWordAndCode := by
  intro i s t h hi
  rcases exec_next hi h with ⟨-, rfl⟩ | ⟨-, -, hc⟩ | ⟨hs, c, hmem, u, -, -, rfl⟩
  · exact .inl ⟨rfl, rfl⟩
  · exact .inl (hc.fault hi)
  · exact .inr ⟨hs, c, hmem, rfl, rfl⟩

end Sys2Proof.Machine
end

section
/-! PROOFS. The frames of the commands: what each leaves unchanged in registers and memory, where reads leave the cursor, and
the ranges of RESULT (30_encoding.md section 4; 10_state.md sections 3 and 5). -/

namespace Sys2Proof.Machine

/-! ### From a rule to its command -/

/-- What holds before a command and wherever its rule ends, and does not look at STATUS and FINFO, holds after it. -/
theorem exec_of_leaves {P : State → Prop} {i : Instr} {s t : State} (hi : i ≠ .reset) (h : exec i s = .next t) (hs : P s)
    (hrule : (ruleOf i s).Leaves P) (hfault : ∀ c u, P u → P (faultEntry c (encode i) u)) : P t := by
  rcases exec_next hi h with ⟨-, rfl⟩ | ⟨-, hr, -⟩ | ⟨-, c, -, u, hr, -, rfl⟩
  · exact hs
  · rwa [hr] at hrule
  · rw [hr] at hrule
    exact hfault c u hrule

/-- A command that ends in a state that is not halted was performed, and its rule completed. -/
theorem ruleOf_done_of_not_halted {i : Instr} {s t : State} (hi : i ≠ .reset) (h : exec i s = .next t) (ht : ¬ t.halted) :
    ruleOf i s = .done () t := by
  rcases exec_next hi h with ⟨hs, rfl⟩ | ⟨-, hr, -⟩ | ⟨-, c, -, u, -, -, rfl⟩
  · exact absurd hs ht
  · exact hr
  · exact absurd (faultEntry_halted c _ u) ht

theorem Run.Ends.leaves {α : Type} {P : State → Prop} {r : Run α} (h : r.Ends P) : r.Leaves P := by
  cases r with
  | done a s => exact h
  | raised c s => exact h
  | stray sp a => trivial

/-! ### SEEK, RDBIT, DECB and DECU -/

/-- A reading's cursor, RESULT and fault are all that it changes, so every byte of memory reads as before. -/
theorem readerFrame_fields {i : Instr} {s t : State} (hi : i ∈ [Instr.seek, .rdbit, .decb, .decu]) (h : exec i s = .next t) :
    t = { s with rcur := t.rcur, result := t.result, status := t.status, finfo := t.finfo } ∧
      (i = .seek → t.result = s.result) := by
  obtain ⟨u, status, finfo, hu, rfl⟩ := exec_changes h
  simp only [List.mem_cons, List.not_mem_nil, or_false] at hi
  rcases hi with rfl | rfl | rfl | rfl
  · rw [hu]; exact ⟨rfl, fun _ => rfl⟩
  all_goals rw [hu]; exact ⟨rfl, nofun⟩

theorem readingRule_cursor {i : Instr} {s : State} (hi : i ∈ [Instr.rdbit, .decb, .decu, .decbuf]) (h : CursorKept s) :
    (ruleOf i s).Leaves CursorKept := by
  simp only [List.mem_cons, List.not_mem_nil, or_false] at hi
  rcases hi with rfl | rfl | rfl | rfl
  · exact (readBit_cursor h).leaves.bind (fun _ hu => hu) fun _ _ _ hu => hu
  · exact (decBounded_cursor _ h).leaves.bind (fun _ hu => hu) fun _ _ _ hu => hu
  · exact (decUnbounded_cursor h).leaves.bind (fun _ hu => hu) fun _ _ _ hu => hu
  · refine (decUnbounded_cursor h).leaves.bind (fun _ hu => hu) fun n u _ hu => ?_
    split_ifs
    · exact hu
    · exact (decBytes_cursor n 0 hu).bind (fun _ hv => hv) fun _ _ _ hv => hv

/-- OPEN sets the cursor to its start: 0 dense, 1 strided (40_bitio.md R124). -/
theorem opened_cursorInBounds (strided : Bool) (len : Nat) (s : State) : (opened strided len s).CursorInBounds := by
  cases strided <;> simp [State.CursorInBounds, opened, bitWord]

theorem openRule_done {strided unwrap : Bool} {s t : State} (h : openRule strided unwrap s = .done () t) :
    ∃ len u, t = opened strided len u := by
  obtain ⟨n, u, -, h⟩ := Run.bind_eq_done.1 h
  obtain ⟨len, v, -, h⟩ := Run.bind_eq_done.1 h
  injection h with _ h
  exact ⟨len, v, h.symm⟩

/-- Settles O45: the changes of the four commands, the cursor over one read and so over all of them, and OPEN's start. -/
theorem readerFrame : Obligations.ReaderFrame := by
  refine ⟨fun i s t hi h => ?_, fun i s t hi hp hlen hc h => ?_, fun strided unwrap s t h ht => ?_⟩
  · obtain ⟨hfields, hresult⟩ := readerFrame_fields hi h
    exact ⟨hfields, hresult, fun sp a => by rw [hfields]; cases sp <;> rfl⟩
  · have hne : i ≠ .reset := by rintro rfl; simp at hi
    have hkept : CursorKept s := ⟨hp, hlen, hc⟩
    exact (exec_of_leaves hne h hkept (readingRule_cursor hi hkept) fun _ _ hu => hu).2.2
  · obtain ⟨len, u, rfl⟩ := openRule_done (ruleOf_done_of_not_halted (i := .openIo strided unwrap) nofun h ht)
    exact opened_cursorInBounds strided len u

/-! ### DECBUF -/

/-- Everything DECBUF's rule can do: the bytes of a length that fits are stored and the length recorded, or it raises with
only the cursor moved, or it leaves a memory. -/
theorem decbufRule_cases (s : State) :
    (∃ bytes c, bytes.length ≤ s.params.bufMax ∧
      decbufRule s = .done () { s with
        rcur := c, bufMem := Memory.writeList s.bufMem 0 bytes
        bufLen := BitVec.ofNat 32 bytes.length, result := BitVec.ofNat 32 bytes.length }) ∨
      (∃ code c, decbufRule s = .raised code (s.setRcur c)) ∨ ∃ sp a, decbufRule s = .stray sp a := by
  rw [decbufRule]
  rcases decUnbounded_reading s with ⟨n, c, h⟩ | ⟨c, h⟩ | ⟨a, h⟩ <;> rw [h]
  · by_cases hn : n > s.params.bufMax
    · exact .inr (.inl ⟨_, c, if_pos hn⟩)
    · rw [Run.bind_done, if_neg (show ¬ n > (s.setRcur c).params.bufMax from hn)]
      rcases decBytes_cases n 0 (s.setRcur c) with ⟨bytes, c', rfl, hb⟩ | ⟨sp, a, hb⟩ <;> rw [hb]
      · exact .inl ⟨bytes, c', by omega, rfl⟩
      · exact .inr (.inr ⟨sp, a, rfl⟩)
  · exact .inr (.inl ⟨_, c, rfl⟩)
  · exact .inr (.inr ⟨_, a, rfl⟩)

/-! ### The ranges of RESULT -/

theorem bitWord_le_one (b : Bool) : (bitWord b).toNat ≤ 1 := by cases b <;> decide

/-- Settles O42: a command that did not fault ran its rule to the end, and its last write is the decoder's value. -/
theorem decodedResultsInRange : Obligations.DecodedResultsInRange := by
  intro s t _ hp ht
  refine ⟨fun h => ?_, fun h => ?_, fun h => ?_, fun h => ?_⟩
  · obtain ⟨b, u, -, hu⟩ := Run.bind_eq_done.1 (ruleOf_done_of_not_halted (i := .rdbit) nofun h ht)
    injection hu with _ hu
    rw [← hu]
    exact bitWord_le_one b
  · obtain ⟨v, u, hv, hu⟩ := Run.bind_eq_done.1 (ruleOf_done_of_not_halted (i := .decb) nofun h ht)
    injection hu with _ hu
    rw [← hu]
    exact decBounded_le hv
  · obtain ⟨n, u, hn, hu⟩ := Run.bind_eq_done.1 (ruleOf_done_of_not_halted (i := .decu) nofun h ht)
    injection hu with _ hu
    have hrange := decUnbounded_range hn
    rw [← hu, State.setResult_result, BitVec.toNat_ofNat, Nat.mod_eq_of_lt (by omega)]
    exact hrange
  · have hrule : decbufRule s = .done () t := ruleOf_done_of_not_halted (i := .decbuf) nofun h ht
    rcases decbufRule_cases s with ⟨bytes, c, hfits, he⟩ | ⟨code, c, he⟩ | ⟨sp, a, he⟩ <;> rw [he] at hrule
    · injection hrule with _ hrule
      have hmax := Params.Legal.bufMax_lt hp
      rw [← hrule, BitVec.toNat_ofNat, Nat.mod_eq_of_lt (by omega)]
      exact ⟨hfits, rfl⟩
    · cases hrule
    · cases hrule

/-! ### WRBIT, ENCB, ENCU and ENCBUF -/

theorem wrote_nothing {s : State} (h : s.Inv) : Wrote [] s s :=
  ⟨h, by simp, rfl, .refl s, fun _ _ => rfl⟩

theorem writeBits_wrote {s : State} (h : s.Inv) (bits : List Bool) :
    (writeBits bits s).Ends fun u => ∃ written, Wrote written s u := by
  rcases writeBits_cases bits h with ⟨-, u, e, hw⟩ | ⟨-, u, e, hw⟩ <;> (rw [e]; exact ⟨_, hw⟩)

/-- From a state of the invariant the rule of a writing command wrote some bits, or none, wherever it ends. -/
theorem writingRule_wrote {i : Instr} {s : State} (h : s.Inv) (hi : i ∈ [Instr.wrbit, .encb, .encu, .encbuf]) :
    (ruleOf i s).Ends fun u => ∃ written, Wrote written s u := by
  simp only [List.mem_cons, List.not_mem_nil, or_false] at hi
  rcases hi with rfl | rfl | rfl | rfl
  · rw [ruleOf, wrbitRule]
    split_ifs
    · exact ⟨[], wrote_nothing h⟩
    · rcases writeBit_cases h (s.arg0.getLsbD 0) with ⟨-, e⟩ | ⟨-, u, e, hw⟩ <;> rw [e]
      · exact ⟨[], wrote_nothing h⟩
      · exact ⟨_, hw⟩
  · rw [ruleOf, encbRule]
    split_ifs
    · exact ⟨[], wrote_nothing h⟩
    · exact writeBits_wrote h _
  · rw [ruleOf, encuRule]
    split_ifs
    · exact ⟨[], wrote_nothing h⟩
    · exact writeBits_wrote h _
  · by_cases hlen : s.bufLen.toNat ≤ s.params.bufMax
    · rw [ruleOf, encbufRule_code hlen]
      exact writeBits_wrote h _
    · rw [ruleOf, encbufRule_exceeded (by omega)]
      exact ⟨[], wrote_nothing h⟩

/-- The frame of the writing commands: the writer and OUT_MEM from the old OUT_LEN to the new one, STATUS and FINFO. -/
def WriterFramed (s t : State) : Prop :=
  t = { s with
    wbits := t.wbits, wacc := t.wacc, outLen := t.outLen, outCap := t.outCap, outMem := t.outMem
    status := t.status, finfo := t.finfo } ∧
  s.outLen.toNat ≤ t.outLen.toNat ∧
  ∀ a, a < s.outLen.toNat ∨ t.outLen.toNat ≤ a → t.byteAt .out a = s.byteAt .out a

theorem Wrote.framed {bits : List Bool} {s t : State} (hs : s.Inv) (h : Wrote bits s t) : WriterFramed s t :=
  ⟨by rw [h.same], h.outLen hs, h.bytes⟩

/-- Settles O46: the bits written and CapacityExceeded keep the frame, and it holds the other memories. -/
theorem writerFrame : Obligations.WriterFrame := by
  intro i s t hinv hi h
  have hne : i ≠ .reset := by rintro rfl; simp at hi
  have hframe : WriterFramed s t := by
    refine exec_of_leaves hne h ((wrote_nothing hinv).framed hinv) ?_ fun c u hu => ⟨?_, hu.2⟩
    · exact ((writingRule_wrote hinv hi).mono fun u ⟨_, hw⟩ => hw.framed hinv).leaves
    · rw [hu.1]; rfl
  obtain ⟨hfields, hlen, hbytes⟩ := hframe
  exact ⟨hfields, hlen, hbytes, fun a => by rw [hfields]; exact ⟨rfl, rfl⟩⟩

/-! ### GETOUT, LOCK, UNLOCK and DECBUF -/

/-- A rule that delivers bytes in BUF_MEM from 0 with BUF_LEN their number, and that raises with BUF_MEM, BUF_LEN and
RESULT as they were. -/
def Delivers (s : State) : Run Unit → Prop
  | .done _ u => ∃ bytes : List Byte, bytes.length ≤ s.params.bufMax ∧
      u.bufMem = Memory.writeList s.bufMem 0 bytes ∧ u.bufLen = BitVec.ofNat 32 bytes.length
  | .raised _ u => u.bufMem = s.bufMem ∧ u.bufLen = s.bufLen ∧ u.result = s.result
  | .stray _ _ => True

theorem deliverStaged_delivers (bytes : List Byte) (s : State) : Delivers s (deliverStaged bytes s) := by
  rw [deliverStaged, memWrite]
  split_ifs with h
  · exact ⟨bytes, by simpa [Params.size] using h, rfl, rfl⟩
  · trivial

theorem getoutRule_delivers (trimz wrap : Bool) (s : State) : Delivers s (getoutRule trimz wrap s) := by
  by_cases h : s.outLen.toNat ≤ s.params.outMax
  · rw [getoutRule_inside trimz wrap h]
    split_ifs
    · exact ⟨rfl, rfl, rfl⟩
    · exact deliverStaged_delivers _ s
  · rw [getoutRule, materialize, memRead, if_neg (by simpa [Params.size] using h)]
    trivial

theorem lockRule_delivers (s : State) : Delivers s (lockRule s) := by
  by_cases h : s.bufLen.toNat + 32 ≤ s.params.bufMax
  · rw [lockRule_inside h]
    exact deliverStaged_delivers _ s
  · rw [lockRule_exceeded (by omega)]
    exact ⟨rfl, rfl, rfl⟩

theorem decbufRule_delivers (s : State) : Delivers s (decbufRule s) := by
  rcases decbufRule_cases s with ⟨bytes, c, hfits, h⟩ | ⟨code, c, h⟩ | ⟨sp, a, h⟩ <;> rw [h]
  · exact ⟨bytes, hfits, rfl, rfl⟩
  · exact ⟨rfl, rfl, rfl⟩
  · trivial

/-- A command that delivers bytes stores at most those below the new BUF_LEN, and none when it faults. -/
theorem exec_of_delivers {i : Instr} {s t : State} (hi : i ≠ .reset) (hp : s.params.Legal) (hd : Delivers s (ruleOf i s))
    (h : exec i s = .next t) :
    (t.status ≠ s.status → t.bufMem = s.bufMem ∧ t.bufLen = s.bufLen ∧ t.result = s.result) ∧
      ∀ a, t.bufLen.toNat ≤ a → t.byteAt .buf a = s.byteAt .buf a := by
  rcases exec_next hi h with ⟨-, rfl⟩ | ⟨-, hr, hc⟩ | ⟨-, c, -, u, hr, hc, rfl⟩
  · exact ⟨fun hne => absurd rfl hne, fun _ _ => rfl⟩
  · rw [hr] at hd
    obtain ⟨bytes, hfits, hmem, hlen⟩ := hd
    refine ⟨fun hne => absurd (hc.fault hi).1 hne, fun a ha => ?_⟩
    have hmax := Params.Legal.bufMax_lt hp
    rw [hlen, BitVec.toNat_ofNat, Nat.mod_eq_of_lt (by omega)] at ha
    rw [State.byteAt, State.byteAt, State.mem_buf, State.mem_buf, hmem, hc.platform.2.1,
      lookup_writeList_outside bytes (by omega)]
  · rw [hr] at hd
    exact ⟨fun _ => hd, fun a _ => byteAt_congr (sp := .buf) hd.1 hc.platform.2.1 a⟩

/-- Unwrapping in place leaves the last 32 of the wrapped bytes, and every byte above them. -/
theorem unwrapInPlace_keeps {sp : Space} {n : Nat} {s : State} (h : n ≤ s.params.size sp) :
    (unwrapInPlace sp n s).Leaves fun u => ∀ a, n - 32 ≤ a → u.byteAt sp a = s.byteAt sp a := by
  rcases unwrapInPlace_cases h with ⟨-, e⟩ | ⟨-, hlen, ⟨-, e⟩ | ⟨-, e⟩⟩ <;> rw [e]
  · exact fun _ _ => rfl
  all_goals exact fun a ha => byteAt_writeList_outside s sp _ (by omega)

theorem unlockRule_keeps (s : State) :
    (unlockRule s).Leaves fun u => ∀ a, s.bufLen.toNat - 32 ≤ a → u.byteAt .buf a = s.byteAt .buf a := by
  by_cases h : s.bufLen.toNat ≤ s.params.bufMax
  · rw [unlockRule_inside h]
    refine (unwrapInPlace_keeps (sp := .buf) h).bind (fun _ hu => hu) fun len u _ hu a ha => ?_
    rw [State.setBufLen_byteAt, hu a ha]
  · rw [unlockRule_exceeded (by omega)]
    exact fun _ _ => rfl

/-- GETOUT, LOCK and UNLOCK change BUF_MEM and BUF_LEN, and by a fault STATUS and FINFO. -/
theorem stagingFrame_fields {i : Instr} {s t : State} (hi : (∃ a b, i = .getout a b) ∨ i = .lock ∨ i = .unlock)
    (h : exec i s = .next t) :
    t = { s with bufMem := t.bufMem, bufLen := t.bufLen, status := t.status, finfo := t.finfo } := by
  obtain ⟨u, status, finfo, hu, rfl⟩ := exec_changes h
  rcases hi with ⟨a, b, rfl⟩ | rfl | rfl
  all_goals rw [hu]; rfl

theorem decbufFrame_fields {s t : State} (h : exec .decbuf s = .next t) :
    t = { s with
      rcur := t.rcur, result := t.result, bufMem := t.bufMem, bufLen := t.bufLen
      status := t.status, finfo := t.finfo } := by
  obtain ⟨u, status, finfo, hu, rfl⟩ := exec_changes h
  rw [hu]; rfl

/-- Settles O47: three of the commands deliver bytes, and UNLOCK unwraps them in place. -/
theorem stagingFrame : Obligations.StagingFrame := by
  intro i s t hp h
  refine ⟨fun hi => ?_, ?_, ?_⟩
  · have hd : i ≠ .reset ∧ Delivers s (ruleOf i s) := by
      rcases hi with ⟨a, b, rfl⟩ | rfl
      · exact ⟨nofun, getoutRule_delivers a b s⟩
      · exact ⟨nofun, lockRule_delivers s⟩
    obtain ⟨hfault, hbytes⟩ := exec_of_delivers hd.1 hp hd.2 h
    refine ⟨stagingFrame_fields (hi.imp_right .inl) h, fun hne => ?_, hbytes⟩
    obtain ⟨hmem, hlen, -⟩ := hfault hne
    exact ⟨hmem, hlen⟩
  · rintro rfl
    exact ⟨stagingFrame_fields (.inr (.inr rfl)) h,
      exec_of_leaves (i := .unlock) nofun h (fun _ _ => rfl) (unlockRule_keeps s) fun c u hu a ha => by
        rw [faultEntry_byteAt, hu a ha]⟩
  · rintro rfl
    exact ⟨decbufFrame_fields h, exec_of_delivers (i := .decbuf) nofun hp (decbufRule_delivers s) h⟩

/-! ### OPEN and HASH -/

theorem openRule_keeps (strided unwrap : Bool) (s : State) :
    (openRule strided unwrap s).Leaves fun u => ∀ a, s.inLen.toNat - 32 ≤ a → u.byteAt .inp a = s.byteAt .inp a := by
  by_cases h : s.inLen.toNat ≤ s.params.inMax
  · cases unwrap with
    | false => rw [openRule_plain strided h]; exact fun _ _ => rfl
    | true =>
      rw [openRule_unwrap strided h]
      exact (unwrapInPlace_keeps (sp := .inp) h).bind (fun _ hu => hu) fun len u _ hu a ha => hu a ha
  · rw [openRule_exceeded strided unwrap (by omega)]
    exact fun _ _ => rfl

/-- OPEN changes the reader, the writer's registers, with UNLOCK IN_MEM, and by a fault STATUS and FINFO. -/
theorem openFrame_fields {strided unwrap : Bool} {s t : State} (h : exec (.openIo strided unwrap) s = .next t) :
    t = { s with
      inMem := t.inMem, mode := t.mode, rlen := t.rlen, rcur := t.rcur
      wbits := t.wbits, wacc := t.wacc, outLen := t.outLen, outCap := t.outCap
      status := t.status, finfo := t.finfo } ∧
      (unwrap = false → t.inMem = s.inMem) := by
  obtain ⟨u, status, finfo, ⟨hu, hmem⟩, rfl⟩ := exec_changes h
  exact ⟨by rw [hu]; rfl, hmem⟩

/-- Settles O48: the changes of OPEN and HASH, and where unwrapping in place stores. -/
theorem openAndHashFrame : Obligations.OpenAndHashFrame := by
  intro s t strided unwrap
  refine ⟨fun h => ?_, fun h => ?_⟩
  · obtain ⟨hfields, hmem⟩ := openFrame_fields h
    refine ⟨hfields, hmem, ?_, fun a => by rw [hfields]; exact ⟨rfl, rfl⟩⟩
    exact exec_of_leaves (i := .openIo strided unwrap) nofun h (fun _ _ => rfl) (openRule_keeps strided unwrap s)
      fun c u hu a ha => by rw [faultEntry_byteAt, hu a ha]
  · obtain ⟨u, status, finfo, hu, rfl⟩ := exec_changes h
    rw [hu]
    exact ⟨rfl, fun sp a => by cases sp <;> rfl⟩

end Sys2Proof.Machine
end

section
/-! PROOFS. What no result depends on: OUT_CAP (10_state.md R37) and the power-on contents of the memories
(70_reset_and_hazards.md R292). Both statements are one simulation, between a state and the same state with another OUT_CAP
and another draw, over rules that read the same bytes in both. -/

namespace Sys2Proof.Machine

/-! ### Two runs side by side -/

/-- Wherever the first run ends, the second ends in the same way, with the same value or fault, in a related state. -/
def Run.Sim {α : Type} (R : State → State → Prop) : Run α → Run α → Prop
  | .done a s, .done b t => a = b ∧ R s t
  | .raised c s, .raised d t => c = d ∧ R s t
  | .stray _ _, _ => True
  | _, _ => False

theorem Run.Sim.bind {α β : Type} {R Q : State → State → Prop} {r r' : Run α} {f g : α → State → Run β}
    (h : r.Sim R r') (hR : ∀ s t, R s t → Q s t) (hf : ∀ a s t, r = .done a s → R s t → (f a s).Sim Q (g a t)) :
    (r.bind f).Sim Q (r'.bind g) := by
  cases r with
  | stray sp a => trivial
  | done a s =>
    cases r' with
    | done b t =>
      obtain ⟨rfl, hst⟩ := h
      exact hf a s t rfl hst
    | raised c t => exact h.elim
    | stray sp x => exact h.elim
  | raised c s =>
    cases r' with
    | raised d t => exact ⟨h.1, hR s t h.2⟩
    | done b t => exact h.elim
    | stray sp x => exact h.elim

/-! ### Another OUT_CAP and another draw -/

/-- The state with another OUT_CAP and another draw of the power-on contents. -/
def State.vary (s : State) (k : Word) (n : Nat) : State := { s with outCap := k, powerCycles := n }

/-- The second state is the first with draw `n` and another OUT_CAP, which is the first's own if `same` holds. -/
def Varies (same : Prop) (n : Nat) (s t : State) : Prop := ∃ k, (same → k = s.outCap) ∧ t = s.vary k n

/-- Draw `n` gives the first `len` bytes of a memory the values they have. -/
def Agrees (n : Nat) (s : State) (sp : Space) (len : Nat) : Prop :=
  ∀ a < len, (s.vary s.outCap n).byteAt sp a = s.byteAt sp a

/-- Varied states whose reader reads the same input in both. -/
def VariesReading (same : Prop) (n : Nat) (s t : State) : Prop := Varies same n s t ∧ Agrees n s .inp s.rlen.toNat

@[simp] theorem vary_mem (s : State) (k : Word) (n : Nat) (sp : Space) : (s.vary k n).mem sp = s.mem sp := by
  cases sp <;> rfl

section
variable {same : Prop} {n : Nat} {s t : State}

section
variable (h : Varies same n s t)
include h

theorem Varies.params : t.params = s.params := by obtain ⟨k, -, rfl⟩ := h; rfl
theorem Varies.arg0 : t.arg0 = s.arg0 := by obtain ⟨k, -, rfl⟩ := h; rfl
theorem Varies.arg1 : t.arg1 = s.arg1 := by obtain ⟨k, -, rfl⟩ := h; rfl
theorem Varies.inLen : t.inLen = s.inLen := by obtain ⟨k, -, rfl⟩ := h; rfl
theorem Varies.bufLen : t.bufLen = s.bufLen := by obtain ⟨k, -, rfl⟩ := h; rfl
theorem Varies.rcur : t.rcur = s.rcur := by obtain ⟨k, -, rfl⟩ := h; rfl
theorem Varies.strided : t.strided = s.strided := by obtain ⟨k, -, rfl⟩ := h; rfl
theorem Varies.readLimit : readLimit t = Machine.readLimit s := by obtain ⟨k, -, rfl⟩ := h; rfl
theorem Varies.wbits : t.wbits = s.wbits := by obtain ⟨k, -, rfl⟩ := h; rfl
theorem Varies.wacc : t.wacc = s.wacc := by obtain ⟨k, -, rfl⟩ := h; rfl
theorem Varies.outLen : t.outLen = s.outLen := by obtain ⟨k, -, rfl⟩ := h; rfl
theorem Varies.partialByte : partialByte t = Machine.partialByte s := by obtain ⟨k, -, rfl⟩ := h; rfl
theorem Varies.halted : t.halted ↔ s.halted := by obtain ⟨k, -, rfl⟩ := h; rfl
theorem Varies.outCap (hs : same) : t.outCap = s.outCap := by obtain ⟨k, hk, rfl⟩ := h; exact hk hs
theorem Varies.mem (sp : Space) : t.mem sp = s.mem sp := by obtain ⟨k, -, rfl⟩ := h; exact vary_mem s k n sp

theorem Agrees.byteAt {sp : Space} {len a : Nat} (ha : Agrees n s sp len) (hlt : a < len) :
    t.byteAt sp a = s.byteAt sp a := by
  refine Eq.trans ?_ (ha a hlt)
  obtain ⟨k, -, rfl⟩ := h
  exact byteAt_congr (by simp) rfl a

theorem Agrees.bytesAt {sp : Space} {len : Nat} (ha : Agrees n s sp len) : t.bytesAt sp 0 len = s.bytesAt sp 0 len :=
  bytesAt_eq_of fun i hi => by rw [Nat.zero_add]; exact Agrees.byteAt h ha hi

end

/-- With the same draw every byte has the value it has. -/
theorem agrees_powerCycles (s : State) (sp : Space) (len : Nat) : Agrees s.powerCycles s sp len := fun _ _ => rfl

/-- A byte that has been written has its value whatever the draw. -/
theorem agrees_of_written {sp : Space} {len : Nat} (h : ∀ a < len, (Memory.lookup (s.mem sp) a).isSome = true) :
    Agrees n s sp len := by
  intro a ha
  obtain ⟨b, hb⟩ := Option.isSome_iff_exists.1 (h a ha)
  rw [State.byteAt, State.byteAt, vary_mem, hb]

/-! ### The pieces -/

/-- An update that neither reads nor writes OUT_CAP and the draw keeps the two states alike. -/
theorem Varies.map (h : Varies same n s t) (f : State → State) (hf : ∀ k, f (s.vary k n) = (f s).vary k n)
    (hcap : (f s).outCap = s.outCap) : Varies same n (f s) (f t) := by
  obtain ⟨k, hk, rfl⟩ := h
  exact ⟨k, fun hs => (hk hs).trans hcap.symm, hf k⟩

theorem Varies.done {α : Type} {a : α} (h : Varies same n s t) : (Run.done a s).Sim (Varies same n) (.done a t) := ⟨rfl, h⟩

theorem Varies.raised {α : Type} {c : FaultCode} (h : Varies same n s t) :
    (Run.raised c s : Run α).Sim (Varies same n) (.raised c t) := ⟨rfl, h⟩

theorem setMem_varies (h : Varies same n s t) (sp : Space) (m : Memory) : Varies same n (s.setMem sp m) (t.setMem sp m) := by
  obtain ⟨k, hk, rfl⟩ := h
  cases sp <;> exact ⟨k, hk, rfl⟩

theorem memRead_varies {sp : Space} {len : Nat} (h : Varies same n s t) (ha : Agrees n s sp len) :
    (memRead sp 0 len s).Sim (Varies same n) (memRead sp 0 len t) := by
  unfold memRead
  rw [h.params, Agrees.bytesAt h ha]
  split_ifs
  · exact h.done
  · trivial

theorem memWrite_varies (h : Varies same n s t) (sp : Space) (a : Nat) (bs : List Byte) :
    (memWrite sp a bs s).Sim (Varies same n) (memWrite sp a bs t) := by
  unfold memWrite
  rw [h.params, h.mem]
  split_ifs
  · exact (setMem_varies h sp _).done
  · trivial

theorem engineWrite_varies (h : Varies same n s t) (sp : Space) (a : Nat) (b : Byte) :
    (engineWrite sp a b s).Sim (Varies same n) (engineWrite sp a b t) := by
  unfold engineWrite
  rw [h.params, h.mem]
  split_ifs
  · exact (setMem_varies h sp _).done
  · trivial

/-! ### Reading -/

theorem setRcur_varies (h : VariesReading same n s t) (c : Word) : VariesReading same n (s.setRcur c) (t.setRcur c) :=
  ⟨h.1.map (·.setRcur c) (fun _ => rfl) rfl, h.2⟩

theorem readBit_varies (h : VariesReading same n s t) : (readBit s).Sim (VariesReading same n) (readBit t) := by
  unfold readBit engineRead
  simp only []
  rw [h.1.readLimit, h.1.strided, h.1.rcur, h.1.params]
  by_cases hend : readLimit s ≤ s.rcur.toNat
  · rw [if_pos hend, if_pos hend]
    exact ⟨rfl, h⟩
  rw [if_neg hend, if_neg hend]
  unfold readLimit at hend
  by_cases hd : s.strided = false
  · rw [if_neg (by simp [hd])] at hend
    rw [if_pos hd, if_pos hd, Agrees.byteAt h.1 h.2 (a := s.rcur.toNat / 8) (by omega)]
    split_ifs
    · exact ⟨rfl, setRcur_varies h _⟩
    · trivial
  · rw [if_pos (by simpa using hd)] at hend
    rw [if_neg hd, if_neg hd, Agrees.byteAt h.1 h.2 (a := s.rcur.toNat / 16) (by omega)]
    split_ifs
    · exact ⟨rfl, setRcur_varies h _⟩
    · exact ⟨rfl, setRcur_varies h _⟩
    · trivial

theorem decBoundedFrom_varies (max : Word) : ∀ (i : Nat) (tied : Bool) (v : Word) {s t : State}, VariesReading same n s t →
    (decBoundedFrom max i tied v s).Sim (VariesReading same n) (decBoundedFrom max i tied v t)
  | 0, _, _, _, _, h => ⟨rfl, h⟩
  | i + 1, tied, v, s, t, h => by
    rw [decBoundedFrom, decBoundedFrom]
    split_ifs
    · exact (readBit_varies h).bind (fun _ _ hu => hu) fun b _ _ _ hu => decBoundedFrom_varies max i _ _ hu
    · exact decBoundedFrom_varies max i _ _ h

theorem decBounded_varies (max : Word) (h : VariesReading same n s t) :
    (decBounded max s).Sim (VariesReading same n) (decBounded max t) := by
  unfold decBounded
  split_ifs
  · exact ⟨rfl, h⟩
  · exact decBoundedFrom_varies max _ _ _ h

theorem decUnboundedLoop_varies : ∀ (room v k : Nat) {s t : State}, VariesReading same n s t →
    (decUnboundedLoop room v k s).Sim (VariesReading same n) (decUnboundedLoop room v k t)
  | 0, v, k, s, t, h => by
    rw [decUnboundedLoop, decUnboundedLoop]
    refine (readBit_varies h).bind (fun _ _ hu => hu) fun b _ _ _ hu => ?_
    split_ifs <;> exact ⟨rfl, hu⟩
  | room + 1, v, k, s, t, h => by
    rw [decUnboundedLoop, decUnboundedLoop]
    refine (readBit_varies h).bind (fun _ _ hu => hu) fun b _ _ _ hu => ?_
    split_ifs
    · exact ⟨rfl, hu⟩
    · exact (readBit_varies hu).bind (fun _ _ hv => hv) fun b _ _ _ hv => decUnboundedLoop_varies room _ _ hv

theorem decUnbounded_varies (h : VariesReading same n s t) :
    (decUnbounded s).Sim (VariesReading same n) (decUnbounded t) := by
  refine (decUnboundedLoop_varies 31 0 0 h).bind (fun _ _ hu => hu) fun vk _ _ _ hu => ?_
  split_ifs <;> exact ⟨rfl, hu⟩

/-- Storing in BUF_MEM leaves the input that the reader reads. -/
theorem engineWrite_buf_varies (h : VariesReading same n s t) (a : Nat) (b : Byte) :
    (engineWrite .buf a b s).Sim (VariesReading same n) (engineWrite .buf a b t) := by
  unfold engineWrite
  rw [h.1.params, h.1.mem]
  split_ifs
  · exact ⟨rfl, setMem_varies h.1 .buf _, h.2⟩
  · trivial

theorem decBytes_varies : ∀ (len i : Nat) {s t : State}, VariesReading same n s t →
    (decBytes len i s).Sim (VariesReading same n) (decBytes len i t)
  | 0, _, _, _, h => ⟨rfl, h⟩
  | len + 1, i, s, t, h => by
    rw [decBytes, decBytes]
    refine (decBounded_varies 255 h).bind (fun _ _ hu => hu) fun v _ _ _ hu => ?_
    exact (engineWrite_buf_varies hu i _).bind (fun _ _ hw => hw) fun _ _ _ _ hw => decBytes_varies len (i + 1) hw

/-! ### Writing -/

/-- The writer's registers are written from equal values but for OUT_CAP, which only its own next value depends on. -/
theorem setWriter_varies (h : Varies same n s t) (a b c : Word) {d d' : Word} (hd : same → d' = d) :
    Varies same n (s.setWriter a b c d) (t.setWriter a b c d') := by
  obtain ⟨k, -, rfl⟩ := h
  exact ⟨d', hd, rfl⟩

theorem grownCap_varies (h : Varies same n s t) (hs : same) : grownCap t = grownCap s := by
  rw [grownCap, grownCap, h.outCap hs, h.outLen, h.params]

theorem writeBit_varies (h : Varies same n s t) (b : Bool) : (writeBit b s).Sim (Varies same n) (writeBit b t) := by
  unfold writeBit
  simp only []
  rw [h.wbits, h.wacc, h.outLen, h.params]
  split_ifs
  · exact h.raised
  · exact (engineWrite_varies h .out _ _).bind (fun _ _ hu => hu) fun _ _ _ _ hu =>
      (setWriter_varies hu _ _ _ (grownCap_varies h)).done
  · exact (setWriter_varies h _ _ _ h.outCap).done

theorem writeBits_varies : ∀ (bits : List Bool) {s t : State}, Varies same n s t →
    (writeBits bits s).Sim (Varies same n) (writeBits bits t)
  | [], _, _, h => h.done
  | b :: bits, s, t, h => by
    rw [writeBits, writeBits]
    exact (writeBit_varies h b).bind (fun _ _ hu => hu) fun _ _ _ _ hu => writeBits_varies bits hu

/-! ### Staged bytes and unwrapping -/

theorem setBufLen_varies (h : Varies same n s t) (v : Word) : Varies same n (s.setBufLen v) (t.setBufLen v) :=
  h.map (·.setBufLen v) (fun _ => rfl) rfl

theorem setResult_varies (h : Varies same n s t) (v : Word) : Varies same n (s.setResult v) (t.setResult v) :=
  h.map (·.setResult v) (fun _ => rfl) rfl

theorem setDigest_varies (h : Varies same n s t) (d : Digest) : Varies same n (s.setDigest d) (t.setDigest d) :=
  h.map (·.setDigest d) (fun _ => rfl) rfl

theorem deliverStaged_varies (h : Varies same n s t) (bytes : List Byte) :
    (deliverStaged bytes s).Sim (Varies same n) (deliverStaged bytes t) :=
  (memWrite_varies h _ _ _).bind (fun _ _ hu => hu) fun _ _ _ _ hu => (setBufLen_varies hu _).done

theorem unwrapInPlace_varies {sp : Space} {len : Nat} (h : Varies same n s t) (ha : Agrees n s sp len) :
    (unwrapInPlace sp len s).Sim (Varies same n) (unwrapInPlace sp len t) := by
  unfold unwrapInPlace
  split_ifs
  · exact h.raised
  refine (memRead_varies h ha).bind (fun _ _ hu => hu) fun c _ _ _ hu => ?_
  refine (memWrite_varies hu _ _ _).bind (fun _ _ hv => hv) fun _ _ _ _ hv => ?_
  split_ifs
  · exact hv.raised
  · exact hv.done

theorem opened_varies (h : Varies same n s t) (strided : Bool) (len : Nat) :
    Varies same n (opened strided len s) (opened strided len t) := by
  obtain ⟨k, -, rfl⟩ := h
  exact ⟨_, fun _ => rfl, rfl⟩

end

/-! ### The rules -/

/-- Draw `n` gives every byte that IN_LEN, RLEN, BUF_LEN and OUT_LEN name the value it has. -/
structure NamedAgree (n : Nat) (s : State) : Prop where
  input : Agrees n s .inp s.inLen.toNat
  reader : Agrees n s .inp s.rlen.toNat
  staged : Agrees n s .buf s.bufLen.toNat
  output : Agrees n s .out s.outLen.toNat

section
variable {same : Prop} {n : Nat} {s t : State}

theorem inputLength_varies (h : Varies same n s t) : (inputLength s).Sim (Varies same n) (inputLength t) := by
  unfold inputLength
  rw [h.inLen, h.params]
  split_ifs
  · exact h.raised
  · exact h.done

theorem stagedLength_varies (h : Varies same n s t) : (stagedLength s).Sim (Varies same n) (stagedLength t) := by
  unfold stagedLength
  rw [h.bufLen, h.params]
  split_ifs
  · exact h.raised
  · exact h.done

theorem inputLength_done {len : Nat} {u : State} (h : inputLength s = .done len u) : len = s.inLen.toNat ∧ u = s := by
  rcases inputLength_cases s with ⟨-, e⟩ | ⟨-, e⟩ <;> rw [e] at h
  · cases h
  · cases h; exact ⟨rfl, rfl⟩

theorem stagedLength_done {len : Nat} {u : State} (h : stagedLength s = .done len u) : len = s.bufLen.toNat ∧ u = s := by
  rcases stagedLength_cases s with ⟨-, e⟩ | ⟨-, e⟩ <;> rw [e] at h
  · cases h
  · cases h; exact ⟨rfl, rfl⟩

theorem materialize_varies (h : Varies same n s t) (ha : NamedAgree n s) :
    (materialize s).Sim (Varies same n) (materialize t) := by
  unfold materialize
  rw [h.outLen]
  refine (memRead_varies h ha.output).bind (fun _ _ hu => hu) fun bytes u v _ hu => ?_
  rw [hu.partialByte]
  exact hu.done

theorem getoutRule_varies (h : Varies same n s t) (ha : NamedAgree n s) (trimz wrap : Bool) :
    (getoutRule trimz wrap s).Sim (Varies same n) (getoutRule trimz wrap t) := by
  refine (materialize_varies h ha).bind (fun _ _ hu => hu) fun bytes u v _ hu => ?_
  rw [hu.params]
  by_cases hfits : (if trimz then trimZeros bytes else bytes).length + (if wrap then 32 else 0) > u.params.bufMax
  · rw [if_pos hfits, if_pos hfits]; exact hu.raised
  · rw [if_neg hfits, if_neg hfits]; exact deliverStaged_varies hu _

/-- The rule of every command ends alike in varied states whose named bytes agree. -/
theorem ruleOf_varies (i : Instr) (h : Varies same n s t) (ha : NamedAgree n s) :
    (ruleOf i s).Sim (Varies same n) (ruleOf i t) := by
  have hreading : VariesReading same n s t := ⟨h, ha.reader⟩
  cases i with
  | nop => exact h.done
  | reset =>
    obtain ⟨k, -, rfl⟩ := h
    exact ⟨rfl, _, fun _ => rfl, rfl⟩
  | openIo strided unwrap =>
    refine (inputLength_varies h).bind (fun _ _ hu => hu) fun len u _ hlen hu => ?_
    obtain ⟨rfl, rfl⟩ := inputLength_done hlen
    cases unwrap with
    | false => exact (opened_varies hu strided _).done
    | true =>
      exact (unwrapInPlace_varies hu ha.input).bind (fun _ _ hv => hv) fun len _ _ _ hv =>
        (opened_varies hv strided len).done
  | seek =>
    exact (h.map (fun u => u.setRcur u.arg0) (fun _ => rfl) rfl).done
  | wrbit =>
    simp only [ruleOf, wrbitRule]
    rw [h.arg0]
    split_ifs
    · exact h.raised
    · exact writeBit_varies h _
  | rdbit =>
    exact (readBit_varies hreading).bind (fun _ _ hu => hu.1) fun _ _ _ _ hu => (setResult_varies hu.1 _).done
  | encb =>
    simp only [ruleOf, encbRule]
    rw [h.arg0, h.arg1]
    split_ifs
    · exact h.raised
    · exact writeBits_varies _ h
  | decb =>
    simp only [ruleOf, decbRule]
    rw [h.arg1]
    exact (decBounded_varies s.arg1 hreading).bind (fun _ _ hu => hu.1) fun _ _ _ _ hu => (setResult_varies hu.1 _).done
  | encu =>
    simp only [ruleOf, encuRule]
    rw [h.arg0]
    split_ifs
    · exact h.raised
    · exact writeBits_varies _ h
  | decu =>
    exact (decUnbounded_varies hreading).bind (fun _ _ hu => hu.1) fun _ _ _ _ hu => (setResult_varies hu.1 _).done
  | encbuf =>
    refine (stagedLength_varies h).bind (fun _ _ hu => hu) fun len u _ hlen hu => ?_
    obtain ⟨rfl, rfl⟩ := stagedLength_done hlen
    exact (memRead_varies hu ha.staged).bind (fun _ _ hv => hv) fun bytes _ _ _ hv => writeBits_varies _ hv
  | decbuf =>
    refine (decUnbounded_varies hreading).bind (fun _ _ hu => hu.1) fun len u v _ hu => ?_
    rw [hu.1.params]
    split_ifs
    · exact hu.1.raised
    · exact (decBytes_varies len 0 hu).bind (fun _ _ hv => hv.1) fun _ _ _ _ hv =>
        (setResult_varies (setBufLen_varies hv.1 _) _).done
  | getout trimz wrap => exact getoutRule_varies h ha trimz wrap
  | hash =>
    refine (stagedLength_varies h).bind (fun _ _ hu => hu) fun len u _ hlen hu => ?_
    obtain ⟨rfl, rfl⟩ := stagedLength_done hlen
    exact (memRead_varies hu ha.staged).bind (fun _ _ hv => hv) fun m _ _ _ hv => (setDigest_varies hv _).done
  | lock =>
    simp only [ruleOf, lockRule]
    rw [h.bufLen, h.params]
    split_ifs
    · exact h.raised
    · exact (memRead_varies h ha.staged).bind (fun _ _ hv => hv) fun p _ _ _ hv => deliverStaged_varies hv _
  | unlock =>
    refine (stagedLength_varies h).bind (fun _ _ hu => hu) fun len u _ hlen hu => ?_
    obtain ⟨rfl, rfl⟩ := stagedLength_done hlen
    exact (unwrapInPlace_varies hu ha.staged).bind (fun _ _ hv => hv) fun len _ _ _ hv => (setBufLen_varies hv _).done

theorem faultEntry_varies (h : Varies same n s t) (c : FaultCode) (w : Word) :
    Varies same n (faultEntry c w s) (faultEntry c w t) :=
  h.map (faultEntry c w) (fun _ => rfl) rfl

/-- Every command ends alike in varied states whose named bytes agree. -/
theorem exec_varies {i : Instr} {s' : State} (h : Varies same n s t) (ha : NamedAgree n s) (he : exec i s = .next s') :
    ∃ t', exec i t = .next t' ∧ Varies same n s' t' := by
  have hsim := ruleOf_varies i h ha
  by_cases hi : i = .reset
  · subst hi
    injection he with he
    exact ⟨_, rfl, he ▸ hsim.2⟩
  rcases exec_next hi he with ⟨hs, rfl⟩ | ⟨hs, hr, -⟩ | ⟨hs, c, -, u, hr, -, rfl⟩
  · exact ⟨t, exec_of_halted hi (h.halted.2 hs), h⟩
  · rw [hr] at hsim
    cases hr' : ruleOf i t with
    | done a v => rw [hr'] at hsim; exact ⟨v, exec_of_done i hi (mt h.halted.1 hs) hr', hsim.2⟩
    | raised d v => rw [hr'] at hsim; exact hsim.elim
    | stray sp a => rw [hr'] at hsim; exact hsim.elim
  · rw [hr] at hsim
    cases hr' : ruleOf i t with
    | raised d v =>
      rw [hr'] at hsim
      obtain ⟨rfl, huv⟩ := hsim
      exact ⟨_, exec_of_raised i hi (mt h.halted.1 hs) hr', faultEntry_varies huv c _⟩
    | done a v => rw [hr'] at hsim; exact hsim.elim
    | stray sp a => rw [hr'] at hsim; exact hsim.elim

end

/-- Settles O59: the simulation with the same draw, where every byte agrees. -/
theorem outCapNeverMatters : Obligations.OutCapNeverMatters := by
  intro i s t k h
  have hagree : NamedAgree s.powerCycles s :=
    ⟨agrees_powerCycles s _ _, agrees_powerCycles s _ _, agrees_powerCycles s _ _, agrees_powerCycles s _ _⟩
  obtain ⟨t', ht', k', -, rfl⟩ := exec_varies (same := False) ⟨k, False.elim, rfl⟩ hagree h
  obtain ⟨⟨-, hcycles, -, -⟩, -⟩ := onlyListedCommandsWrite i s t h
  exact ⟨k', ht'.trans (by rw [State.vary, ← hcycles])⟩

/-- Settles O60: the simulation with the same OUT_CAP, where every named byte has been written and so agrees. -/
theorem powerOnContentsNeverMatter : Obligations.PowerOnContentsNeverMatter := by
  intro i s t n hin hbuf hout h
  have hagree : NamedAgree n s :=
    ⟨agrees_of_written fun a ha => hin a (.inl ha), agrees_of_written fun a ha => hin a (.inr ha),
      agrees_of_written hbuf, agrees_of_written hout⟩
  obtain ⟨t', ht', k', hk', rfl⟩ := exec_varies (same := True) ⟨s.outCap, fun _ => rfl, rfl⟩ hagree h
  rw [hk' trivial] at ht'
  exact ht'

end Sys2Proof.Machine
end

section
/-! PROOFS. The bounded and the unbounded code: DECB's answers, the round trips, the positions that the bounded code writes,
and the number of bits of both codes (43_codec.md R210 to R219). -/

namespace Sys2Proof.Machine

/-! ### DECB and DECU -/

/-- DECB ends with the decoder's value and cursor. -/
theorem exec_decb_of_done {s t : State} {v : Word} (hs : ¬ s.halted) (h : decBounded s.arg1 s = .done v t) :
    exec .decb s = .next (t.setResult v) :=
  exec_of_done .decb nofun hs (by rw [ruleOf, decbRule, h, Run.bind_done])

/-- Over an exhausted input the decoder reads zero bits, so a value without bits gains none. -/
theorem decBoundedFrom_exhausted (max : Word) {s : State} (h : readLimit s ≤ s.rcur.toNat) :
    ∀ (n : Nat) (tied : Bool), decBoundedFrom max n tied 0 s = .done 0 s
  | 0, _ => rfl
  | n + 1, tied => by
    have hread : readBit s = .done false s := if_pos h
    rw [decBoundedFrom, hread, Run.bind_done, decBoundedFrom_exhausted max h n tied]
    have hzero : (0 : Word) ||| (bitWord false <<< n) = 0 := by simp [bitWord]
    rw [hzero, decBoundedFrom_exhausted max h n]
    exact ite_self _

theorem decBounded_exhausted (max : Word) {s : State} (h : readLimit s ≤ s.rcur.toNat) :
    decBounded max s = .done 0 s := by
  rw [decBounded, decBoundedFrom_exhausted max h]
  exact ite_self _

/-- Settles O20: the decoder inside IN_MEM moves only the cursor and its value is at most the bound. -/
theorem decbCompletes : Obligations.DecbCompletes := by
  intro s hs hlen
  refine ⟨?_, fun h0 => exec_decb_of_done hs (if_pos h0), fun hend => exec_decb_of_done hs (decBounded_exhausted _ hend)⟩
  obtain ⟨v, c, h⟩ := decBounded_inside s.arg1 hlen
  exact ⟨v, c, h, exec_decb_of_done hs h, decBounded_le h⟩

/-- Settles O21: the decoder over the encoder's bits gives num, and DECB stores it. -/
theorem boundedRoundTrip : Obligations.BoundedRoundTrip := fun _ _ _ hs hle h =>
  exec_decb_of_done hs (decBounded_bits hle h)

/-- Settles O23: the decoder over the encoder's bits gives n, and DECU stores it. -/
theorem unboundedRoundTrip : Obligations.UnboundedRoundTrip := fun _ _ _ hs hn h =>
  exec_of_done .decu nofun hs (decuRule_done (decUnbounded_bits hn h))

/-! ### The positions of the bounded code -/

/-- Some position from `i` up, below `top`, has a 1 in max and a 0 in num: num has dropped below max (43_codec.md R211). -/
def droppedFrom (num max : Word) (top i : Nat) : Bool :=
  (List.range top).any fun j => decide (i ≤ j) && max.getLsbD j && !num.getLsbD j

theorem droppedFrom_iff {num max : Word} {top i : Nat} :
    droppedFrom num max top i = true ↔ ∃ j < top, i ≤ j ∧ max.getLsbD j = true ∧ num.getLsbD j = false := by
  simp [droppedFrom, and_assoc]

theorem droppedFrom_step {num max : Word} {top i : Nat} (hi : i < top) :
    droppedFrom num max top i = (droppedFrom num max top (i + 1) || (max.getLsbD i && !num.getLsbD i)) := by
  rw [Bool.eq_iff_iff, Bool.or_eq_true, droppedFrom_iff, droppedFrom_iff]
  constructor
  · rintro ⟨j, hj, hij, hm, hn⟩
    rcases Nat.eq_or_lt_of_le hij with rfl | hlt
    · exact .inr (by simp [hm, hn])
    · exact .inl ⟨j, hj, hlt, hm, hn⟩
  · rintro (⟨j, hj, hij, hm, hn⟩ | h)
    · exact ⟨j, hj, by omega, hm, hn⟩
    · exact ⟨i, hi, le_rfl, by simpa using h⟩

/-- The scan from position `n` down writes num's bit where max has a 1 or num has dropped below max above. -/
theorem boundedBitsFrom_eq (num max : Word) (top : Nat) : ∀ n ≤ top,
    boundedBitsFrom num max n (!droppedFrom num max top n) =
      ((List.range n).reverse.filter fun i => max.getLsbD i || droppedFrom num max top (i + 1)).map fun i => num.getLsbD i
  | 0, _ => rfl
  | n + 1, h => by
    have ih := boundedBitsFrom_eq num max top n (by omega)
    have htied : stillTied (!droppedFrom num max top (n + 1)) max n (num.getLsbD n) = !droppedFrom num max top n := by
      rw [droppedFrom_step (i := n) (by omega), stillTied, Bool.not_or]
    rw [boundedBitsFrom, List.range_succ, List.reverse_append, List.reverse_singleton, List.singleton_append,
      List.filter_cons, htied, ih]
    by_cases hwrites : (max.getLsbD n || droppedFrom num max top (n + 1)) = true
    · rw [if_pos (by simpa [or_comm] using hwrites), if_pos hwrites, List.map_cons]
    · have hkeeps : droppedFrom num max top n = droppedFrom num max top (n + 1) := by
        rw [Bool.or_eq_true, not_or, Bool.not_eq_true] at hwrites
        rw [droppedFrom_step (i := n) (by omega), hwrites.1, Bool.false_and, Bool.or_false]
      rw [if_neg (by simpa [or_comm] using hwrites), if_neg hwrites, ← hkeeps, ih]

theorem droppedFrom_top (num max : Word) (top : Nat) : droppedFrom num max top top = false := by
  rw [Bool.eq_false_iff, ne_eq, droppedFrom_iff]
  omega

/-- Settles O39: at the start of the scan no position has dropped num below max. -/
theorem boundedBitsByPosition : Obligations.BoundedBitsByPosition := by
  intro num max hmax
  rw [boundedBits, if_neg hmax]
  have h := boundedBitsFrom_eq num max (msb max + 1) (msb max + 1) le_rfl
  rw [droppedFrom_top] at h
  exact h

/-! ### The number of bits of the bounded code -/

/-- The number of ones of a word below position `n`. -/
def onesBelow (v : Word) (n : Nat) : Nat := ((List.range n).filter fun i => v.getLsbD i).length

theorem onesBelow_succ (v : Word) (n : Nat) : onesBelow v (n + 1) = onesBelow v n + (v.getLsbD n).toNat := by
  rw [onesBelow, onesBelow, List.range_succ, List.filter_append, List.length_append]
  cases h : v.getLsbD n <;> simp [h]

/-- No position from `n` up has a one, so more positions hold no more ones. -/
theorem onesBelow_eq_of_le {v : Word} {n m : Nat} (h : v.toNat < 2 ^ n) (hnm : n ≤ m) : onesBelow v m = onesBelow v n := by
  induction m, hnm using Nat.le_induction with
  | base => rfl
  | succ m hm ih =>
    have hzero : v.getLsbD m = false := Nat.testBit_lt_two_pow (h.trans_le (Nat.pow_le_pow_right (by omega) hm))
    rw [onesBelow_succ, ih, hzero, Bool.toNat_false, Nat.add_zero]

/-- Once num has dropped below max every position is written. -/
theorem boundedBitsFrom_untied_length (num max : Word) : ∀ n, (boundedBitsFrom num max n false).length = n
  | 0 => rfl
  | n + 1 => by
    rw [boundedBitsFrom, if_pos (.inl rfl), List.length_cons, stillTied, Bool.false_and,
      boundedBitsFrom_untied_length num max n]

/-- No scan writes a position twice. -/
theorem boundedBitsFrom_length_le (num max : Word) : ∀ n tied, (boundedBitsFrom num max n tied).length ≤ n
  | 0, _ => le_rfl
  | n + 1, tied => by
    rw [boundedBitsFrom]
    split_ifs
    · exact Nat.succ_le_succ (boundedBitsFrom_length_le num max n _)
    · exact (boundedBitsFrom_length_le num max n _).trans (Nat.le_succ n)

/-- While num and max agree the scan writes the positions of max's ones. -/
theorem boundedBitsFrom_tied_length {num max : Word} {d : Nat} (j : Nat)
    (h : ∀ i, j ≤ i → num.getLsbD i = max.getLsbD i) :
    (boundedBitsFrom num max (j + d) true).length =
      onesBelow (max >>> j) d + (boundedBitsFrom num max j true).length := by
  induction d with
  | zero => simp [onesBelow]
  | succ d ih =>
    have hbit : (max >>> j).getLsbD d = max.getLsbD (j + d) := by rw [BitVec.getLsbD_ushiftRight]
    rw [← Nat.add_assoc, boundedBitsFrom, onesBelow_succ, hbit, h (j + d) (by omega)]
    cases hm : max.getLsbD (j + d)
    · rw [if_neg (by simp), ih, Bool.toNat_false, Nat.add_zero]
    · rw [if_pos (.inr rfl), List.length_cons, stillTied, hm]
      show (boundedBitsFrom num max (j + d) true).length + 1 = _
      rw [ih, Bool.toNat_true]
      omega

/-- Where num first differs from max, num being at most max, max has a 1 and num a 0. -/
theorem getLsbD_of_highest_difference {num max : Word} {j : Nat} (hle : num.toNat ≤ max.toNat)
    (hagree : ∀ i, j < i → num.getLsbD i = max.getLsbD i) (hdiff : num.getLsbD j ≠ max.getLsbD j) :
    max.getLsbD j = true ∧ num.getLsbD j = false := by
  cases hm : max.getLsbD j
  · have hn : num.getLsbD j = true := by simpa [hm] using hdiff
    exact absurd (Nat.lt_of_testBit j hm hn fun i hi => (hagree i hi).symm) (by omega)
  · exact ⟨rfl, by simpa [hm] using hdiff⟩

/-- No position above msb(v) holds a 1. -/
theorem le_msb_of_getLsbD {v : Word} {i : Nat} (h : v.getLsbD i = true) : i ≤ msb v := by
  have hne : v.toNat ≠ 0 := fun h0 => by rw [BitVec.getLsbD, h0, Nat.zero_testBit] at h; cases h
  exact (Nat.le_log2 hne).2 (Nat.ge_two_pow_of_testBit h)

/-- The highest position where two different words differ. -/
theorem msb_xor_spec {v w : Word} (h : v ≠ w) :
    v.getLsbD (msb (v ^^^ w)) ≠ w.getLsbD (msb (v ^^^ w)) ∧ ∀ i, msb (v ^^^ w) < i → v.getLsbD i = w.getLsbD i := by
  have hne : v ^^^ w ≠ 0 := fun h0 => h (by simpa using h0)
  obtain ⟨-, hlow, hhigh⟩ := msb_bounds _ hne
  have hbit : ∀ i, (v ^^^ w).getLsbD i = (v.getLsbD i ^^ w.getLsbD i) := fun i => BitVec.getLsbD_xor
  constructor
  · have hone : (v ^^^ w).getLsbD (msb (v ^^^ w)) = true := by
      rw [BitVec.getLsbD, Nat.testBit_eq_decide_div_mod_eq,
        Nat.div_eq_of_lt_le (k := 1) (by omega) (by rw [pow_succ] at hhigh; omega)]
      rfl
    rw [hbit] at hone
    simpa using hone
  · intro i hi
    have hzero : (v ^^^ w).getLsbD i = false :=
      Nat.testBit_lt_two_pow (hhigh.trans_le (Nat.pow_le_pow_right (by omega) hi))
    rw [hbit] at hzero
    simpa using hzero

/-- At the position where num drops below max a bit is written, and from there on every position is. -/
theorem boundedBitsFrom_drop_length {num max : Word} {j : Nat} (hm : max.getLsbD j = true) (hn : num.getLsbD j = false) :
    (boundedBitsFrom num max (j + 1) true).length = j + 1 := by
  rw [boundedBitsFrom, if_pos (.inr hm), List.length_cons, stillTied, hm, hn]
  exact congrArg (· + 1) (boundedBitsFrom_untied_length num max j)

/-- Settles O40: while num and max agree the scan writes max's ones, and below the position where num drops every bit. -/
theorem boundedBitCount : Obligations.BoundedBitCount := by
  intro num max hmax hle popcount j
  obtain ⟨htop, -, hlt⟩ := msb_bounds max hmax
  have hpop : ∀ v : Word, popcount v = onesBelow v 32 := fun _ => rfl
  rw [boundedBits, if_neg hmax]
  refine ⟨fun h => ?_, fun h => ?_, boundedBitsFrom_length_le num max _ _⟩
  · subst h
    have hscan := boundedBitsFrom_tied_length (num := num) (d := msb num + 1) 0 fun _ _ => rfl
    rw [Nat.zero_add, BitVec.ushiftRight_zero] at hscan
    rw [hscan, hpop, onesBelow_eq_of_le (m := 32) hlt (by omega)]
    rfl
  · obtain ⟨hdiff, hagree⟩ := msb_xor_spec h
    obtain ⟨hm, hn⟩ := getLsbD_of_highest_difference hle hagree hdiff
    have hj : j ≤ msb max := le_msb_of_getLsbD hm
    obtain ⟨d, hd⟩ : ∃ d, msb max + 1 = j + 1 + d := ⟨msb max - j, by omega⟩
    have hshift : (max >>> (j + 1)).toNat < 2 ^ d := by
      rw [BitVec.toNat_ushiftRight, Nat.shiftRight_eq_div_pow, Nat.div_lt_iff_lt_mul (by positivity), ← pow_add]
      rwa [hd, Nat.add_comm (j + 1)] at hlt
    rw [hd, boundedBitsFrom_tied_length (j + 1) hagree, boundedBitsFrom_drop_length hm hn, hpop,
      onesBelow_eq_of_le (m := 32) hshift (by omega), Nat.add_assoc]

/-! ### The number of bits of the unbounded code -/

theorem unboundedPairs_length : ∀ k m, (unboundedPairs k m).length = 2 * k
  | 0, _ => rfl
  | k + 1, m => by rw [unboundedPairs, List.length_cons, List.length_cons, unboundedPairs_length k]; omega

/-- Settles O41: the loop of the encoder runs msb(n + 1) times, with two bits each time, and a terminator follows. -/
theorem unboundedBitCount : Obligations.UnboundedBitCount := by
  intro n m hlow hhigh
  have hlog : Nat.log2 (n + 1) = m := (Nat.log2_eq_iff (by omega)).2 ⟨hlow, hhigh⟩
  rw [unboundedBits, hlog, List.length_append, unboundedPairs_length, List.length_singleton]

end Sys2Proof.Machine
end

section
/-! PROOFS. The host's side of a step: the next input performed, the address map, the host's reads, byte writes and refusals,
and the pseudo-instruction ENCB (20_memory.md sections 2, 3 and 5; 30_encoding.md section 5; 10_state.md R49). -/

namespace Sys2Proof.Machine

/-! ### One step -/

theorem step_of_pending {s : State} {x : Input} {rest : List Input} (h : s.pending = x :: rest) :
    step s = performInput x { s with pending := rest } := by
  rw [step, performNext, h]; rfl

theorem step_of_access {s : State} {op : HostOp} {rest : List Input} (h : s.pending = .access op :: rest) :
    step s = hostAccess op { s with pending := rest } :=
  step_of_pending h

/-- A write to OMK_BASE is a CMD write. -/
theorem step_of_cmdWrite {s : State} {w : Word} {rest : List Input} (h : s.pending = cmdWrite s.params w :: rest) :
    step s = performWord w { s with pending := rest } :=
  (step_of_access h).trans (hostAccess_write32_reg (s := { s with pending := rest }) (locate_base s.params) w)

/-- Settles O6: the access is the one at the head of the list, and a CMD write leads to the decoded command. -/
theorem stepRunsDecodedCommand : Obligations.StepRunsDecodedCommand :=
  ⟨fun _ _ _ _ h hd => (step_of_cmdWrite h).trans (performWord_of_decode_ok hd _), fun _ _ _ => step_of_cmdWrite,
    fun _ _ _ => step_of_access⟩

/-- Settles O12: the reset state has the same parameters, and the host's lists are kept. -/
theorem powerOnResetStep : Obligations.PowerOnResetStep := fun _ _ h => step_of_pending h

/-- RESET leaves every register as power-on reset does. -/
theorem readReg_resetAction (s : State) (r : Reg) : readReg (resetAction s) r = readReg (State.resetWith s.params) r := by
  cases r <;> simp [readReg, State.resetWith]

/-- Settles O10: the reset values are written out in `State.resetWith`, and CMD and ID are constant. -/
theorem resetRegisterValues : Obligations.ResetRegisterValues := by
  unfold Obligations.ResetRegisterValues
  intro registersReset
  have hreset : ∀ p, registersReset (State.resetWith p) := fun p => by
    simp [registersReset, readReg, State.resetWith, Config.idWord]
  refine ⟨fun p => ⟨hreset p, rfl, rfl, rfl⟩, fun s => ⟨resetAction s, rfl, ?_, rfl, rfl, rfl⟩⟩
  simp only [registersReset, readReg_resetAction]
  exact hreset s.params

/-! ### Several steps -/

theorem coreRun_succ (M : Host.Core) {k : Nat} {s t : M.State} (h : M.step s = .next t) : M.run (k + 1) s = M.run k t := by
  rw [Host.Core.run, h]

theorem coreRun_one (M : Host.Core) (s : M.State) : M.run 1 s = M.step s := by
  rw [Host.Core.run]
  cases M.step s <;> rfl

theorem run_succ_of_step {k : Nat} {s t : State} (h : step s = .next t) : core.run (k + 1) s = core.run k t :=
  coreRun_succ core (s := s) (t := t) h

theorem run_one (s : State) : core.run 1 s = step s := coreRun_one core s

/-! ### The address map -/

/-- Where the map has a location, as an offset from OMK_BASE (20_memory.md R62). -/
def StandsAt (p : Params) (off : Nat) : Location → Prop
  | .reg r => off = r.offset.toNat
  | .insideReg => off < 0x40 ∧ off % 4 ≠ 0
  | .digestByte j => off = 0x40 + j
  | .memByte sp a => off = windowBase sp + a ∧ a < p.size sp

theorem regAt_eq_some_iff {off : Nat} {r : Reg} : regAt off = some r ↔ off = r.offset.toNat := by
  constructor
  · intro h
    unfold regAt at h
    split at h
    all_goals cases h
    all_goals rfl
  · rintro rfl
    cases r <;> rfl

/-- The registers below 0x40 are at the multiples of 4. -/
theorem regAt_eq_none_iff : ∀ off < 0x40, (regAt off = none ↔ off % 4 ≠ 0) := by decide

theorem reg_offset_lt (r : Reg) : r.offset.toNat < 0x40 := by cases r <;> decide

theorem windowAt_inside {p : Params} {sp : Space} {a : Nat} (h : a < p.size sp) :
    windowAt p sp (windowBase sp + a) = some (.memByte sp a) := by
  rw [windowAt, if_pos (by omega), Nat.add_sub_cancel_left]

theorem windowAt_outside {p : Params} {sp : Space} {off : Nat}
    (h : off < windowBase sp ∨ windowBase sp + p.size sp ≤ off) : windowAt p sp off = none :=
  if_neg (by omega)

theorem locationAt_register {p : Params} {off : Nat} (h : off < 0x40) :
    locationAt p off = (regAt off).elim (some .insideReg) fun r => some (.reg r) := by
  rw [locationAt, if_pos h]
  cases regAt off <;> rfl

theorem locationAt_digest (p : Params) (j : Fin 32) : locationAt p (0x40 + j) = some (.digestByte j) := by
  simp [locationAt]

theorem locationAt_windows {p : Params} {off : Nat} (h : 0x60 ≤ off) :
    locationAt p off = ((windowAt p .inp off).or (windowAt p .buf off)).or (windowAt p .out off) := by
  rw [locationAt, if_neg (by omega), dif_neg (by omega)]

/-- The windows do not overlap, because no memory is larger than 2^27 bytes (00_scope.md R5). -/
theorem locationAt_memByte {p : Params} (hp : p.Legal) {sp : Space} {a : Nat} (ha : a < p.size sp) :
    locationAt p (windowBase sp + a) = some (.memByte sp a) := by
  obtain ⟨hin, ⟨-, hbuf⟩, -, -⟩ := hp
  have hself := windowAt_inside ha
  cases sp with
  | inp => rw [locationAt_windows (by simp [windowBase]; omega), hself]; rfl
  | buf =>
    rw [locationAt_windows (by simp [windowBase]; omega), hself,
      windowAt_outside (sp := .inp) (.inr (by simp [windowBase, Params.size]; omega))]
    rfl
  | out =>
    rw [locationAt_windows (by simp [windowBase]; omega), hself,
      windowAt_outside (sp := .inp) (.inr (by simp [windowBase, Params.size]; omega)),
      windowAt_outside (sp := .buf) (.inr (by simp [windowBase, Params.size]; omega))]
    rfl

theorem standsAt_of_locationAt {p : Params} {off : Nat} {l : Location} (h : locationAt p off = some l) :
    StandsAt p off l := by
  by_cases hreg : off < 0x40
  · rw [locationAt_register hreg] at h
    cases hr : regAt off with
    | none => rw [hr] at h; cases h; exact ⟨hreg, (regAt_eq_none_iff off hreg).1 hr⟩
    | some r => rw [hr] at h; cases h; exact regAt_eq_some_iff.1 hr
  by_cases hdig : off < 0x60
  · obtain ⟨j, rfl⟩ : ∃ j : Fin 32, off = 0x40 + j := ⟨⟨off - 0x40, by omega⟩, by simp; omega⟩
    rw [locationAt_digest] at h
    cases h
    rfl
  · rw [locationAt_windows (by omega)] at h
    have hwindow : ∃ sp, windowAt p sp off = some l := by
      simp only [Option.or_eq_some_iff] at h
      rcases h with (h | ⟨-, h⟩) | ⟨-, h⟩
      exacts [⟨_, h⟩, ⟨_, h⟩, ⟨_, h⟩]
    obtain ⟨sp, hsp⟩ := hwindow
    unfold windowAt at hsp
    split_ifs at hsp with hin
    cases hsp
    exact ⟨by omega, by omega⟩

/-- A location stands at an offset exactly when the map has it there. -/
theorem locationAt_eq_some_iff {p : Params} (hp : p.Legal) {off : Nat} {l : Location} :
    locationAt p off = some l ↔ StandsAt p off l := by
  refine ⟨standsAt_of_locationAt, fun h => ?_⟩
  cases l with
  | reg r => rw [h, locationAt_register (reg_offset_lt r), regAt_eq_some_iff.2 rfl]; rfl
  | insideReg => rw [locationAt_register h.1, (regAt_eq_none_iff off h.1).2 h.2]; rfl
  | digestByte j => rw [h]; exact locationAt_digest p j
  | memByte sp a => rw [h.1]; exact locationAt_memByte hp h.2

/-- Settles O53: `locationAt_eq_some_iff` at each kind of location, and the two branches of `locate`. -/
theorem addressMap : Obligations.AddressMap :=
  ⟨fun _ _ hp => ⟨fun _ => locationAt_eq_some_iff hp, locationAt_eq_some_iff hp, fun _ => locationAt_eq_some_iff hp,
      fun _ => locationAt_eq_some_iff hp, fun _ => locationAt_eq_some_iff hp, fun _ => locationAt_eq_some_iff hp⟩,
    fun _ _ => ⟨fun h => if_pos h, fun h => if_neg (by omega)⟩⟩

/-! ### Host byte writes -/

theorem hostAccess_write8_mem {s : State} {addr : Word} {sp : Space} {a : Nat}
    (h : locate s.params addr = some (.memByte sp a)) (hsp : sp ≠ .out) (b : Byte) :
    hostAccess (.write8 addr b) s = .next (s.setMem sp (Memory.write (s.mem sp) a b)) := by
  cases sp with
  | out => exact absurd rfl hsp
  | inp | buf => simp only [hostAccess, hostWrite8, h, State.mem_inp, State.mem_buf]

/-- Settles O55: the byte is written to its memory, and no other address or memory. -/
theorem hostByteWriteStores : Obligations.HostByteWriteStores := by
  intro s rest addr b sp a hpend hloc hsp
  refine ⟨_, (step_of_access hpend).trans (hostAccess_write8_mem (s := { s with pending := rest }) hloc hsp b), ?_,
    byteAt_write_same _ sp a b, fun sp' a' hne => ?_⟩
  · cases sp with
    | out => exact absurd rfl hsp
    | inp | buf => rfl
  · by_cases hs : sp' = sp
    · subst hs
      exact byteAt_write_other _ sp' b (hne.resolve_left (fun h => h rfl))
    · exact byteAt_setMem_other _ _ hs a'

/-! ### Host reads -/

theorem hostAccess_read32_reg {s : State} {addr : Word} {r : Reg} (h : locate s.params addr = some (.reg r)) :
    hostAccess (.read32 addr) s = .next (s.addReply (.word (readReg s r))) := by
  simp only [hostAccess, hostRead32, h]

theorem hostAccess_read8_mem {s : State} {addr : Word} {sp : Space} {a : Nat}
    (h : locate s.params addr = some (.memByte sp a)) :
    hostAccess (.read8 addr) s = .next (s.addReply (.byte (s.byteAt sp a))) := by
  simp only [hostAccess, hostRead8, h]

theorem hostAccess_read8_digest {s : State} {addr : Word} {j : Fin 32} (h : locate s.params addr = some (.digestByte j)) :
    hostAccess (.read8 addr) s = .next (s.addReply (.byte s.digest[j])) := by
  simp only [hostAccess, hostRead8, h]

/-- The state as the host's lists grow and shrink, and nothing else. -/
def State.withHost (s : State) (pending : List Input) (replies : List Reply) : State :=
  { s with pending := pending, replies := replies }

/-- An access that only adds one reply, the same whatever the host's lists hold, adds it twice in two steps. -/
theorem run_two_reads {s : State} {op : HostOp} {rest : List Input} {r : Reply}
    (h : s.pending = .access op :: .access op :: rest)
    (hread : ∀ l rs, hostAccess op (s.withHost l rs) = .next ((s.withHost l rs).addReply r)) :
    core.run 2 s = .next (s.withHost rest (s.replies ++ [r, r])) := by
  have hfirst : step s = .next (s.withHost (.access op :: rest) (s.replies ++ [r])) :=
    (step_of_access h).trans (hread _ s.replies)
  have hsecond : step (s.withHost (.access op :: rest) (s.replies ++ [r])) =
      .next (s.withHost rest (s.replies ++ [r] ++ [r])) :=
    (step_of_access rfl).trans (hread rest _)
  refine (run_succ_of_step hfirst).trans ((run_one _).trans (hsecond.trans ?_))
  rw [List.append_assoc]
  rfl

theorem readReg_withHost (s : State) (l : List Input) (rs : List Reply) (r : Reg) :
    readReg (s.withHost l rs) r = readReg s r := by
  cases r <;> rfl

theorem byteAt_withHost (s : State) (l : List Input) (rs : List Reply) (sp : Space) (a : Nat) :
    (s.withHost l rs).byteAt sp a = s.byteAt sp a := by
  cases sp <;> rfl

/-! ### The bits that a register read gives -/

theorem statusMask_getLsbD (i : Nat) : statusMask.getLsbD i = decide (i = 0 ∨ 4 ≤ i ∧ i < 8) := by
  by_cases h : i < 32
  · have hlow : ∀ i < 32, statusMask.getLsbD i = decide (i = 0 ∨ 4 ≤ i ∧ i < 8) := by decide
    exact hlow i h
  · rw [BitVec.getLsbD_of_ge _ _ (by omega), eq_comm, decide_eq_false_iff_not]
    omega

theorem byteMask_getLsbD (i : Nat) : (0xFF : Word).getLsbD i = decide (i < 8) := by
  by_cases h : i < 32
  · have hlow : ∀ i < 32, (0xFF : Word).getLsbD i = decide (i < 8) := by decide
    exact hlow i h
  · rw [BitVec.getLsbD_of_ge _ _ (by omega), eq_comm, decide_eq_false_iff_not]
    omega

theorem readReg_status_getLsbD (s : State) (i : Nat) :
    (readReg s .status).getLsbD i = (decide (i = 0 ∨ 4 ≤ i ∧ i < 8) && s.status.getLsbD i) := by
  rw [readReg, BitVec.getLsbD_and, statusMask_getLsbD, Bool.and_comm]

theorem readReg_mode_getLsbD (s : State) (i : Nat) : (readReg s .mode).getLsbD i = (decide (i = 0) && s.mode.getLsbD i) := by
  rw [readReg, BitVec.getLsbD_and, Bool.and_comm]
  show ((1#32).getLsbD i && _) = _
  rw [BitVec.getLsbD_one]
  simp

theorem readReg_wacc_getLsbD (s : State) (i : Nat) : (readReg s .wacc).getLsbD i = (decide (i < 8) && s.wacc.getLsbD i) := by
  rw [readReg, BitVec.getLsbD_and, byteMask_getLsbD, Bool.and_comm]

/-- Settles O56: the three kinds of read add a reply and nothing else, and the values that a register read gives. -/
theorem hostReadsReturnTwiceTheSame : Obligations.HostReadsReturnTwiceTheSame := by
  refine ⟨fun s rest addr => ⟨fun r h hloc => ?_, fun sp a h hloc => ?_, fun j h hloc => ?_⟩, fun s => ?_⟩
  · exact run_two_reads h fun l rs => by rw [hostAccess_read32_reg (s := s.withHost l rs) hloc, readReg_withHost]
  · exact run_two_reads h fun l rs => by rw [hostAccess_read8_mem (s := s.withHost l rs) hloc, byteAt_withHost]
  · exact run_two_reads h fun l rs => hostAccess_read8_digest (s := s.withHost l rs) hloc
  · exact ⟨⟨rfl, rfl⟩, readReg_status_getLsbD s, readReg_mode_getLsbD s, readReg_wacc_getLsbD s,
      rfl, rfl, rfl, rfl, rfl, rfl, rfl, rfl, rfl, rfl, rfl⟩

/-! ### Refusals -/

/-- A 32-bit access is refused everywhere but at a register. -/
theorem access32_refused {s : State} {addr : Word} {op : HostOp} (hop : (∃ w, op = .write32 addr w) ∨ op = .read32 addr) :
    (locate s.params addr = none → hostAccess op s = .refused (.unmappedAddress addr)) ∧
    (locate s.params addr = some .insideReg → hostAccess op s = .refused (.misalignedAccess addr)) ∧
    (∀ sp a, locate s.params addr = some (.memByte sp a) → hostAccess op s = .refused (.wrongWidth addr)) ∧
    (∀ j, locate s.params addr = some (.digestByte j) → hostAccess op s = .refused (.wrongWidth addr)) := by
  rcases hop with ⟨w, rfl⟩ | rfl
  · exact ⟨fun h => by simp only [hostAccess, hostWrite32, h], fun h => by simp only [hostAccess, hostWrite32, h],
      fun _ _ h => by simp only [hostAccess, hostWrite32, h], fun _ h => by simp only [hostAccess, hostWrite32, h]⟩
  · exact ⟨fun h => by simp only [hostAccess, hostRead32, h], fun h => by simp only [hostAccess, hostRead32, h],
      fun _ _ h => by simp only [hostAccess, hostRead32, h], fun _ h => by simp only [hostAccess, hostRead32, h]⟩

/-- An 8-bit access is refused at a register, inside it, and where nothing is mapped. -/
theorem access8_refused {s : State} {addr : Word} {op : HostOp} (hop : (∃ b, op = .write8 addr b) ∨ op = .read8 addr) :
    (locate s.params addr = none → hostAccess op s = .refused (.unmappedAddress addr)) ∧
    (locate s.params addr = some .insideReg → hostAccess op s = .refused (.wrongWidth addr)) ∧
    (∀ r, locate s.params addr = some (.reg r) → hostAccess op s = .refused (.wrongWidth addr)) := by
  rcases hop with ⟨b, rfl⟩ | rfl
  · exact ⟨fun h => by simp only [hostAccess, hostWrite8, h], fun h => by simp only [hostAccess, hostWrite8, h],
      fun _ h => by simp only [hostAccess, hostWrite8, h]⟩
  · exact ⟨fun h => by simp only [hostAccess, hostRead8, h], fun h => by simp only [hostAccess, hostRead8, h],
      fun _ h => by simp only [hostAccess, hostRead8, h]⟩

/-- Settles O57: the step performs the access, which is refused by its width and location. -/
theorem hostAccessRefusals : Obligations.HostAccessRefusals := by
  intro s rest addr w b
  constructor
  · rintro (h | h)
    · rw [step_of_access h]; exact access32_refused (s := { s with pending := rest }) (.inl ⟨w, rfl⟩)
    · rw [step_of_access h]; exact access32_refused (s := { s with pending := rest }) (.inr rfl)
  · rintro (h | h)
    · rw [step_of_access h]; exact access8_refused (s := { s with pending := rest }) (.inl ⟨b, rfl⟩)
    · rw [step_of_access h]; exact access8_refused (s := { s with pending := rest }) (.inr rfl)

/-! ### The pseudo-instruction ENCB -/

/-- With a map that does not wrap, `wr REG` leads to the register. -/
theorem locate_reg {p : Params} (h : p.base.toNat + 0x40 ≤ 2 ^ 32) (r : Reg) :
    locate p (p.base + r.offset) = some (.reg r) := by
  have hoff := reg_offset_lt r
  have hsum : (p.base + r.offset).toNat = p.base.toNat + r.offset.toNat := by
    rw [BitVec.toNat_add, Nat.mod_eq_of_lt (by omega)]
  rw [locate, hsum, if_pos (Nat.le_add_right _ _), Nat.add_sub_cancel_left, locationAt_register hoff,
    regAt_eq_some_iff.2 rfl]
  rfl

/-- `wr REG, value` writes the register. -/
theorem step_of_opWr {s : State} {p : Params} {r : Reg} {v : Word} {rest : List Input} (hbase : p.base.toNat + 0x40 ≤ 2 ^ 32)
    (hp : s.params = p) (h : s.pending = opWr p.base r v :: rest) : step s = writeReg r v { s with pending := rest } := by
  subst hp
  exact (step_of_access h).trans (hostAccess_write32_reg (s := { s with pending := rest }) (locate_reg hbase r) v)

/-- Settles O58: two register writes, and a CMD write of the word of ENCB. -/
theorem pseudoEncbPerforms : Obligations.PseudoEncbPerforms := by
  intro s num max rest hbase hpend
  have hfirst : step s =
      .next { s with pending := opWr s.params.base .arg1 max :: opCmd s.params.base .encb :: rest, arg0 := num } :=
    step_of_opWr hbase rfl hpend
  have hsecond : step { s with pending := opWr s.params.base .arg1 max :: opCmd s.params.base .encb :: rest, arg0 := num } =
      .next { s with pending := opCmd s.params.base .encb :: rest, arg0 := num, arg1 := max } :=
    step_of_opWr (r := .arg1) hbase (by rfl) (by rfl)
  have hthird : step { s with pending := opCmd s.params.base .encb :: rest, arg0 := num, arg1 := max } =
      exec .encb { s with pending := rest, arg0 := num, arg1 := max } :=
    (step_of_opWr (r := .cmd) hbase (by rfl) (by rfl)).trans (performWord_of_decode_ok (decode_eq_ok_iff.2 rfl) _)
  exact (run_succ_of_step hfirst).trans ((run_succ_of_step hsecond).trans ((run_one _).trans hthird))

end Sys2Proof.Machine
end

section
/-! PROOFS. SHA-256: the padding, the blocks in order, the published digests and the constants (41_hash.md sections 1, 3
and 5; 95_test_vectors.md section 1.2). -/

namespace Sys2Proof.Machine

/-! ### Padding -/

theorem be64_length (x : BitVec 64) : (be64 x).length = 8 := rfl

theorem padZeros_eq (len : Nat) : (padZeros len : Int) = (55 - (len : Int)) % 64 := by
  rw [padZeros]
  exact Int.toNat_of_nonneg (Int.emod_nonneg _ (by decide))

theorem padMessage_length (m : List Byte) : (padMessage m).length = m.length + 9 + padZeros m.length := by
  simp only [padMessage, List.length_append, List.length_singleton, List.length_replicate, be64_length]
  omega

/-- Settles O31: the zeros fill the last block, and there are fewer than 64 of them. -/
theorem paddingLaw : Obligations.PaddingLaw := by
  intro m
  have hz := padZeros_eq m.length
  refine ⟨padZeros m.length, hz, ?_, be64_length _, ?_, ?_⟩
  · rw [padMessage, List.append_assoc m]
    rfl
  · rw [padMessage_length]
    omega
  · rw [padMessage_length]
    omega

/-! ### The blocks -/

/-- The compression of the first `n` blocks takes block `j` at byte `64 j`. -/
theorem compressBlocks_eq_foldl : ∀ (n : Nat) (hv : HashWords) (m : List Byte),
    compressBlocks n hv m = (List.range n).foldl (fun h j => compress h ((m.drop (64 * j)).take 64)) hv
  | 0, _, _ => rfl
  | n + 1, hv, m => by
    rw [compressBlocks, compressBlocks_eq_foldl n, List.range_succ_eq_map, List.foldl_cons, List.foldl_map]
    simp only [List.drop_drop, Nat.mul_zero, List.drop_zero, Nat.mul_succ, Nat.add_comm]

theorem serialize_toList (v : HashWords) : v.serialize.toList = v.toList.flatMap be32 := by
  simp [HashWords.serialize, HashWords.toList, Vector.toList]

/-- Settles O34: the blocks are folded in order, and the three messages are hashed by evaluation. -/
theorem hashKnownDigests : Obligations.HashKnownDigests := by
  refine ⟨fun m => ?_, by decide +kernel, by decide +kernel, by decide +kernel⟩
  rw [sha256, serialize_toList, compressBlocks_eq_foldl]

/-! ### The constants -/

/-- Each initial hash word is the fraction of a square root whose integer part is `Nat.sqrt`. -/
theorem initialHash_roots : ∀ i < 8,
    let r := Nat.sqrt (primes.getD i 0) * 2 ^ 32 + (initialHash.toList.getD i 0).toNat
    r ^ 2 ≤ primes.getD i 0 * 2 ^ 64 ∧ primes.getD i 0 * 2 ^ 64 < (r + 1) ^ 2 ∧
      initialHash.toList[i]? = some (BitVec.ofNat 32 r) := by
  decide +kernel

/-- The integer part of the cube root of a number below 7^3: how many of 1 to 6 have a cube up to it. -/
def cubeRoot (p : Nat) : Nat := ((List.range 6).filter fun k => decide ((k + 1) ^ 3 ≤ p)).length

theorem roundConstants_roots : ∀ i < 64,
    let r := cubeRoot (primes.getD i 0) * 2 ^ 32 + (roundConstants.getD i 0).toNat
    r ^ 3 ≤ primes.getD i 0 * 2 ^ 96 ∧ primes.getD i 0 * 2 ^ 96 < (r + 1) ^ 3 ∧
      roundConstants[i]? = some (BitVec.ofNat 32 r) := by
  decide +kernel

theorem primes_eq_filter : primes = (List.range 312).filter fun n => decide n.Prime := by
  decide +kernel

/-- Settles O33: the listed primes are found by evaluation, and each constant is the fraction of its root. -/
theorem hashConstantsDerived : Obligations.HashConstantsDerived :=
  ⟨primes_eq_filter, fun i hi => ⟨_, initialHash_roots i hi⟩, fun i hi => ⟨_, roundConstants_roots i hi⟩⟩

end Sys2Proof.Machine
end

section
/-! PROOFS. What the writer wrote reads back (40_bitio.md section 3, 43_codec.md section 5). The reader
returns the bits of its input and then zeros; the writer's bytes hold its bits and then zeros; and bits
followed by zeros agree at every position. -/

namespace Sys2Proof.Machine

/-! ### The bits of bytes -/

theorem byteBits_length (b : Byte) : (byteBits b).length = 8 := rfl

theorem byteBits_getElem? {b : Byte} {p : Nat} (h : p < 8) : (byteBits b)[p]? = some (streamBit b p) := by
  interval_cases p <;> rfl

theorem streamBit_zero (p : Nat) : streamBit 0 p = false := by simp [streamBit]

theorem flatMap_byteBits_length (bytes : List Byte) : (bytes.flatMap byteBits).length = 8 * bytes.length := by
  induction bytes with
  | nil => rfl
  | cons b bytes ih => rw [List.flatMap_cons, List.length_append, byteBits_length, ih, List.length_cons]; omega

/-- Bit p of a byte sequence is stream position p mod 8 of byte p div 8, and 0 past its end (00_scope.md R9). -/
theorem flatMap_byteBits_getD : ∀ (bytes : List Byte) (p : Nat),
    (bytes.flatMap byteBits).getD p false = streamBit (bytes.getD (p / 8) 0) (p % 8)
  | [], p => by rw [List.flatMap_nil, List.getD_nil, List.getD_nil, streamBit_zero]
  | b :: bytes, p => by
    rw [List.flatMap_cons]
    by_cases hp : p < 8
    · rw [List.getD_append _ _ _ _ hp, List.getD, byteBits_getElem? hp, Nat.div_eq_of_lt hp, Nat.mod_eq_of_lt hp]
      rfl
    · rw [List.getD_append_right _ _ _ _ (by rw [byteBits_length]; omega), byteBits_length,
        flatMap_byteBits_getD bytes (p - 8), show p / 8 = (p - 8) / 8 + 1 by omega, List.getD_cons_succ,
        show (p - 8) % 8 = p % 8 by omega]

theorem flatMap_byteBits_zeros (z : Nat) :
    (List.replicate z (0 : Byte)).flatMap byteBits = List.replicate (8 * z) false := by
  refine List.eq_replicate_iff.2 ⟨by rw [flatMap_byteBits_length, List.length_replicate], fun b hb => ?_⟩
  obtain ⟨c, hc, hb⟩ := List.mem_flatMap.1 hb
  rw [List.eq_of_mem_replicate hc] at hb
  exact List.eq_of_mem_replicate (show b ∈ List.replicate 8 false from hb)

/-- Zeros at the end change the bit at no position, if the bits past the end count as zeros. -/
theorem getD_append_falses (bits : List Bool) (k i : Nat) :
    (bits ++ List.replicate k false).getD i false = bits.getD i false := by
  by_cases h : i < bits.length
  · rw [List.getD_append _ _ _ _ h]
  · rw [List.getD_append_right _ _ _ _ (by omega), List.getD_eq_default _ _ (by omega : bits.length ≤ i)]
    rw [List.getD, List.getElem?_replicate]
    split_ifs <;> rfl

/-! ### The reader -/

/-- The input bit stream: the bits of IN_MEM[0..RLEN) in stream order. -/
def State.inputBits (s : State) : List Bool := (s.bytesAt .inp 0 s.rlen.toNat).flatMap byteBits

/-- The cursor is before bit `p` of the input, or at its end if it has no bit `p` (40_bitio.md R120, 10_state.md R45). -/
def AtBit (s : State) (p : Nat) : Prop :=
  if s.strided then s.rcur.toNat = 2 * min p (8 * s.rlen.toNat) + 1 else s.rcur.toNat = min p (8 * s.rlen.toNat)

section
variable {s : State}

@[simp] theorem setRcur_inputBits (c : Word) : (s.setRcur c).inputBits = s.inputBits := by
  rw [State.inputBits, State.inputBits, State.setRcur_bytesAt, State.setRcur_rlen]

theorem inputBits_getD {p : Nat} (h : p < 8 * s.rlen.toNat) :
    s.inputBits.getD p false = streamBit (s.byteAt .inp (p / 8)) (p % 8) := by
  have hbyte : p / 8 < (s.bytesAt .inp 0 s.rlen.toNat).length := by rw [bytesAt_length]; omega
  rw [State.inputBits, flatMap_byteBits_getD, List.getD_eq_getElem _ _ hbyte, getElem_bytesAt, Nat.zero_add]

theorem inputBits_getD_end {p : Nat} (h : 8 * s.rlen.toNat ≤ p) : s.inputBits.getD p false = false :=
  List.getD_eq_default _ _ (by rwa [State.inputBits, flatMap_byteBits_length, bytesAt_length])

/-- At bit `p` the input is exhausted, or the cursor is `p`, or with strided addressing it is `2 p + 1`. -/
theorem atBit_cases {p : Nat} (h : AtBit s p) :
    (8 * s.rlen.toNat ≤ p ∧ readLimit s ≤ s.rcur.toNat) ∨
      (p < 8 * s.rlen.toNat ∧ s.rcur.toNat < readLimit s ∧
        (s.strided = false ∧ s.rcur.toNat = p ∨ s.strided = true ∧ s.rcur.toNat = 2 * p + 1)) := by
  unfold AtBit at h
  unfold readLimit
  by_cases hd : s.strided = true
  · rw [if_pos hd] at h ⊢
    rcases Nat.lt_or_ge p (8 * s.rlen.toNat) with hlt | hge
    · exact .inr ⟨hlt, by omega, .inr ⟨hd, by omega⟩⟩
    · exact .inl ⟨hge, by omega⟩
  · rw [if_neg hd] at h ⊢
    rcases Nat.lt_or_ge p (8 * s.rlen.toNat) with hlt | hge
    · exact .inr ⟨hlt, by omega, .inl ⟨by simpa using hd, h.trans (by omega)⟩⟩
    · exact .inl ⟨hge, by omega⟩

theorem peekBit_atBit {p : Nat} (h : AtBit s p) : peekBit s = s.inputBits.getD p false := by
  rcases atBit_cases h with ⟨hge, hend⟩ | ⟨hlt, hlimit, ⟨hd, hc⟩ | ⟨hd, hc⟩⟩
  · rw [peekBit_exhausted hend, inputBits_getD_end hge]
  · rw [peekBit_dense hlimit hd, inputBits_getD hlt, hc]
  · rw [peekBit_strided_odd hlimit hd (by omega), inputBits_getD hlt, show s.rcur.toNat / 16 = p / 8 by omega,
      show s.rcur.toNat / 2 % 8 = p % 8 by omega]

theorem nextRcur_atBit {p : Nat} (hmax : s.rlen.toNat ≤ 2 ^ 27) (h : AtBit s p) :
    AtBit (s.setRcur (nextRcur s)) (p + 1) := by
  have hsum : ∀ v : Word, s.rcur.toNat + v.toNat < 2 ^ 32 → (s.rcur + v).toNat = s.rcur.toNat + v.toNat := fun v hv => by
    rw [BitVec.toNat_add, Nat.mod_eq_of_lt hv]
  have h1 : (1 : Word).toNat = 1 := rfl
  have h2 : (2 : Word).toNat = 2 := rfl
  rcases atBit_cases h with ⟨hge, hend⟩ | ⟨hlt, hlimit, ⟨hd, hc⟩ | ⟨hd, hc⟩⟩
  · rw [nextRcur_exhausted hend, setRcur_self]
    rw [AtBit, min_eq_right hge] at h
    rw [AtBit, min_eq_right (by omega)]
    exact h
  · rw [nextRcur_dense hlimit hd, AtBit, setRcur_strided, if_neg (by simp [hd])]
    rw [State.setRcur_rcur, State.setRcur_rlen, hsum 1 (by omega)]
    omega
  · rw [nextRcur_strided hlimit hd, AtBit, setRcur_strided, if_pos hd]
    rw [State.setRcur_rcur, State.setRcur_rlen, hsum 2 (by omega)]
    omega

/-- A read from a reader over the rest of some bits. -/
theorem standsOver_cons_of {b : Bool} {bits : List Bool} {c c' : Word} (hb : readBit s = .done b (s.setRcur c'))
    (h : StandsOver (s.setRcur c') bits c) : StandsOver s (b :: bits) c := by
  rw [StandsOver] at h
  rw [StandsOver, List.length_cons, readBits, hb, Run.bind_done, h]
  rfl

end

/-- At bit `p` the reader stands over any bits that are the input's from there on, with zeros past its end. -/
theorem standsOver_of_inputBits : ∀ (bits : List Bool) (p : Nat) {s : State}, s.params.Legal →
    s.rlen.toNat ≤ s.params.inMax → AtBit s p →
    (∀ i < bits.length, bits.getD i false = s.inputBits.getD (p + i) false) → ∃ c, StandsOver s bits c
  | [], _, s, _, _, _, _ => ⟨s.rcur, rfl⟩
  | b :: bits, p, s, hp, hlen, hat, hbits => by
    have hmax : s.rlen.toNat ≤ 2 ^ 27 := hlen.trans hp.1
    have hfirst : b = s.inputBits.getD p false := hbits 0 (by simp)
    have hread : readBit s = .done b (s.setRcur (nextRcur s)) := by
      rw [readBit_inside hlen, peekBit_atBit hat, ← hfirst]
    obtain ⟨c, hc⟩ := standsOver_of_inputBits bits (p + 1) (s := s.setRcur (nextRcur s)) hp hlen (nextRcur_atBit hmax hat)
      fun i hi => by
        rw [setRcur_inputBits, show p + 1 + i = p + (i + 1) by omega]
        exact hbits (i + 1) (by simpa using hi)
    exact ⟨c, standsOver_cons_of hread hc⟩

/-! ### The writer -/

/-- A word shifted left by `d` has zeros below, and its own bits above. -/
theorem lowBits_shiftLeft (w : Word) (d : Nat) : ∀ k, k + d ≤ 32 →
    lowBits (w <<< d) (k + d) = lowBits w k ++ List.replicate d false
  | 0, h => by
    have hzeros : ∀ n ≤ d, lowBits (w <<< d) n = List.replicate n false := by
      intro n hn
      induction n with
      | zero => rfl
      | succ n ih =>
        rw [lowBits, ih (by omega), BitVec.getLsbD_shiftLeft, List.replicate_succ, decide_eq_true (show n < d by omega)]
        simp
    rw [Nat.zero_add, hzeros d le_rfl]
    rfl
  | k + 1, h => by
    rw [show k + 1 + d = (k + d) + 1 by omega, lowBits, lowBits_shiftLeft w d k (by omega), lowBits, List.cons_append,
      BitVec.getLsbD_shiftLeft, Nat.add_sub_cancel]
    simp
    omega

theorem partialByte_bits (s : State) :
    ∃ z, (partialByte s).flatMap byteBits = lowBits s.wacc (s.wbits.toNat % 8) ++ List.replicate z false := by
  rw [partialByte]
  split_ifs with h
  · exact ⟨0, by rw [h]; rfl⟩
  · have hshift := lowBits_shiftLeft s.wacc (8 - s.wbits.toNat % 8) (s.wbits.toNat % 8) (by omega)
    rw [show s.wbits.toNat % 8 + (8 - s.wbits.toNat % 8) = 8 by omega] at hshift
    exact ⟨_, by rw [List.flatMap_singleton, byteBits_setWidth, hshift]⟩

/-- The materialized bytes hold the written bits, and zeros after them (40_bitio.md R122). -/
theorem wholeBytes_bits (s : State) : ∃ z, (wholeBytes s).flatMap byteBits = s.writtenBits ++ List.replicate z false := by
  obtain ⟨z, hz⟩ := partialByte_bits s
  exact ⟨z, by rw [wholeBytes, List.flatMap_append, hz, State.writtenBits, List.append_assoc]⟩

/-- Trimming drops zeros only (40_bitio.md R123). -/
theorem trimZeros_bits (bytes : List Byte) :
    ∃ z, bytes.flatMap byteBits = (trimZeros bytes).flatMap byteBits ++ List.replicate z false := by
  obtain ⟨⟨k, hk⟩, -⟩ := trimZerosDropsTrailingZeros bytes
  refine ⟨8 * k, ?_⟩
  conv_lhs => rw [hk, List.flatMap_append, flatMap_byteBits_zeros]

/-- Whole or trimmed, the bytes hold at every position the written bit, or 0 past the last one. -/
theorem image_bits {s : State} {image : List Byte} (h : image = wholeBytes s ∨ image = trimZeros (wholeBytes s)) (i : Nat) :
    (image.flatMap byteBits).getD i false = s.writtenBits.getD i false := by
  obtain ⟨z, hz⟩ := wholeBytes_bits s
  obtain ⟨z', hz'⟩ := trimZeros_bits (wholeBytes s)
  rcases h with rfl | rfl
  · rw [hz, getD_append_falses]
  · rw [← getD_append_falses _ z', ← hz', hz, getD_append_falses]

/-- Settles O43: at every position the input's bit is the written one, or 0, whole or trimmed, dense or strided. -/
theorem writtenStreamReadsBack : Obligations.WrittenStreamReadsBack := by
  intro s u bytes hinv hlen hp hmat image himage hrlen hbytes hstart k
  have hout : s.outLen.toNat ≤ s.params.outMax := hinv.writer.2.2.1.trans hinv.writer.2.2.2.1
  obtain rfl : wholeBytes s = bytes := by
    rw [materialize_inside hout] at hmat
    injection hmat
  have hinput : u.inputBits = image.flatMap byteBits := by rw [State.inputBits, hrlen, hbytes]
  have hat : AtBit u 0 := by
    rcases hstart with ⟨hmode, hrcur⟩ | ⟨hmode, hrcur⟩ <;> simp [AtBit, State.strided, hmode, hrcur]
  refine standsOver_of_inputBits _ 0 hp hlen hat fun i _ => ?_
  rw [getD_append_falses, hinput, Nat.zero_add, image_bits himage]

end Sys2Proof.Machine
end
